-- ==== Sys2Proof/Word.lean ====
section
/-! DEFINITION. The words of the E62 UART command framer: the byte of the register image and of the UART
streams, the 40-bit host command word and the 64-bit millisecond count. -/

namespace Sys2Proof

/-- A byte; bit 7 is the most significant (`00_scope.md` R7). -/
abbrev Byte := BitVec 8

/-- A host command word `cmd_word`: code in bits 39:32, `arg` in bits 31:0 (`30_encoding.md` R85). -/
abbrev HostWord := BitVec 40

/-- The clock's unsigned 64-bit count of milliseconds (`20_memory.md` R53). -/
abbrev Millis := BitVec 64

end Sys2Proof
end

