-- ==== Sys2Proof/Config.lean ====
section
/-! DEFINITION. The implementation parameters of `00_scope.md` R5. They are fixed at elaboration (R256): State
carries one `Config` that no step writes, so that a statement about every state is a statement about every
choice of the parameters. -/

namespace Sys2Proof

/-- The parameters of `00_scope.md` R5, times in milliseconds. -/
structure Config where
  /-- T_AUX_TIMEOUT_MS: bound of one WAIT_AUX (`41_mode_control.md` R131). -/
  auxTimeoutMs : Nat
  /-- T_MODE_SETTLE_MS: sleep after every M0 drive (R134, R135). -/
  modeSettleMs : Nat
  /-- T_RESP_SETTLE_MS: sleep between a triple-byte request and the response check. -/
  respSettleMs : Nat
  /-- T_WRITE_SETTLE_P_MS: sleep after a persistent write command. -/
  writeSettlePMs : Nat
  /-- T_WRITE_SETTLE_V_MS: sleep after a volatile write command. -/
  writeSettleVMs : Nat
  /-- T_RESET_SETTLE_MS: sleep after the reset request (`42_command_framer.md` R166). -/
  resetSettleMs : Nat
  /-- BAUD_W: width of BEGIN's operand and of BAUD, within the 32 bits of `arg` (log entry 12). -/
  baudW : Nat
  /-- RXCOUNT_W: width of the available-byte count; the count saturates at 2^RXCOUNT_W - 1. -/
  rxCountW : Nat
  /-- HAS_DIAG_DECODE: whether PRINT_CONFIG exists (`44_lifecycle_diagnostics.md` R204). -/
  hasDiagDecode : Bool
  deriving DecidableEq, Repr

/-- The constraints of R5: `300 <= T_AUX_TIMEOUT_MS <= 1000` and `T_WRITE_SETTLE_P_MS > T_WRITE_SETTLE_V_MS`
(also R260). The last two conjuncts are DEDUCED (log entry 12): the operand of BEGIN comes in the 32 bits of `arg`
(`30_encoding.md` R85), and R47 compares the count with 6. -/
def Config.wf (c : Config) : Bool :=
  decide (300 ≤ c.auxTimeoutMs) && decide (c.auxTimeoutMs ≤ 1000) &&
    decide (c.writeSettleVMs < c.writeSettlePMs) && decide (c.baudW ≤ 32) && decide (3 ≤ c.rxCountW)

/-- The reference values of R5, the spec's own choice (D3), used by `95_test_vectors.md`. -/
def Config.reference : Config where
  auxTimeoutMs := 1000
  modeSettleMs := 50
  respSettleMs := 100
  writeSettlePMs := 500
  writeSettleVMs := 100
  resetSettleMs := 0
  baudW := 32
  rxCountW := 16
  hasDiagDecode := true

end Sys2Proof
end

