-- ==== Sys2Proof/Syntax.lean ====
section
/-! DEFINITION. The syntax: one constructor of `Instr` per row of `spec/opcode_table.json` (6 wire requests,
3 wire responses, 23 host commands). Operands have the exact widths of `30_encoding.md` R87. -/

namespace Sys2Proof

/-- A 5-byte register image in the order of `10_state.md` R10: the contents of CFG[0..4], of INTENDED[0..4],
and the image part of a WRITE request or of RSP_CFG (`20_memory.md` R57). -/
structure Image where
  /-- Byte 0, FHS_ID (ADDH). -/
  fhsId : Byte
  /-- Byte 1, FHSS_NUMS (ADDL). -/
  fhssNums : Byte
  /-- Byte 2, SPED: parity 7:6, baud index 5:3, air-rate index 2:0 (R78). -/
  sped : Byte
  /-- Byte 3, CHAN. -/
  chan : Byte
  /-- Byte 4, OPTION: I/O drive 6, pull-up 5, FEC 2, power index 1:0 (R80). -/
  option : Byte
  deriving DecidableEq, Repr

/-- The all-zero image. -/
def Image.zero : Image := ⟨0, 0, 0, 0, 0⟩

/-- The image as a byte sequence, index 0 first (`20_memory.md` R57). -/
def Image.bytes (g : Image) : List Byte := [g.fhsId, g.fhssNums, g.sped, g.chan, g.option]

/-- The four raw bytes of a read-version response, the contents of VER[0..3] (`10_state.md` R21). -/
structure Version where
  v0 : Byte
  v1 : Byte
  v2 : Byte
  v3 : Byte
  deriving DecidableEq, Repr

/-- The all-zero version buffer. -/
def Version.zero : Version := ⟨0, 0, 0, 0⟩

/-- The version buffer as a byte sequence, VER[0] first. -/
def Version.bytes (v : Version) : List Byte := [v.v0, v.v1, v.v2, v.v3]

/-- The instructions: every row of `spec/opcode_table.json`. A host command is what the checklist calls an
instruction (R70); the wire frames are the steps a protocol command sends and parses (log entry 3). -/
inductive Instr where
  /-- REQ_READ_CONFIG: the TRIPLE request 0xC1 (R73). -/
  | reqReadConfig
  /-- REQ_READ_VERSION: the TRIPLE request 0xC3. -/
  | reqReadVersion
  /-- REQ_RESET: the TRIPLE request 0xC4. -/
  | reqReset
  /-- REQ_READ_RSSI: the TRIPLE request 0xC5. -/
  | reqReadRssi
  /-- REQ_WRITE_PERSISTENT: the WRITE request 0xC0 with its image (R74). -/
  | reqWritePersistent (image : Image)
  /-- REQ_WRITE_VOLATILE: the WRITE request 0xC2 with its image. -/
  | reqWriteVolatile (image : Image)
  /-- RSP_CFG: the read-config response, header 0xC0 and the image (R75). -/
  | rspCfg (image : Image)
  /-- RSP_VER: the read-version response, four raw bytes, no header. -/
  | rspVer (version : Version)
  /-- RSP_RSSI: the read-RSSI response, header 0xC5, RSSI, noise floor. -/
  | rspRssi (rssi noise : Byte)
  /-- BEGIN baud, code 0x01 (R202). -/
  | begin (baud : BitVec 32)
  /-- ENTER_CONFIG, code 0x02 (R134). -/
  | enterConfig
  /-- ENTER_NORMAL, code 0x03 (R135). -/
  | enterNormal
  /-- SET_FHS_ID v, code 0x10 (R101). -/
  | setFhsId (v : BitVec 8)
  /-- SET_FHSS_NUMS v, code 0x11 (R102). -/
  | setFhssNums (v : BitVec 8)
  /-- SET_PARITY v, code 0x12 (R103). -/
  | setParity (v : BitVec 2)
  /-- SET_BAUD v, code 0x13 (R104). -/
  | setBaud (v : BitVec 3)
  /-- SET_AIR_RATE v, code 0x14 (R105). -/
  | setAirRate (v : BitVec 3)
  /-- SET_CHANNEL v, code 0x15 (R106). -/
  | setChannel (v : BitVec 8)
  /-- SET_POWER v, code 0x16 (R107). -/
  | setPower (v : BitVec 2)
  /-- SET_FEC v, code 0x17 (R108). -/
  | setFec (v : BitVec 1)
  /-- SET_PULLUP v, code 0x18 (R109). -/
  | setPullup (v : BitVec 1)
  /-- SET_IO_MODE v, code 0x19 (R110). -/
  | setIoMode (v : BitVec 1)
  /-- SET_SPED v, code 0x1A (R111). -/
  | setSped (v : BitVec 8)
  /-- SET_OPTION v, code 0x1B (R112). -/
  | setOption (v : BitVec 8)
  /-- GET_CONFIG_RAW, code 0x1C (R113). -/
  | getConfigRaw
  /-- READ_CONFIG, code 0x20 (R157). -/
  | readConfig
  /-- READ_VERSION, code 0x21 (R161). -/
  | readVersion
  /-- READ_RSSI, code 0x22 (R163). -/
  | readRssi
  /-- RESET_MODULE, code 0x23 (R166). -/
  | resetModule
  /-- WRITE_PERSISTENT, code 0x24 (R180). -/
  | writePersistent
  /-- WRITE_VOLATILE, code 0x25 (R181). -/
  | writeVolatile
  /-- PRINT_CONFIG, code 0x30 (R204). -/
  | printConfig
  deriving DecidableEq, Repr

end Sys2Proof
end

