-- ==== Sys2Proof/WellFormed.lean ====
section
/-! DEFINITION. Which instructions a block with given parameters has. The operand widths of `30_encoding.md`
R87 are in the types of `Instr`'s constructors ("a value too wide for the field" cannot be presented, R81), so
what is left to check is the one row the table makes conditional, and the operand whose width is a parameter. -/

namespace Sys2Proof

/-- BEGIN's operand has BAUD_W bits (`00_scope.md` R5, `44_lifecycle_diagnostics.md` R202): no bit of `arg` above
them is 1 (`30_encoding.md` R90 (b)). -/
def baudFits (c : Config) (baud : BitVec 32) : Bool := baud >>> c.baudW == 0

/-- `30_encoding.md` R90 (a) and the table's "condition": PRINT_CONFIG exists only when HAS_DIAG_DECODE. R90 (b):
BEGIN has an operand of BAUD_W bits. -/
def Instr.wellFormed (c : Config) : Instr → Bool
  | .reqReadConfig | .reqReadVersion | .reqReset | .reqReadRssi => true
  | .reqWritePersistent _ | .reqWriteVolatile _ => true
  | .rspCfg _ | .rspVer _ | .rspRssi _ _ => true
  | .begin baud => baudFits c baud
  | .enterConfig | .enterNormal => true
  | .setFhsId _ | .setFhssNums _ | .setChannel _ => true
  | .setParity _ | .setBaud _ | .setAirRate _ => true
  | .setPower _ | .setFec _ | .setPullup _ | .setIoMode _ => true
  | .setSped _ | .setOption _ | .getConfigRaw => true
  | .readConfig | .readVersion | .readRssi | .resetModule => true
  | .writePersistent | .writeVolatile => true
  | .printConfig => c.hasDiagDecode

end Sys2Proof
end

