-- ==== Sys2Proof/Decode.lean ====
section
/-! DEFINITION. Encodings (`30_encoding.md`): the host command word HC, the wire requests and the wire
responses; a decoder total on any bits, and the encoder written from the same tables. A frame carries its
direction, because the table gives two rows the same bits (REQ_WRITE_PERSISTENT and RSP_CFG; REQ_READ_RSSI is a
value of RSP_RSSI) and only the direction tells them apart (R70, R75; log entry 4). -/

namespace Sys2Proof

/-- The words of an instruction, with the channel they travel on. -/
inductive Frame where
  /-- Host to block: one 40-bit command word (R85). -/
  | host (w : HostWord)
  /-- Block to module: the bytes of a request, first transmitted first (R71). -/
  | request (bytes : List Byte)
  /-- Module to block: the bytes of a response, first received first (R75). -/
  | response (bytes : List Byte)
  deriving DecidableEq, Repr

/-! ## The host command word -/

/-- A host command word from its code and its operand (R85). -/
def hostWord (code : Byte) (arg : BitVec 32) : HostWord := code ++ arg

/-- Bits 39:32 of a host command word (R85). -/
def codeOf (w : HostWord) : Byte := w.extractLsb' 32 8

/-- Bits 31:0 of a host command word (R85). -/
def argOf (w : HostWord) : BitVec 32 := w.extractLsb' 0 32

/-- The operand of width `n` in the low bits of `arg`; none when a bit of `arg` above it is 1 (R90 (b)). -/
def operand (n : Nat) (arg : BitVec 32) : Option (BitVec n) :=
  if arg >>> n = 0 then some (arg.setWidth n) else none

/-- A command with no operand: none when any bit of `arg` is 1 (R90 (b)). -/
def noOperand (arg : BitVec 32) (i : Instr) : Option Instr :=
  if arg = 0 then some i else none

/-- PRINT_CONFIG's code is in the table only when HAS_DIAG_DECODE (R90 (a)). -/
def printOperand (c : Config) (arg : BitVec 32) : Option Instr :=
  if c.hasDiagDecode then noOperand arg .printConfig else none

/-- BEGIN's operand is as wide as the parameter BAUD_W says (R87, R90 (b)). -/
def beginOperand (c : Config) (arg : BitVec 32) : Option Instr :=
  if baudFits c arg then some (.begin arg) else none

/-- The host commands by their codes (R86); none for a refused word (R90). -/
def decodeHost (c : Config) (w : HostWord) : Option Instr :=
  let arg := argOf w
  match (codeOf w).toNat with
  | 0x01 => beginOperand c arg
  | 0x02 => noOperand arg .enterConfig
  | 0x03 => noOperand arg .enterNormal
  | 0x10 => (operand 8 arg).map .setFhsId
  | 0x11 => (operand 8 arg).map .setFhssNums
  | 0x12 => (operand 2 arg).map .setParity
  | 0x13 => (operand 3 arg).map .setBaud
  | 0x14 => (operand 3 arg).map .setAirRate
  | 0x15 => (operand 8 arg).map .setChannel
  | 0x16 => (operand 2 arg).map .setPower
  | 0x17 => (operand 1 arg).map .setFec
  | 0x18 => (operand 1 arg).map .setPullup
  | 0x19 => (operand 1 arg).map .setIoMode
  | 0x1A => (operand 8 arg).map .setSped
  | 0x1B => (operand 8 arg).map .setOption
  | 0x1C => noOperand arg .getConfigRaw
  | 0x20 => noOperand arg .readConfig
  | 0x21 => noOperand arg .readVersion
  | 0x22 => noOperand arg .readRssi
  | 0x23 => noOperand arg .resetModule
  | 0x24 => noOperand arg .writePersistent
  | 0x25 => noOperand arg .writeVolatile
  | 0x30 => printOperand c arg
  | _ => none

/-! ## The wire frames -/

/-- The request a byte sequence sent by the block is: three copies of one of the four opcodes (R73), or 0xC0
or 0xC2 and an image (R74). -/
def decodeRequest : List Byte → Option Instr
  | [a, b, c] =>
    if a = b ∧ b = c then
      if a = 0xC1 then some .reqReadConfig
      else if a = 0xC3 then some .reqReadVersion
      else if a = 0xC4 then some .reqReset
      else if a = 0xC5 then some .reqReadRssi
      else none
    else none
  | [op, a, b, c, d, e] =>
    if op = 0xC0 then some (.reqWritePersistent ⟨a, b, c, d, e⟩)
    else if op = 0xC2 then some (.reqWriteVolatile ⟨a, b, c, d, e⟩)
    else none
  | _ => none

/-- The response a received byte sequence is (R75): six bytes headed 0xC0, four raw bytes, or three headed
0xC5. Any other header is a protocol mismatch and has no meaning (R83). -/
def decodeResponse : List Byte → Option Instr
  | [h, a, b, c, d, e] => if h = 0xC0 then some (.rspCfg ⟨a, b, c, d, e⟩) else none
  | [a, b, c, d] => some (.rspVer ⟨a, b, c, d⟩)
  | [h, r, n] => if h = 0xC5 then some (.rspRssi r n) else none
  | _ => none

/-- The decoder: total on any frame of any channel. -/
def decode (c : Config) : Frame → Option Instr
  | .host w => decodeHost c w
  | .request bs => decodeRequest bs
  | .response bs => decodeResponse bs

/-! ## The encoder -/

/-- The words of an instruction, from the tables of R72 to R75 and R86. -/
def encode : Instr → Frame
  | .reqReadConfig => .request [0xC1, 0xC1, 0xC1]
  | .reqReadVersion => .request [0xC3, 0xC3, 0xC3]
  | .reqReset => .request [0xC4, 0xC4, 0xC4]
  | .reqReadRssi => .request [0xC5, 0xC5, 0xC5]
  | .reqWritePersistent g => .request (0xC0 :: g.bytes)
  | .reqWriteVolatile g => .request (0xC2 :: g.bytes)
  | .rspCfg g => .response (0xC0 :: g.bytes)
  | .rspVer v => .response v.bytes
  | .rspRssi r n => .response [0xC5, r, n]
  | .begin baud => .host (hostWord 0x01 baud)
  | .enterConfig => .host (hostWord 0x02 0)
  | .enterNormal => .host (hostWord 0x03 0)
  | .setFhsId v => .host (hostWord 0x10 (v.setWidth 32))
  | .setFhssNums v => .host (hostWord 0x11 (v.setWidth 32))
  | .setParity v => .host (hostWord 0x12 (v.setWidth 32))
  | .setBaud v => .host (hostWord 0x13 (v.setWidth 32))
  | .setAirRate v => .host (hostWord 0x14 (v.setWidth 32))
  | .setChannel v => .host (hostWord 0x15 (v.setWidth 32))
  | .setPower v => .host (hostWord 0x16 (v.setWidth 32))
  | .setFec v => .host (hostWord 0x17 (v.setWidth 32))
  | .setPullup v => .host (hostWord 0x18 (v.setWidth 32))
  | .setIoMode v => .host (hostWord 0x19 (v.setWidth 32))
  | .setSped v => .host (hostWord 0x1A (v.setWidth 32))
  | .setOption v => .host (hostWord 0x1B (v.setWidth 32))
  | .getConfigRaw => .host (hostWord 0x1C 0)
  | .readConfig => .host (hostWord 0x20 0)
  | .readVersion => .host (hostWord 0x21 0)
  | .readRssi => .host (hostWord 0x22 0)
  | .resetModule => .host (hostWord 0x23 0)
  | .writePersistent => .host (hostWord 0x24 0)
  | .writeVolatile => .host (hostWord 0x25 0)
  | .printConfig => .host (hostWord 0x30 0)

/-! ## The words of `spec/opcode_table.json` -/

/-- The `n` bytes of a wire row's number, most significant byte first: the table writes the first transmitted
byte leftmost (R77). -/
def wireBytes : Nat → Nat → List Byte
  | 0, _ => []
  | n + 1, w => BitVec.ofNat 8 (w >>> (8 * n)) :: wireBytes n w

/-- What the decoder reads from a word numbered as the table numbers it: 40 bits are a host command word, any
other length a wire frame, tried as a request and then as a response (log entry 4). -/
def decodeTableWord (nbits w : Nat) : Option Instr :=
  if nbits = 40 then
    if w < 2 ^ 40 then decode .reference (.host (BitVec.ofNat 40 w)) else none
  else if w < 2 ^ nbits ∧ nbits % 8 = 0 then
    match decode .reference (.request (wireBytes (nbits / 8) w)) with
    | some i => some i
    | none => decode .reference (.response (wireBytes (nbits / 8) w))
  else none

end Sys2Proof
end

