-- ==== Sys2Proof/Machine/State.lean ====
section
/-! DEFINITION. The state of the block as plain data: every register of `10_state.md`, and what the block's
collaborators hold (`20_memory.md` R40): the RX queue, the AUX level, the clock, the script of what the
environment will do, the host's pending inputs, and the trace of events. -/

namespace Sys2Proof.Machine

/-! ## Names of fixed sets -/

/-- The outcome kinds a command can end with (`10_state.md` R18, `60_exceptions.md` R220). -/
inductive CmdResult where
  /-- Success; for a write-verify, Verified. -/
  | ok
  /-- Response shorter than required after the settle delay (R222). -/
  | insufficientData
  /-- Header byte does not match (R223). -/
  | protocolMismatch
  /-- Write read-back differs from the intended image (R225). -/
  | verificationMismatch
  deriving DecidableEq, Repr

/-- The diagnostic kinds of `60_exceptions.md` R224. -/
inductive DiagKind where
  | timeout
  | insufficientData
  | protocolMismatch
  | verificationMismatch
  deriving DecidableEq, Repr

/-- The diagnostic labels of `60_exceptions.md` R224. -/
inductive Label where
  | config
  | normal
  | readConfig
  | readVersion
  | readRssi
  | writePersistent
  | writeVolatile
  deriving DecidableEq, Repr

/-- The index space of the register image (`20_memory.md` R40, `10_state.md` R10). -/
inductive CfgIndex where
  | fhsId
  | fhssNums
  | sped
  | chan
  | option
  deriving DecidableEq, Repr

/-- The ten bit-fields of `30_encoding.md` R78 to R80, one per field setter (R87). -/
inductive Field where
  | fhsId
  | fhssNums
  | parity
  | baudIndex
  | airRate
  | channel
  | power
  | fec
  | pullup
  | ioMode
  deriving DecidableEq, Repr

/-- The triple-byte requests (R73). -/
inductive TripleOp where
  | readConfig
  | readVersion
  | reset
  | readRssi
  deriving DecidableEq, Repr

/-- The write requests (R74). -/
inductive WriteOp where
  | persistent
  | volatile
  deriving DecidableEq, Repr

/-- The wire requests of R72. -/
inductive Request where
  | triple (op : TripleOp)
  | write (op : WriteOp)
  deriving DecidableEq, Repr

/-- The wire responses of R75. -/
inductive Reply where
  | cfg
  | ver
  | rssi
  deriving DecidableEq, Repr

/-- The settle sleeps of `60_exceptions.md` R235 other than the one after an M0 drive. -/
inductive Delay where
  | response
  | reset
  | writePersistent
  | writeVolatile
  deriving DecidableEq, Repr

/-- What a command does in the phase Local, in one step and with no wait (`10_state.md` R16). R16's table gives this
phase to the register accessors; that BEGIN and PRINT_CONFIG, for which no rule names a phase, run in it too is a
DESIGN CHOICE (log entry 23). -/
inductive LocalOp where
  /-- A field setter: the field and the zero-extended operand (R81). -/
  | setField (f : Field) (v : Byte)
  /-- A full-byte override (R111, R112). -/
  | setByte (i : CfgIndex) (v : Byte)
  /-- GET_CONFIG_RAW (R113). -/
  | readRaw
  /-- BEGIN (R202); its phase is log entry 23. -/
  | transportBegin (baud : BitVec 32)
  /-- PRINT_CONFIG (R204); its phase is log entry 23. -/
  | printConfig
  deriving DecidableEq, Repr

/-- The phases of `10_state.md` R16, each with what the pseudocode of its command gives it. -/
inductive Phase where
  | localStep (op : LocalOp)
  | configEnter
  | drainPre
  | send (r : Request)
  | delay (d : Delay)
  | normalBarrier
  /-- The label is the one of the failure diagnostic, which the phase ends with (log entry 23); none inside a
  write-verify (R184). -/
  | parseResponse (k : Reply) (label : Option Label)
  | drainPost
  /-- The label is the one of the failure diagnostic, which the phase ends with (log entry 23). -/
  | compare (label : Label)
  | normalExit
  | done
  deriving DecidableEq, Repr

/-! ## What passes between the block and its surroundings -/

/-- Parity as PRINT_CONFIG decodes it (`44_lifecycle_diagnostics.md` R205). -/
inductive Parity where
  | p8N1
  | p8O1
  | p8E1
  deriving DecidableEq, Repr

/-- The decode of a register image PRINT_CONFIG emits (R204 to R209). -/
structure Decoded where
  parity : Parity
  /-- Bits per second (R209). -/
  baudBps : Nat
  /-- Kbps; none for the indices 4 to 7, which have no decode (R207, U2). -/
  airRateKbps : Option Nat
  freqKHz : Nat
  powerDbm : Nat
  fec : Bool
  pullup : Bool
  /-- I/O drive mode: true push-pull, false open-drain. -/
  pushPull : Bool
  deriving DecidableEq, Repr

/-- The trace events of `00_scope.md` R8 and R9. `print` and `refused` are the model's own: what PRINT_CONFIG
sends to the sink (R204), and the `rsp_valid` pulse with `rsp_refused` = 1 (R42). `done` is the other
`rsp_valid` pulse. -/
inductive Event where
  | m0 (level : Bool)
  | sleep (ms : Nat)
  | aux (level : Bool)
  | tx (b : Byte)
  | avail (n : Nat)
  | rx (b : Byte)
  | diag (kind : DiagKind) (label : Label)
  | begin (baud : BitVec 32)
  | print (d : Decoded)
  | done (result : CmdResult)
  | refused
  deriving DecidableEq, Repr

/-- What the environment does up to the moment a primitive, the step of a phase Local, or Done acts
(`20_memory.md` R56, R60; log entry 15). -/
structure Tick where
  /-- Milliseconds that pass; with `rst`, those until the reset. -/
  dt : Nat
  /-- The level of the `aux_in` pin, held long enough to pass the synchroniser. -/
  aux : Bool
  /-- Bytes the module appends to the RX queue, oldest first. -/
  rx : List Byte
  /-- `rst` = 1 at a rising clock edge (`70_reset_and_hazards.md` R252). -/
  rst : Bool
  deriving DecidableEq, Repr

/-- What a host does at the command port and the reset pin while the block is idle. -/
inductive HostInput where
  /-- Presents a command word (`cmd_valid` = 1, `cmd_word`). -/
  | word (w : HostWord)
  /-- Asserts `rst`. -/
  | reset
  deriving DecidableEq, Repr

/-- The two-flop synchroniser of `10_state.md` R25. -/
structure AuxSync where
  first : Bool
  second : Bool
  deriving DecidableEq, Repr

/-! ## Stops -/

/-- Why a step ends without a next state. -/
inductive Fault where
  /-- DRAIN never returns: the module feeds the RX queue for ever (`42_command_framer.md` R151, R263, U12).
  Raised by DRAIN alone, in every command that drains. Safe: the hardware reaches no further state either. -/
  | drainNeverReturns
  /-- `RxRead()` with nothing available (`20_memory.md` R48, R49, U5). Raised by RxRead. Safe; after BEGIN
  no step reaches it, and a statement says so. -/
  | rxReadUnavailable
  deriving DecidableEq, Repr

/-- Instructions without a meaning; none is left. -/
inductive Refusal where
  /-- Raised only by an arm of exec for an instruction the model gives no meaning to; no arm does. Safe. -/
  | notModelled (mnemonic : String)
  deriving DecidableEq, Repr

/-! ## State -/

/-- The state: registers of the block first, then what its surroundings hold. -/
structure State where
  /-- CFG[0..4], the register image (R10). -/
  cfg : Image
  /-- M0, the mode line; true is 1, config mode (R15). -/
  m0 : Bool
  /-- SEQ as the continuation of the pseudocode: the phases left, empty for Idle (R16). -/
  seq : List Phase
  /-- OP, the command in progress (`10_state.md` section 1). -/
  op : Option Instr
  /-- The `outcome` of the command in progress (`60_exceptions.md` R228). -/
  outcome : CmdResult
  /-- INTENDED[0..4], the write-verify snapshot (R17). -/
  intended : Image
  /-- STATUS (R18). -/
  status : BitVec 3
  /-- TMO (R19). -/
  tmo : Bool
  /-- RESULT_VALID (R20). -/
  resultValid : Bool
  /-- VER[0..3] (R21). -/
  ver : Version
  /-- RSSI (R22). -/
  rssi : Byte
  /-- NOISE (R22). -/
  noise : Byte
  /-- BAUD (R23), zero-extended from BAUD_W bits (log entry 12). -/
  baud : BitVec 32
  /-- T0 (R24). -/
  t0 : Millis
  /-- AUX_SYNC (R25). -/
  auxSync : AuxSync
  /-- The RX queue, oldest byte first (`20_memory.md` R47, R50); the transport's. -/
  rx : List Byte
  /-- The level of the `aux_in` pin (R52); the module's. -/
  aux : Bool
  /-- `now_ms` (R53); the clock's. -/
  now : Millis
  /-- What the environment does at the coming primitives, one entry each (`Tick`); when it has run out, nothing
  more happens but `flood` (log entry 6). -/
  script : List Tick
  /-- Bytes the module appends before every primitive once `script` has run out; empty unless the module sends
  for ever (R263). -/
  flood : List Byte
  /-- What the host does next, in order (`20_memory.md` R41, `30_encoding.md` R88). -/
  hostInputs : List HostInput
  /-- The events so far, oldest first (`00_scope.md` R9). -/
  trace : List Event
  /-- The parameters of `00_scope.md` R5; never written. -/
  config : Config
  deriving DecidableEq, Repr

/-- The machine right after reset (`10_state.md` R28, `70_reset_and_hazards.md` R250). T0 and `outcome` are
DESIGN CHOICE 0 and ok (log entries 1, 9); everything from `rx` on belongs to the surroundings, which the
block's reset does not touch (R253), and is DESIGN CHOICE (log entry 2). -/
def State.reset : State where
  cfg := .zero
  m0 := false
  seq := []
  op := none
  outcome := .ok
  intended := .zero
  status := 0
  tmo := false
  resultValid := false
  ver := .zero
  rssi := 0
  noise := 0
  baud := 0
  t0 := 0
  auxSync := ⟨false, false⟩
  rx := []
  aux := false
  now := 0
  script := []
  flood := []
  hostInputs := []
  trace := []
  config := .reference

end Sys2Proof.Machine
end

