-- ==== Sys2Proof/Machine/Operands.lean ====
section
/-! DEFINITION. Operand forms: the bytes and bit-fields of the register image (`30_encoding.md` R78 to R82),
their assembly (R81), and the decode tables PRINT_CONFIG uses (`44_lifecycle_diagnostics.md` R205 to R209). -/

namespace Sys2Proof.Machine

/-! ## Bytes of the image -/

/-- Reads byte `i` of an image (R10). -/
def imageGet (g : Image) : CfgIndex → Byte
  | .fhsId => g.fhsId
  | .fhssNums => g.fhssNums
  | .sped => g.sped
  | .chan => g.chan
  | .option => g.option

/-- Writes byte `i` of an image and leaves the other four. -/
def imageSet (g : Image) (i : CfgIndex) (v : Byte) : Image :=
  match i with
  | .fhsId => { g with fhsId := v }
  | .fhssNums => { g with fhssNums := v }
  | .sped => { g with sped := v }
  | .chan => { g with chan := v }
  | .option => { g with option := v }

/-! ## Bit-fields -/

/-- The byte a field stands in (R78 to R80). -/
def fieldIndex : Field → CfgIndex
  | .fhsId => .fhsId
  | .fhssNums => .fhssNums
  | .parity => .sped
  | .baudIndex => .sped
  | .airRate => .sped
  | .channel => .chan
  | .power => .option
  | .fec => .option
  | .pullup => .option
  | .ioMode => .option

/-- The lowest bit of a field in its byte (R78 to R80). -/
def fieldLo : Field → Nat
  | .fhsId => 0
  | .fhssNums => 0
  | .parity => 6
  | .baudIndex => 3
  | .airRate => 0
  | .channel => 0
  | .power => 0
  | .fec => 2
  | .pullup => 5
  | .ioMode => 6

/-- The width of a field, which is its setter's operand width (R87). -/
def fieldWidth : Field → Nat
  | .fhsId => 8
  | .fhssNums => 8
  | .parity => 2
  | .baudIndex => 3
  | .airRate => 3
  | .channel => 8
  | .power => 2
  | .fec => 1
  | .pullup => 1
  | .ioMode => 1

/-- R81: `mask = ((1 << w) - 1) << lo`, 8 bits. -/
def fieldMask (f : Field) : Byte := BitVec.ofNat 8 ((2 ^ fieldWidth f - 1) <<< fieldLo f)

/-- R81: `(old & ~mask) | ((v << lo) & mask)`, with `v` already zero-extended to 8 bits. -/
def fieldInsert (f : Field) (old v : Byte) : Byte :=
  (old &&& ~~~fieldMask f) ||| ((v <<< fieldLo f) &&& fieldMask f)

/-- The slice of a byte a field occupies, in the low bits (R114: a host extracts a field with the slices of
R78 to R80). -/
def fieldExtract (f : Field) (b : Byte) : Byte := (b &&& fieldMask f) >>> fieldLo f

/-- Reads a field of an image. -/
def fieldGet (g : Image) (f : Field) : Byte := fieldExtract f (imageGet g (fieldIndex f))

/-- The read-modify-write of a field setter (R13, R81). -/
def fieldSet (g : Image) (f : Field) (v : Byte) : Image :=
  imageSet g (fieldIndex f) (fieldInsert f (imageGet g (fieldIndex f)) v)

/-! ## Decode tables -/

/-- R205: parity from SPED[7:6]; 0b11 duplicates 0b00. -/
def decodeParity (v : Byte) : Parity :=
  if v = 1 then .p8O1 else if v = 2 then .p8E1 else .p8N1

/-- R209: baud from SPED[5:3]. Indices 1, 2, 4, 5, 6 are PRESUMED, from general knowledge (G1, log entry 11). -/
def decodeBaud (v : Byte) : Nat :=
  match v.toNat with
  | 0 => 1200
  | 1 => 2400
  | 2 => 4800
  | 3 => 9600
  | 4 => 19200
  | 5 => 38400
  | 6 => 57600
  | _ => 115200

/-- R207: air rate in Kbps from SPED[2:0]; the indices 4 to 7 have no decode (U2). -/
def decodeAirRate (v : Byte) : Option Nat :=
  match v.toNat with
  | 0 => some 16
  | 1 => some 32
  | 2 => some 64
  | 3 => some 128
  | _ => none

/-- R206: `FREQ_KHZ(CHAN) = 425000 + 500 * CHAN`, exact for every CHAN. -/
def freqKHz (chan : Byte) : Nat := 425000 + 500 * chan.toNat

/-- R208: power in dBm from OPTION[1:0]. -/
def decodePower (v : Byte) : Nat :=
  match v.toNat with
  | 0 => 30
  | 1 => 27
  | 2 => 24
  | _ => 21

/-- The decode of an image by R205 to R209. -/
def decodeImage (g : Image) : Decoded where
  parity := decodeParity (fieldGet g .parity)
  baudBps := decodeBaud (fieldGet g .baudIndex)
  airRateKbps := decodeAirRate (fieldGet g .airRate)
  freqKHz := freqKHz (fieldGet g .channel)
  powerDbm := decodePower (fieldGet g .power)
  fec := fieldGet g .fec == 1
  pullup := fieldGet g .pullup == 1
  pushPull := fieldGet g .ioMode == 1

end Sys2Proof.Machine
end

