-- ==== Sys2Proof/Machine/Flags.lean ====
section
/-! DEFINITION. The result flags STATUS, TMO, RESULT_VALID (`10_state.md` R18 to R20), the numeric codes of
outcomes and diagnostics (R18, `60_exceptions.md` R224), what acceptance, completion and refusal do to the
flags, and the outputs a host reads (`20_memory.md` R41 to R43). -/

namespace Sys2Proof.Machine

/-- The STATUS codes of R18. -/
def CmdResult.code : CmdResult → BitVec 3
  | .ok => 0
  | .insufficientData => 1
  | .protocolMismatch => 2
  | .verificationMismatch => 3

/-- The diagnostic kind of a failed outcome; none for success (R224). -/
def CmdResult.diagKind : CmdResult → Option DiagKind
  | .ok => none
  | .insufficientData => some .insufficientData
  | .protocolMismatch => some .protocolMismatch
  | .verificationMismatch => some .verificationMismatch

/-- `diag_kind[2:0]` (R224). -/
def DiagKind.code : DiagKind → BitVec 3
  | .timeout => 0
  | .insufficientData => 1
  | .protocolMismatch => 2
  | .verificationMismatch => 3

/-- `diag_label[3:0]` (R224). -/
def Label.code : Label → BitVec 4
  | .config => 0
  | .normal => 1
  | .readConfig => 2
  | .readVersion => 3
  | .readRssi => 4
  | .writePersistent => 5
  | .writeVolatile => 6

/-- Appends an event to the trace (R9). -/
def emit (e : Event) (s : State) : State := { s with trace := s.trace ++ [e] }

/-- Acceptance of a command: TMO and RESULT_VALID are cleared, OP takes the command, and the outcome starts at
OK (R19, R20, `42_command_framer.md` R154). -/
def accept (i : Instr) (s : State) : State :=
  { s with op := some i, outcome := .ok, tmo := false, resultValid := false }

/-- The phase Done: STATUS takes the outcome's code, RESULT_VALID is set and `rsp_valid` pulses (R18, R20,
`20_memory.md` R42). -/
def finish (s : State) : State :=
  emit (.done s.outcome) { s with status := s.outcome.code, resultValid := true }

/-- `SEQ <- Idle`; no command is then in progress (R16). -/
def toIdle (s : State) : State := { s with seq := [], op := none }

/-- A refused command word (`30_encoding.md` R90): `rsp_valid` pulses with `rsp_refused` = 1 and no register changes.
R90 allows RESULT_VALID to change; R20 lets only a Done phase set it and only an accepted command clear it, so it
stays (DEDUCED, log entry 10). -/
def refuseWord (s : State) : State := emit .refused s

/-! ## Outputs -/

/-- `cmd_ready` = (SEQ = Idle) (R41). -/
def State.cmdReady (s : State) : Bool := s.seq.isEmpty

/-- `cfg_image[39:0]`, byte `i` at bits 8i+7:8i (R43). -/
def State.cfgImage (s : State) : BitVec 40 :=
  s.cfg.option ++ s.cfg.chan ++ s.cfg.sped ++ s.cfg.fhssNums ++ s.cfg.fhsId

/-- `ver_buf[31:0]`, byte `i` at bits 8i+7:8i (R43). -/
def State.verBuf (s : State) : BitVec 32 := s.ver.v3 ++ s.ver.v2 ++ s.ver.v1 ++ s.ver.v0

/-- What the host sees with an `rsp_valid` pulse (R42). -/
structure Response where
  status : BitVec 3
  timeout : Bool
  refused : Bool
  deriving DecidableEq, Repr

/-- The events of a step, from the state before it and the state after it. -/
def newEvents (before after : State) : List Event := after.trace.drop before.trace.length

/-- The `rsp_valid` pulse of a step with the `rsp_*` pins (R42): there is one exactly when the step itself ended in
Done or in a refusal, and none after a reset, in a command a reset cut, or in an idle step. -/
def response (before after : State) : Option Response :=
  match (newEvents before after).getLast? with
  | some (.done _) => some ⟨after.status, after.tmo, false⟩
  | some .refused => some ⟨after.status, after.tmo, true⟩
  | _ => none

/-- The bytes an event puts on the TX stream (R45). -/
def Event.txByte : Event → List Byte
  | .tx b => [b]
  | _ => []

/-- The level an event drives M0 to (R51). -/
def Event.m0Level : Event → List Bool
  | .m0 l => [l]
  | _ => []

/-- The diagnostic an event is (R55). -/
def Event.diagnostic : Event → List (DiagKind × Label)
  | .diag k l => [(k, l)]
  | _ => []

/-- The byte an event takes off the RX queue (R48). -/
def Event.rxByte : Event → List Byte
  | .rx b => [b]
  | _ => []

/-- The events whose order is contractual whatever the environment does (`00_scope.md` R9): what the block drives,
sends and sleeps, and the completion. -/
def Event.isDriven : Event → Bool
  | .m0 _ => true
  | .sleep _ => true
  | .tx _ => true
  | .done _ => true
  | .aux _ => false
  | .avail _ => false
  | .rx _ => false
  | .diag _ _ => false
  | .begin _ => false
  | .print _ => false
  | .refused => false

/-- The TX stream of a trace (R45). -/
def txStream (tr : List Event) : List Byte := tr.flatMap Event.txByte

/-- The M0 events of a trace (`42_command_framer.md` R168). -/
def m0Events (tr : List Event) : List Bool := tr.flatMap Event.m0Level

/-- The bytes a trace takes off the RX queue (R48). -/
def rxStream (tr : List Event) : List Byte := tr.flatMap Event.rxByte

/-- The M0, SLEEP, TX and DONE events of a trace, in order (`00_scope.md` R9). -/
def driven (tr : List Event) : List Event := tr.filter Event.isDriven

/-- The diagnostics of a trace (R55). -/
def diagnostics (tr : List Event) : List (DiagKind × Label) := tr.flatMap Event.diagnostic

/-- A trace reports a timeout: what TMO says of a command (`10_state.md` R19, `60_exceptions.md` R221). -/
def hasTimeout (tr : List Event) : Bool := (diagnostics tr).any fun d => d.1 == .timeout

end Sys2Proof.Machine
end

