-- ==== Sys2Proof/Machine/Ops.lean ====
section
/-! DEFINITION. The named operations: the environment and its ticks, the primitives of `00_scope.md` R8, the
sub-sequences WAIT_AUX, ENTER_CONFIG, ENTER_NORMAL, DRAIN, SEND and PARSE, the failure exit, the phases, and the
sequencer that runs a command's phases to Idle. -/

namespace Sys2Proof.Machine

/-! ## Results of an operation -/

/-- How an operation inside a command ends: with a value and a state; cut by a reset (`70_reset_and_hazards.md`
R252); or not at all. -/
inductive Flow (α : Type) where
  | ret (a : α) (s : State)
  | cut (s : State)
  | halt (f : Fault)

/-- One operation after another (`20_memory.md` R60); a cut or a halt ends the command. -/
def Flow.bind {α β : Type} (x : Flow α) (f : α → State → Flow β) : Flow β :=
  match x with
  | .ret a s => f a s
  | .cut s => .cut s
  | .halt r => .halt r

/-- A command's end as the outcome of a step. -/
def Flow.toOutcome (x : Flow Unit) : Host.Outcome State Fault Refusal :=
  match x with
  | .ret _ s => .next s
  | .cut s => .next s
  | .halt r => .fault r

/-! ## Reset of the block -/

/-- Reset (R250, R252): every register of the block takes its reset value, whatever phase was running; what the
surroundings hold stays (R253), and so do the parameters. -/
def blockReset (s : State) : State :=
  { State.reset with
    rx := s.rx, aux := s.aux, now := s.now, script := s.script, flood := s.flood
    hostInputs := s.hostInputs, trace := s.trace, config := s.config }

/-! ## The environment -/

/-- One clock edge of the synchroniser (`10_state.md` R25). -/
def AuxSync.clock (y : AuxSync) (pin : Bool) : AuxSync := ⟨pin, y.first⟩

/-- The pin has held a level for two clock edges or more (log entry 7). -/
def settleAux (pin : Bool) (s : State) : State :=
  { s with aux := pin, auxSync := (s.auxSync.clock pin).clock pin }

/-- The head of the script has happened: `ms` milliseconds have passed, the module has moved AUX and appended
bytes. -/
def spend (t : Tick) (ms : Nat) (s : State) : State :=
  settleAux t.aux
    { s with script := s.script.tail, rx := s.rx ++ t.rx, now := s.now + BitVec.ofNat 64 ms }

/-- What the environment does before a primitive acts, or before the step of Local or Done, during at least `ms`
milliseconds (R56, R60). A reset cuts the command at once (`70_reset_and_hazards.md` R252): also when less than `ms`
milliseconds have passed, so a Sleep can be cut at any moment. When the script has run out, AUX holds and only
`flood` is appended (log entry 6). -/
def advance (ms : Nat) (s : State) : Flow Unit :=
  match s.script with
  | [] =>
    .ret () (settleAux s.aux { s with rx := s.rx ++ s.flood, now := s.now + BitVec.ofNat 64 ms })
  | t :: _ => if t.rst then .cut (blockReset (spend t t.dt s)) else .ret () (spend t (max ms t.dt) s)

/-! ## Primitives -/

/-- `M0 <- l` (`20_memory.md` R51). -/
def driveM0 (l : Bool) (s : State) : Flow Unit :=
  (advance 0 s).bind fun _ s => .ret () (emit (.m0 l) { s with m0 := l })

/-- `AuxRead()` (R52): the second stage of AUX_SYNC (R25). -/
def auxRead (s : State) : Flow Bool :=
  (advance 0 s).bind fun _ s => .ret s.auxSync.second (emit (.aux s.auxSync.second) s)

/-- `Sleep(n)` (R54): T0 <- Now(), then at least `n` milliseconds pass. The event stands at the end, so a Sleep that a
reset cuts leaves none (DESIGN CHOICE, log entry 16). -/
def sleep (n : Nat) (s : State) : Flow Unit :=
  (advance n { s with t0 := s.now }).bind fun _ s => .ret () (emit (.sleep n) s)

/-- `TxByte(b)` (R45). -/
def txByte (b : Byte) (s : State) : Flow Unit :=
  (advance 0 s).bind fun _ s => .ret () (emit (.tx b) s)

/-- `TxBlock(bs)` (R46): the bytes in order, with no other primitive between them. -/
def txBytes : List Byte → State → Flow Unit
  | [], s => .ret () s
  | b :: bs, s => (txByte b s).bind fun _ s => txBytes bs s

/-- The count port: the queue's length, saturating at 2^RXCOUNT_W - 1 (R47). -/
def rxCount (s : State) : Nat := min s.rx.length (2 ^ s.config.rxCountW - 1)

/-- `RxAvail()` (R47). -/
def rxAvail (s : State) : Flow Nat :=
  (advance 0 s).bind fun _ s => .ret (rxCount s) (emit (.avail (rxCount s)) s)

/-- `RxRead()` (R48): removes and returns the oldest byte; undefined, and so a fault, when there is none (U5). -/
def rxRead (s : State) : Flow Byte :=
  (advance 0 s).bind fun _ s =>
    match s.rx with
    | [] => .halt .rxReadUnavailable
    | b :: bs => .ret b (emit (.rx b) { s with rx := bs })

/-- `Diag(kind, label)` (R55). -/
def diag (k : DiagKind) (l : Label) (s : State) : Flow Unit :=
  (advance 0 s).bind fun _ s => .ret () (emit (.diag k l) s)

/-! ## Mode control (`41_mode_control.md`) -/

/-- `(Now() - T0) mod 2^64` (`60_exceptions.md` R236). -/
def elapsed (s : State) : Nat := (s.now - s.t0).toNat

/-- The timed-out end of WAIT_AUX: the diagnostic, then TMO (R131). -/
def auxTimeout (l : Label) (s : State) : Flow Unit :=
  (diag .timeout l s).bind fun _ s => .ret () { s with tmo := true }

/-- The polls of WAIT_AUX (R131): AUX is sampled before the time is compared. The first argument counts the
ticks the script still holds; past them AUX holds, and if it is low the clock reaches the bound (log entry 6). -/
def pollAux (l : Label) : Nat → State → Flow Unit
  | 0, s =>
    (auxRead s).bind fun v s =>
      if v then .ret () s
      else auxTimeout l { s with now := s.now + BitVec.ofNat 64 (s.config.auxTimeoutMs - elapsed s) }
  | n + 1, s =>
    (auxRead s).bind fun v s =>
      if v then .ret () s
      else if s.config.auxTimeoutMs ≤ elapsed s then auxTimeout l s
      else pollAux l n s

/-- WAIT_AUX(label) (R131): T0 <- Now(), then the polls. -/
def waitAux (l : Label) (s : State) : Flow Unit :=
  pollAux l s.script.length { s with t0 := s.now }

/-- ENTER_CONFIG (R134). -/
def enterConfig (s : State) : Flow Unit :=
  (driveM0 true s).bind fun _ s =>
    (sleep s.config.modeSettleMs s).bind fun _ s => waitAux .config s

/-- ENTER_NORMAL (R135). -/
def enterNormal (s : State) : Flow Unit :=
  (driveM0 false s).bind fun _ s =>
    (sleep s.config.modeSettleMs s).bind fun _ s => waitAux .normal s

/-! ## The command framer (`42_command_framer.md`) -/

/-- The bytes the script still delivers. -/
def scriptBytes (ts : List Tick) : Nat := (ts.map fun t => t.rx.length).sum

/-- DRAIN's loop (R150), at most `fuel` reads. -/
def drainLoop : Nat → State → Flow Unit
  | 0, _ => .halt .drainNeverReturns
  | fuel + 1, s =>
    (rxAvail s).bind fun n s =>
      if n = 0 then .ret () s else (rxRead s).bind fun _ s => drainLoop fuel s

/-- DRAIN (R150). It can read each byte in the queue and each byte the script still delivers; a loop that wants
more is fed by `flood` for ever and never returns (R151, R263). -/
def drain (s : State) : Flow Unit := drainLoop (s.rx.length + scriptBytes s.script + 1) s

/-- The opcode of a triple-byte request (R72). -/
def TripleOp.code : TripleOp → Byte
  | .readConfig => 0xC1
  | .readVersion => 0xC3
  | .reset => 0xC4
  | .readRssi => 0xC5

/-- The opcode of a write request (R72). -/
def WriteOp.code : WriteOp → Byte
  | .persistent => 0xC0
  | .volatile => 0xC2

/-- The three TxByte of SEND_TRIPLE (R152); its drain is the phase before. -/
def sendTriple (op : TripleOp) (s : State) : Flow Unit := txBytes [op.code, op.code, op.code] s

/-- SEND_WRITE(op, img) (R153). -/
def sendWrite (op : WriteOp) (g : Image) (s : State) : Flow Unit := txBytes (op.code :: g.bytes) s

/-- The request of a phase Send; a write sends INTENDED (R74, `43_write_verify.md` R182). -/
def send (r : Request) (s : State) : Flow Unit :=
  match r with
  | .triple op => sendTriple op s
  | .write op => sendWrite op s.intended s

/-- PARSE_CFG (R158). -/
def parseCfg (s : State) : Flow CmdResult :=
  (rxAvail s).bind fun n s =>
    if n < 6 then .ret .insufficientData s
    else (rxRead s).bind fun h s =>
      if h ≠ 0xC0 then .ret .protocolMismatch s
      else (rxRead s).bind fun b1 s => (rxRead s).bind fun b2 s => (rxRead s).bind fun b3 s =>
        (rxRead s).bind fun b4 s => (rxRead s).bind fun b5 s =>
          .ret .ok { s with cfg := ⟨b1, b2, b3, b4, b5⟩ }

/-- PARSE_VER (R162). -/
def parseVer (s : State) : Flow CmdResult :=
  (rxAvail s).bind fun n s =>
    if n < 4 then .ret .insufficientData s
    else (rxRead s).bind fun b0 s => (rxRead s).bind fun b1 s => (rxRead s).bind fun b2 s =>
      (rxRead s).bind fun b3 s => .ret .ok { s with ver := ⟨b0, b1, b2, b3⟩ }

/-- PARSE_RSSI (R164). -/
def parseRssi (s : State) : Flow CmdResult :=
  (rxAvail s).bind fun n s =>
    if n < 3 then .ret .insufficientData s
    else (rxRead s).bind fun h s =>
      if h ≠ 0xC5 then .ret .protocolMismatch s
      else (rxRead s).bind fun r s => (rxRead s).bind fun n s =>
        .ret .ok { s with rssi := r, noise := n }

/-- The parse of the response a phase waits for. -/
def parse (k : Reply) (s : State) : Flow CmdResult :=
  match k with
  | .cfg => parseCfg s
  | .ver => parseVer s
  | .rssi => parseRssi s

/-! ## Taking a failure and the way out (`60_exceptions.md` R228) -/

/-- `raise <Kind>`: the command's outcome becomes `r`, and a failure is reported under the label; the command
then goes on with its epilogue (R228). Nothing is saved and control goes nowhere else. -/
def settleOutcome (r : CmdResult) (l : Option Label) (s : State) : Flow Unit :=
  match r.diagKind, l with
  | some k, some l => diag k l { s with outcome := r }
  | _, _ => .ret () { s with outcome := r }

/-- ParseResponse: the parse, and the failure diagnostic of a stand-alone read (R154, R184). R154 puts the diagnostic
first in the epilogue and R16's table gives it no phase; that it is emitted at the end of ParseResponse is a DESIGN
CHOICE (log entry 23). -/
def parseResponse (k : Reply) (l : Option Label) (s : State) : Flow Unit :=
  (parse k s).bind fun r s => settleOutcome r l s

/-- S12 Compare (`43_write_verify.md` R180, R185): a failed read keeps its kind; else all 40 bits are compared. -/
def compareOutcome (s : State) : CmdResult :=
  if s.outcome ≠ .ok then s.outcome
  else if s.cfg = s.intended then .ok
  else .verificationMismatch

/-- S12 and S13: the comparison and the one failure diagnostic (R187). That S13, for which R16's table has no phase,
runs at the end of Compare is a DESIGN CHOICE (log entry 23). -/
def compareImages (l : Label) (s : State) : Flow Unit := settleOutcome (compareOutcome s) (some l) s

/-! ## Phases -/

/-- The duration of a settle sleep (`60_exceptions.md` R235). -/
def Delay.millis (c : Config) : Delay → Nat
  | .response => c.respSettleMs
  | .reset => c.resetSettleMs
  | .writePersistent => c.writeSettlePMs
  | .writeVolatile => c.writeSettleVMs

/-- The one step of the phase Local; BEGIN and PRINT_CONFIG run in it by log entry 23. -/
def localEffect (op : LocalOp) (s : State) : State :=
  match op with
  | .setField f v => { s with cfg := fieldSet s.cfg f v }
  | .setByte i v => { s with cfg := imageSet s.cfg i v }
  | .readRaw => s
  | .transportBegin b => emit (.begin b) { s with baud := b }
  | .printConfig => emit (.print (decodeImage s.cfg)) s

/-- What happens in a phase (`10_state.md` R16). Local and Done wait for nothing, but a reset can fall on them
(`70_reset_and_hazards.md` R252), and the environment moves on while they act (log entry 15). -/
def runPhase (p : Phase) (s : State) : Flow Unit :=
  match p with
  | .localStep op => (advance 0 s).bind fun _ s => .ret () (localEffect op s)
  | .configEnter => enterConfig s
  | .drainPre => drain s
  | .send r => send r s
  | .delay d => sleep (d.millis s.config) s
  | .normalBarrier => enterNormal s
  | .parseResponse k l => parseResponse k l s
  | .drainPost => drain s
  | .compare l => compareImages l s
  | .normalExit => enterNormal s
  | .done => (advance 0 s).bind fun _ s => .ret () (finish s)

/-- The sequencer: the phases in order, then Idle (R16, R232). -/
def runSeq : List Phase → State → Flow Unit
  | [], s => .ret () (toIdle s)
  | p :: ps, s => (runPhase p { s with seq := p :: ps }).bind fun _ s => runSeq ps s

/-- A host command: it is accepted and its phases run to Idle before another can be (`20_memory.md` R41). -/
def runCommand (i : Instr) (prog : List Phase) (s : State) : Host.Outcome State Fault Refusal :=
  (runSeq prog (accept i s)).toOutcome

/-- A part of a command that the table lists as a row of its own: its phases, then Idle (log entry 3). -/
def runPart (prog : List Phase) (s : State) : Host.Outcome State Fault Refusal :=
  (runSeq prog s).toOutcome

end Sys2Proof.Machine
end

