-- ==== Sys2Proof/Machine/Accessors.lean ====
section
/-! DEFINITION. Register accessors (`40_register_accessors.md`): ten field setters, two full-byte overrides, the raw
read. Each runs in the phase Local and then Done, with no primitive of `00_scope.md` R8 (R100). -/

namespace Sys2Proof.Machine

/-- SET_FHS_ID v: `CFG[0] <- v` (R101). -/
def execSetFhsId (v : BitVec 8) (s : State) : Host.Outcome State Fault Refusal :=
  runCommand (.setFhsId v) [.localStep (.setField .fhsId v), .done] s

/-- SET_FHSS_NUMS v: `CFG[1] <- v` (R102). -/
def execSetFhssNums (v : BitVec 8) (s : State) : Host.Outcome State Fault Refusal :=
  runCommand (.setFhssNums v) [.localStep (.setField .fhssNums v), .done] s

/-- SET_PARITY v: SPED[7:6] <- v (R103). -/
def execSetParity (v : BitVec 2) (s : State) : Host.Outcome State Fault Refusal :=
  runCommand (.setParity v) [.localStep (.setField .parity (v.setWidth 8)), .done] s

/-- SET_BAUD v: SPED[5:3] <- v; BAUD is not touched (R104). -/
def execSetBaud (v : BitVec 3) (s : State) : Host.Outcome State Fault Refusal :=
  runCommand (.setBaud v) [.localStep (.setField .baudIndex (v.setWidth 8)), .done] s

/-- SET_AIR_RATE v: SPED[2:0] <- v, also for v in 4..7 (R105). -/
def execSetAirRate (v : BitVec 3) (s : State) : Host.Outcome State Fault Refusal :=
  runCommand (.setAirRate v) [.localStep (.setField .airRate (v.setWidth 8)), .done] s

/-- SET_CHANNEL v: `CFG[3] <- v`, also above 0x33 (R106). -/
def execSetChannel (v : BitVec 8) (s : State) : Host.Outcome State Fault Refusal :=
  runCommand (.setChannel v) [.localStep (.setField .channel v), .done] s

/-- SET_POWER v: OPTION[1:0] <- v (R107). -/
def execSetPower (v : BitVec 2) (s : State) : Host.Outcome State Fault Refusal :=
  runCommand (.setPower v) [.localStep (.setField .power (v.setWidth 8)), .done] s

/-- SET_FEC v: OPTION[2] <- v (R108). -/
def execSetFec (v : BitVec 1) (s : State) : Host.Outcome State Fault Refusal :=
  runCommand (.setFec v) [.localStep (.setField .fec (v.setWidth 8)), .done] s

/-- SET_PULLUP v: OPTION[5] <- v, a plain storage bit of the block (R109). -/
def execSetPullup (v : BitVec 1) (s : State) : Host.Outcome State Fault Refusal :=
  runCommand (.setPullup v) [.localStep (.setField .pullup (v.setWidth 8)), .done] s

/-- SET_IO_MODE v: OPTION[6] <- v (R110). -/
def execSetIoMode (v : BitVec 1) (s : State) : Host.Outcome State Fault Refusal :=
  runCommand (.setIoMode v) [.localStep (.setField .ioMode (v.setWidth 8)), .done] s

/-- SET_SPED v: `CFG[2] <- v`, sibling fields and all (R111). -/
def execSetSped (v : BitVec 8) (s : State) : Host.Outcome State Fault Refusal :=
  runCommand (.setSped v) [.localStep (.setByte .sped v), .done] s

/-- SET_OPTION v: `CFG[4] <- v` (R112). -/
def execSetOption (v : BitVec 8) (s : State) : Host.Outcome State Fault Refusal :=
  runCommand (.setOption v) [.localStep (.setByte .option v), .done] s

/-- GET_CONFIG_RAW: the image is delivered on `cfg_image` (`State.cfgImage`); nothing but the result flags
changes (R113). -/
def execGetConfigRaw (s : State) : Host.Outcome State Fault Refusal :=
  runCommand .getConfigRaw [.localStep .readRaw, .done] s

/-- The pseudo-command CONFIGURE of `30_encoding.md` R89, as the commands it stands for. -/
def configure (fhs nums : Byte) (parity : BitVec 2) (baud air : BitVec 3) (chan : Byte) (power : BitVec 2)
    (fec : BitVec 1) : List Instr :=
  [.setFhsId fhs, .setFhssNums nums, .setParity parity, .setBaud baud, .setAirRate air, .setChannel chan,
    .setPower power, .setFec fec]

end Sys2Proof.Machine
end

