-- ==== Sys2Proof/Machine/Framer.lean ====
section
/-! DEFINITION. Command framer (`42_command_framer.md`): the stand-alone protocol commands, each in the shape of
R154: ENTER_CONFIG, drain, request, settle, parse with its failure diagnostic, drain, ENTER_NORMAL, Done. -/

namespace Sys2Proof.Machine

/-- READ_CONFIG (R157): request 0xC1, response RSP_CFG into CFG. -/
def execReadConfig (s : State) : Host.Outcome State Fault Refusal :=
  runCommand .readConfig
    [.configEnter, .drainPre, .send (.triple .readConfig), .delay .response,
      .parseResponse .cfg (some .readConfig), .drainPost, .normalExit, .done] s

/-- READ_VERSION (R161): request 0xC3, response RSP_VER into VER. -/
def execReadVersion (s : State) : Host.Outcome State Fault Refusal :=
  runCommand .readVersion
    [.configEnter, .drainPre, .send (.triple .readVersion), .delay .response,
      .parseResponse .ver (some .readVersion), .drainPost, .normalExit, .done] s

/-- READ_RSSI (R163): request 0xC5, response RSP_RSSI into RSSI and NOISE. -/
def execReadRssi (s : State) : Host.Outcome State Fault Refusal :=
  runCommand .readRssi
    [.configEnter, .drainPre, .send (.triple .readRssi), .delay .response,
      .parseResponse .rssi (some .readRssi), .drainPost, .normalExit, .done] s

/-- RESET_MODULE (R166): request 0xC4, no response parsed, success assumed. -/
def execResetModule (s : State) : Host.Outcome State Fault Refusal :=
  runCommand .resetModule
    [.configEnter, .drainPre, .send (.triple .reset), .delay .reset, .drainPost, .normalExit, .done] s

end Sys2Proof.Machine
end

