-- ==== Sys2Proof/Machine/Lifecycle.lean ====
section
/-! DEFINITION. Lifecycle and diagnostics (`44_lifecycle_diagnostics.md`): BEGIN and PRINT_CONFIG. INIT is no command
(R200): it is the wiring and the reset. -/

namespace Sys2Proof.Machine

/-- BEGIN baud (R202): BAUD takes the operand and it is forwarded to the transport, nothing else. A word whose
operand is wider than BAUD_W is refused (`30_encoding.md` R90). That BEGIN runs in the phase Local is a DESIGN
CHOICE (log entry 23). -/
def execBegin (baud : BitVec 32) (s : State) : Host.Outcome State Fault Refusal :=
  if baudFits s.config baud then runCommand (.begin baud) [.localStep (.transportBegin baud), .done] s
  else .next (refuseWord s)

/-- PRINT_CONFIG (R204): the decode of the local image goes to the sink. Without HAS_DIAG_DECODE the command
does not exist and its word is refused (`30_encoding.md` R90). That it runs in the phase Local is a DESIGN CHOICE
(log entry 23). -/
def execPrintConfig (s : State) : Host.Outcome State Fault Refusal :=
  if s.config.hasDiagDecode then runCommand .printConfig [.localStep .printConfig, .done] s
  else .next (refuseWord s)

end Sys2Proof.Machine
end

