-- ==== Sys2Proof/Machine/ModeControl.lean ====
section
/-! DEFINITION. Mode control (`41_mode_control.md`): ENTER_CONFIG and ENTER_NORMAL as host commands (R130). The
sub-sequences stand in Ops. -/

namespace Sys2Proof.Machine

/-- ENTER_CONFIG: M0 <- 1, settle, WAIT_AUX; a timeout changes TMO and the trace only (R133, R134). -/
def execEnterConfig (s : State) : Host.Outcome State Fault Refusal :=
  runCommand .enterConfig [.configEnter, .done] s

/-- ENTER_NORMAL: M0 <- 0, settle, WAIT_AUX (R135). -/
def execEnterNormal (s : State) : Host.Outcome State Fault Refusal :=
  runCommand .enterNormal [.normalExit, .done] s

end Sys2Proof.Machine
end

