-- ==== Sys2Proof/Machine/Wire.lean ====
section
/-! DEFINITION. The wire frames as rows of the table (`30_encoding.md` R71 to R76): a request is the part of a command
that sends it, SEND_TRIPLE with its drain (`42_command_framer.md` R152) or SEND_WRITE (R153); a response is the
part that parses it from the head of the RX queue (R158, R162, R164). Log entry 3. -/

namespace Sys2Proof.Machine

/-- REQ_READ_CONFIG: SEND_TRIPLE(0xC1) (R152). -/
def execReqReadConfig (s : State) : Host.Outcome State Fault Refusal :=
  runPart [.drainPre, .send (.triple .readConfig)] s

/-- REQ_READ_VERSION: SEND_TRIPLE(0xC3). -/
def execReqReadVersion (s : State) : Host.Outcome State Fault Refusal :=
  runPart [.drainPre, .send (.triple .readVersion)] s

/-- REQ_RESET: SEND_TRIPLE(0xC4). -/
def execReqReset (s : State) : Host.Outcome State Fault Refusal :=
  runPart [.drainPre, .send (.triple .reset)] s

/-- REQ_READ_RSSI: SEND_TRIPLE(0xC5). -/
def execReqReadRssi (s : State) : Host.Outcome State Fault Refusal :=
  runPart [.drainPre, .send (.triple .readRssi)] s

/-- The phase Send of a write frame with a given image, then Idle. -/
def runWriteFrame (op : WriteOp) (g : Image) (s : State) : Host.Outcome State Fault Refusal :=
  ((sendWrite op g { s with seq := [.send (.write op)] }).bind fun _ s => .ret () (toIdle s)).toOutcome

/-- REQ_WRITE_PERSISTENT with its image: SEND_WRITE(0xC0, image) (R153). In a command the image is INTENDED. -/
def execReqWritePersistent (image : Image) (s : State) : Host.Outcome State Fault Refusal :=
  runWriteFrame .persistent image s

/-- REQ_WRITE_VOLATILE with its image: SEND_WRITE(0xC2, image). -/
def execReqWriteVolatile (image : Image) (s : State) : Host.Outcome State Fault Refusal :=
  runWriteFrame .volatile image s

/-- The parse of a response that stands at the head of the RX queue; the parse takes it off again (R76). -/
def runResponse (k : Reply) (bytes : List Byte) (s : State) : Host.Outcome State Fault Refusal :=
  runPart [.parseResponse k none] { s with rx := bytes ++ s.rx }

/-- RSP_CFG: PARSE_CFG of a frame with header 0xC0; its five bytes become CFG (R158). -/
def execRspCfg (image : Image) (s : State) : Host.Outcome State Fault Refusal :=
  runResponse .cfg (0xC0 :: image.bytes) s

/-- RSP_VER: PARSE_VER; the four bytes become VER (R162). -/
def execRspVer (version : Version) (s : State) : Host.Outcome State Fault Refusal :=
  runResponse .ver version.bytes s

/-- RSP_RSSI: PARSE_RSSI of a frame with header 0xC5; the two bytes become RSSI and NOISE (R164). -/
def execRspRssi (rssi noise : Byte) (s : State) : Host.Outcome State Fault Refusal :=
  runResponse .rssi [0xC5, rssi, noise] s

end Sys2Proof.Machine
end

