-- ==== Sys2Proof/Machine/WriteVerify.lean ====
section
/-! DEFINITION. Write-verify (`43_write_verify.md`): the snapshot S1 is taken before the first phase (R182, R192);
the phases are S2 to S14 of R180, and S6 is the volatile path's barrier (R183). -/

namespace Sys2Proof.Machine

/-- S1: INTENDED <- CFG (R180, R182). R16's table has no phase for S1; that it goes with the acceptance is a DESIGN
CHOICE (log entry 23). -/
def snapshot (s : State) : State := { s with intended := s.cfg }

/-- WRITE_PERSISTENT (R180). -/
def execWritePersistent (s : State) : Host.Outcome State Fault Refusal :=
  runCommand .writePersistent
    [.configEnter, .drainPre, .send (.write .persistent), .delay .writePersistent,
      .configEnter, .drainPre, .send (.triple .readConfig), .delay .response,
      .parseResponse .cfg none, .drainPost, .compare .writePersistent, .normalExit, .done] (snapshot s)

/-- WRITE_VOLATILE (R181): opcode 0xC2, the volatile settle delay, and the normal-mode barrier S6. -/
def execWriteVolatile (s : State) : Host.Outcome State Fault Refusal :=
  runCommand .writeVolatile
    [.configEnter, .drainPre, .send (.write .volatile), .delay .writeVolatile, .normalBarrier,
      .configEnter, .drainPre, .send (.triple .readConfig), .delay .response,
      .parseResponse .cfg none, .drainPost, .compare .writeVolatile, .normalExit, .done] (snapshot s)

end Sys2Proof.Machine
end

