-- ==== Sys2Proof/Machine/Dispatch.lean ====
section
/-! DEFINITION. `exec`: one arm per row of `spec/opcode_table.json`. -/

namespace Sys2Proof.Machine

/-- The meaning of an instruction. -/
def exec (i : Instr) (s : State) : Host.Outcome State Fault Refusal :=
  match i with
  | .reqReadConfig => Sys2Proof.Machine.execReqReadConfig s
  | .reqReadVersion => Sys2Proof.Machine.execReqReadVersion s
  | .reqReset => Sys2Proof.Machine.execReqReset s
  | .reqReadRssi => Sys2Proof.Machine.execReqReadRssi s
  | .reqWritePersistent image => Sys2Proof.Machine.execReqWritePersistent image s
  | .reqWriteVolatile image => Sys2Proof.Machine.execReqWriteVolatile image s
  | .rspCfg image => Sys2Proof.Machine.execRspCfg image s
  | .rspVer version => Sys2Proof.Machine.execRspVer version s
  | .rspRssi rssi noise => Sys2Proof.Machine.execRspRssi rssi noise s
  | .begin baud => Sys2Proof.Machine.execBegin baud s
  | .enterConfig => Sys2Proof.Machine.execEnterConfig s
  | .enterNormal => Sys2Proof.Machine.execEnterNormal s
  | .setFhsId v => Sys2Proof.Machine.execSetFhsId v s
  | .setFhssNums v => Sys2Proof.Machine.execSetFhssNums v s
  | .setParity v => Sys2Proof.Machine.execSetParity v s
  | .setBaud v => Sys2Proof.Machine.execSetBaud v s
  | .setAirRate v => Sys2Proof.Machine.execSetAirRate v s
  | .setChannel v => Sys2Proof.Machine.execSetChannel v s
  | .setPower v => Sys2Proof.Machine.execSetPower v s
  | .setFec v => Sys2Proof.Machine.execSetFec v s
  | .setPullup v => Sys2Proof.Machine.execSetPullup v s
  | .setIoMode v => Sys2Proof.Machine.execSetIoMode v s
  | .setSped v => Sys2Proof.Machine.execSetSped v s
  | .setOption v => Sys2Proof.Machine.execSetOption v s
  | .getConfigRaw => Sys2Proof.Machine.execGetConfigRaw s
  | .readConfig => Sys2Proof.Machine.execReadConfig s
  | .readVersion => Sys2Proof.Machine.execReadVersion s
  | .readRssi => Sys2Proof.Machine.execReadRssi s
  | .resetModule => Sys2Proof.Machine.execResetModule s
  | .writePersistent => Sys2Proof.Machine.execWritePersistent s
  | .writeVolatile => Sys2Proof.Machine.execWriteVolatile s
  | .printConfig => Sys2Proof.Machine.execPrintConfig s

end Sys2Proof.Machine
end

