-- ==== Sys2Proof/Machine/Fetch.lean ====
section
/-! DEFINITION. Where the next instruction stands. A host command word is at the command port (`20_memory.md` R41);
a wire request or response is where the sequencer stands, a request in the phase Send and a response at the
head of the RX queue in the phase ParseResponse (log entries 3, 5). -/

namespace Sys2Proof.Machine

/-- What a step finds. -/
inductive Fetched where
  /-- Idle, and a command word that is not refused was accepted; the state has it taken from the port. -/
  | run (i : Instr) (s : State)
  /-- Idle, and a refused word was accepted (`30_encoding.md` R90). -/
  | refuse (s : State)
  /-- Idle, and the host asserts `rst`. -/
  | reset (s : State)
  /-- Idle, and the host presents nothing. -/
  | wait
  /-- Busy: `cmd_ready` = 0 and no word is taken (R41). -/
  | resume
  deriving DecidableEq, Repr

/-- What the next step does (R41, R90). -/
def fetch (s : State) : Fetched :=
  match s.seq with
  | _ :: _ => .resume
  | [] =>
    match s.hostInputs with
    | [] => .wait
    | .reset :: rest => .reset { s with hostInputs := rest }
    | .word w :: rest =>
      match decodeHost s.config w with
      | some i => .run i { s with hostInputs := rest }
      | none => .refuse { s with hostInputs := rest }

/-- An idle block does nothing and holds its registers (`60_exceptions.md` R241) while the environment acts. -/
def idleStep (s : State) : Host.Outcome State Fault Refusal := (advance 0 s).toOutcome

/-- A busy block goes on where SEQ stands, to Idle. -/
def resumeStep (s : State) : Host.Outcome State Fault Refusal := (runSeq s.seq s).toOutcome

/-- The state with a wire frame as the next thing the sequencer does; a host command is not a wire frame. -/
def placeFrame (i : Instr) (s : State) : State :=
  match i with
  | .reqReadConfig => { s with seq := [.drainPre, .send (.triple .readConfig)] }
  | .reqReadVersion => { s with seq := [.drainPre, .send (.triple .readVersion)] }
  | .reqReset => { s with seq := [.drainPre, .send (.triple .reset)] }
  | .reqReadRssi => { s with seq := [.drainPre, .send (.triple .readRssi)] }
  | .reqWritePersistent g => { s with seq := [.send (.write .persistent)], intended := g }
  | .reqWriteVolatile g => { s with seq := [.send (.write .volatile)], intended := g }
  | .rspCfg g => { s with seq := [.parseResponse .cfg none], rx := 0xC0 :: g.bytes ++ s.rx }
  | .rspVer v => { s with seq := [.parseResponse .ver none], rx := v.bytes ++ s.rx }
  | .rspRssi r n => { s with seq := [.parseResponse .rssi none], rx := [0xC5, r, n] ++ s.rx }
  | .begin _ | .enterConfig | .enterNormal => s
  | .setFhsId _ | .setFhssNums _ | .setParity _ | .setBaud _ | .setAirRate _ | .setChannel _ => s
  | .setPower _ | .setFec _ | .setPullup _ | .setIoMode _ | .setSped _ | .setOption _ => s
  | .getConfigRaw | .readConfig | .readVersion | .readRssi | .resetModule => s
  | .writePersistent | .writeVolatile | .printConfig => s

/-- The state with a word of the table, numbered as the table numbers it, as the next instruction: 40 bits are
a command word the host presents to an idle block, any other length a wire frame. -/
def placeWord (s : State) (nbits w : Nat) : State :=
  if nbits = 40 then
    { s with seq := [], op := none, hostInputs := .word (BitVec.ofNat 40 w) :: s.hostInputs }
  else
    match decodeTableWord nbits w with
    | some i => placeFrame i s
    | none => s

end Sys2Proof.Machine
end

