-- ==== Sys2Proof/Machine/Step.lean ====
section
/-! DEFINITION. One step of the machine, and where its next instruction stands. In Idle the block takes the host's
next input: a command word at the command port, or a reset; a busy block takes no word and goes on where SEQ
stands (`20_memory.md` R41). -/

namespace Sys2Proof.Machine

/-- One step: a command to its end (`20_memory.md` R41: "a call returns only when the operation has finished"). -/
def step (s : State) : Host.Outcome State Fault Refusal :=
  match fetch s with
  | .run i s => exec i s
  | .refuse s => .next (refuseWord s)
  | .reset s => .next (blockReset s)
  | .wait => idleStep s
  | .resume => resumeStep s

/-- `s` with a row of the table stored where `step` fetches (`placeWord`). -/
def State.withFetchWord (s : State) (nbits w : Nat) : State := placeWord s nbits w

end Sys2Proof.Machine
end

