-- ==== Sys2Proof/Safety.lean ====
section
/-! DEFINITION. The terms claims are made in: an environment that neither resets a running command nor feeds
the block for ever; the discipline of the wire; the invariant of the block between commands. -/

namespace Sys2Proof.Machine

/-- No tick to come asserts `rst` (`70_reset_and_hazards.md` R252). -/
def State.noReset (s : State) : Bool := s.script.all fun t => !t.rst

/-- The premise R263 asks of every termination claim, that the module sends finitely many bytes; with it, that no
reset cuts the command. -/
def State.undisturbed (s : State) : Bool := s.flood.isEmpty && s.noReset

/-- The block is in Idle and no command is in progress. -/
def State.idle (s : State) : Bool := s.seq.isEmpty && s.op.isNone

/-- The part of the state the environment moves. -/
structure World where
  rx : List Byte
  aux : Bool
  auxSync : AuxSync
  now : Millis
  script : List Tick
  deriving DecidableEq, Repr

/-- `s` after the environment has moved to `w`, T0 holds `t0` and the events `es` have been emitted: every other
register of the block, and everything else in the state, is as in `s`. Frames are stated as equations to
`{ s.moved w t0 es with … }`, which names every register that changes. -/
def State.moved (s : State) (w : World) (t0 : Millis) (es : List Event) : State :=
  { s with
    rx := w.rx, aux := w.aux, auxSync := w.auxSync, now := w.now, script := w.script
    t0 := t0, trace := s.trace ++ es }

/-- `s` at the end of a command that cannot fail and waits for nothing (`10_state.md` R18,
`40_register_accessors.md` R100), while the environment has moved to `w`: STATUS 0, TMO 0, RESULT_VALID 1, Idle,
and the one event `DONE(OK)`. -/
def State.completedOk (w : World) (s : State) : State :=
  { s.moved w s.t0 [.done .ok] with
    seq := [], op := none, outcome := .ok, status := 0, tmo := false, resultValid := true }

/-! ## The boot requirement (`70_reset_and_hazards.md` R254) -/

/-- The event of a BEGIN. -/
def Event.isBegin : Event → Bool
  | .begin _ => true
  | .m0 _ | .sleep _ | .aux _ | .tx _ | .avail _ | .rx _ | .diag _ _ | .print _ | .done _ | .refused => false

/-- BEGIN was issued: the premise of every claim about a protocol operation (R254), because what the transport does
before it is any value (`93_implementation_defined.md` U16) and the model's transport keeps its contract always
(log entry 24). -/
def State.begun (s : State) : Bool := s.trace.any Event.isBegin

/-- The phases that reach the transport. -/
def Phase.usesTransport : Phase → Bool
  | .drainPre | .send _ | .parseResponse _ _ | .drainPost => true
  | .localStep _ | .configEnter | .delay _ | .normalBarrier | .compare _ | .normalExit | .done => false

/-- The rows that reach the transport's byte streams: the wire frames and the six protocol operations. -/
def usesTransport : Instr → Bool
  | .reqReadConfig | .reqReadVersion | .reqReset | .reqReadRssi => true
  | .reqWritePersistent _ | .reqWriteVolatile _ => true
  | .rspCfg _ | .rspVer _ | .rspRssi _ _ => true
  | .readConfig | .readVersion | .readRssi | .resetModule => true
  | .writePersistent | .writeVolatile => true
  | .begin _ | .enterConfig | .enterNormal => false
  | .setFhsId _ | .setFhssNums _ | .setParity _ | .setBaud _ | .setAirRate _ | .setChannel _ => false
  | .setPower _ | .setFec _ | .setPullup _ | .setIoMode _ | .setSped _ | .setOption _ => false
  | .getConfigRaw | .printConfig => false

/-- The next step meets R254: BEGIN was issued, or the step does not reach the transport's byte streams. -/
def State.booted (s : State) : Bool :=
  s.begun ||
    match fetch s with
    | .run i _ => !usesTransport i
    | .resume => !s.seq.any Phase.usesTransport
    | .refuse _ | .reset _ | .wait => true

/-- The field and the zero-extended operand of a field setter (`30_encoding.md` R86, R87). -/
def setterOf : Instr → Option (Field × Byte)
  | .setFhsId v => some (.fhsId, v)
  | .setFhssNums v => some (.fhssNums, v)
  | .setParity v => some (.parity, v.setWidth 8)
  | .setBaud v => some (.baudIndex, v.setWidth 8)
  | .setAirRate v => some (.airRate, v.setWidth 8)
  | .setChannel v => some (.channel, v)
  | .setPower v => some (.power, v.setWidth 8)
  | .setFec v => some (.fec, v.setWidth 8)
  | .setPullup v => some (.pullup, v.setWidth 8)
  | .setIoMode v => some (.ioMode, v.setWidth 8)
  | .setSped _ | .setOption _ | .getConfigRaw => none
  | .reqReadConfig | .reqReadVersion | .reqReset | .reqReadRssi => none
  | .reqWritePersistent _ | .reqWriteVolatile _ => none
  | .rspCfg _ | .rspVer _ | .rspRssi _ _ => none
  | .begin _ | .enterConfig | .enterNormal => none
  | .readConfig | .readVersion | .readRssi | .resetModule => none
  | .writePersistent | .writeVolatile | .printConfig => none

/-- The register accessors (`40_register_accessors.md` R100): the setters, the overrides and GET_CONFIG_RAW, which
emit no event but DONE. -/
def isAccessor : Instr → Bool
  | .setFhsId _ | .setFhssNums _ | .setParity _ | .setBaud _ | .setAirRate _ | .setChannel _ => true
  | .setPower _ | .setFec _ | .setPullup _ | .setIoMode _ | .setSped _ | .setOption _ => true
  | .getConfigRaw => true
  | .reqReadConfig | .reqReadVersion | .reqReset | .reqReadRssi => false
  | .reqWritePersistent _ | .reqWriteVolatile _ => false
  | .rspCfg _ | .rspVer _ | .rspRssi _ _ => false
  | .begin _ | .enterConfig | .enterNormal => false
  | .readConfig | .readVersion | .readRssi | .resetModule => false
  | .writePersistent | .writeVolatile | .printConfig => false

/-- A host command, as opposed to a wire frame (`30_encoding.md` R70, R86). -/
def isHostCommand (i : Instr) : Bool :=
  match encode i with
  | .host _ => true
  | .request _ => false
  | .response _ => false

/-- Instructions one after another, each issued when the one before has completed (`30_encoding.md` R88). -/
def execAll : List Instr → State → Host.Outcome State Fault Refusal
  | [], s => .next s
  | i :: is, s =>
    match exec i s with
    | .next t => execAll is t
    | .fault r => .fault r
    | .refused r => .refused r

/-! ## The events of a wait, a mode transition and a drain -/

/-- The events of one WAIT_AUX that polls low `k` times before its last poll, timed out or ready
(`41_mode_control.md` R131). -/
def waitEvents (l : Label) (k : Nat) (timedOut : Bool) : List Event :=
  List.replicate k (.aux false) ++ if timedOut then [.aux false, .diag .timeout l] else [.aux true]

/-- The events of a mode transition (`41_mode_control.md` R134, R135). -/
def modeEvents (c : Config) (level : Bool) (l : Label) (k : Nat) (timedOut : Bool) : List Event :=
  [.m0 level, .sleep c.modeSettleMs] ++ waitEvents l k timedOut

/-- The events of a DRAIN that discards the bytes of `ps`, each after the count it was found at
(`42_command_framer.md` R150). -/
def drainEvents (ps : List (Nat × Byte)) : List Event :=
  ps.flatMap (fun p => [.avail p.1, .rx p.2]) ++ [.avail 0]

/-- The diagnostics of a trace that report a failure and not a timeout (`60_exceptions.md` R224). -/
def failureDiagnostics (tr : List Event) : List (DiagKind × Label) :=
  (diagnostics tr).filter fun d => d.1 ≠ .timeout

/-- The one failure diagnostic of a command that ends with `r`; none when it succeeds
(`92_eei_decisions.md` D18). -/
def reportOf (r : CmdResult) (l : Label) : List (DiagKind × Label) :=
  (r.diagKind.map fun k => (k, l)).toList

/-! ## An exchange whose answer arrives in time -/

/-- A tick with AUX ready, in which no byte arrives and no reset comes. -/
def Tick.ready (t : Tick) : Bool := t.aux && t.rx.isEmpty && !t.rst

/-- The environment in which AUX is ready and the module sends nothing for `n` primitives, sends `answer` during
the next one (the settle sleep of the exchange), and nothing after it. What the RX queue holds at the start is left
open: the drain before the request takes two primitives for each of those bytes. -/
def State.answeredAfter (s : State) (n : Nat) (answer : List Byte) : Prop :=
  s.flood = [] ∧
    ∃ pre mid post, s.script = pre ++ mid :: post ∧ pre.length = n ∧ pre.all Tick.ready = true ∧
      mid.rx = answer ∧ mid.rst = false ∧ post.all (fun t => t.rx.isEmpty && !t.rst) = true

/-- The bytes a response row puts at the head of the RX queue before it parses them (log entry 3). -/
def placedBytes (i : Instr) : List Byte :=
  match encode i with
  | .response bs => bs
  | .host _ | .request _ => []

/-! ## The discipline of the wire and the invariant -/

/-- The last level M0 was driven to in a trace, from a level before it. -/
def lastLevel : Bool → List Event → Bool
  | l, [] => l
  | _, .m0 l :: es => lastLevel l es
  | l, _ :: es => lastLevel l es

/-- No byte is put on the TX stream but while M0 was last driven to 1 (`60_exceptions.md` R233). -/
def txInConfig : Bool → List Event → Bool
  | _, [] => true
  | _, .m0 l :: es => txInConfig l es
  | l, .tx _ :: es => l && txInConfig l es
  | l, _ :: es => txInConfig l es

/-- Every byte on the TX stream follows another one or a count of 0: a request starts only when a drain has just
found the RX queue empty (`20_memory.md` R61, `42_command_framer.md` R152). The flag says whether a byte may
come next. -/
def txAfterDrain : Bool → List Event → Bool
  | _, [] => true
  | ready, .tx _ :: es => ready && txAfterDrain true es
  | _, .avail n :: es => txAfterDrain (n == 0) es
  | _, _ :: es => txAfterDrain false es

/-- Every byte read off the RX queue is covered by the last count before it: at most `n` reads follow a count of `n`
until the next one, and none comes before the first (`20_memory.md` R49). The number says how many reads may come
next. -/
def rxCounted : Nat → List Event → Bool
  | _, [] => true
  | _, .avail n :: es => rxCounted n es
  | k, .rx _ :: es => k != 0 && rxCounted (k - 1) es
  | k, _ :: es => rxCounted k es

/-- The discipline of the wire over a whole trace. -/
def wireDisciplined (tr : List Event) : Bool := txInConfig false tr && txAfterDrain false tr

/-- The invariant between commands: Idle, STATUS a code R18 gives, and the wire disciplined so far. -/
def State.inv (s : State) : Bool :=
  s.idle && decide (s.status.toNat ≤ 3) && wireDisciplined s.trace

end Sys2Proof.Machine
end

