-- ==== Sys2Proof/Certificates/Slice0/Obligations.lean ====
section
/-! DEFINITION. The statements for the provers. A frame is an equation to a state written from `s`: every
register it does not name is as in `s`. -/

open Sys2Proof Sys2Proof.Machine

/-! ## Encodings -/

/-- Words written out from `30_encoding.md` R73, R74, R75 and R86 decode to the instructions they stand for. The two
words in a block with BAUD_W = 17, one that fits and one that does not decode, show the model's reading of BAUD_W (log
entry 12) and not a sentence of R202. -/
def Obligations.WrittenOutWordsDecode : Prop :=
  decode .reference (.host 0x0100002580#40) = some (.begin 9600) ∧
  decode { Config.reference with baudW := 17 } (.host 0x010001FFFF#40) = some (.begin 0x1FFFF) ∧
  decode { Config.reference with baudW := 17 } (.host 0x0100020000#40) = none ∧
  decode .reference (.host 0x0200000000#40) = some .enterConfig ∧
  decode .reference (.host 0x1200000003#40) = some (.setParity 3) ∧
  decode .reference (.host 0x1200000004#40) = none ∧
  decode .reference (.host 0x1C00000001#40) = none ∧
  decode .reference (.host 0x1D00000000#40) = none ∧
  decode .reference (.host 0x2500000000#40) = some .writeVolatile ∧
  decode .reference (.host 0x3000000000#40) = some .printConfig ∧
  decode { Config.reference with hasDiagDecode := false } (.host 0x3000000000#40) = none ∧
  decode .reference (.request [0xC4, 0xC4, 0xC4]) = some .reqReset ∧
  decode .reference (.request [0xC2, 0x01, 0x0A, 0x1A, 0x10, 0x05]) =
    some (.reqWriteVolatile ⟨0x01, 0x0A, 0x1A, 0x10, 0x05⟩) ∧
  decode .reference (.response [0xC0, 0x01, 0x0A, 0x1A, 0x10, 0x05]) =
    some (.rspCfg ⟨0x01, 0x0A, 0x1A, 0x10, 0x05⟩) ∧
  decode .reference (.response [0xC5, 0x5A, 0x20]) = some (.rspRssi 0x5A 0x20) ∧
  decode .reference (.response [0xC0, 0x5A, 0x20]) = none

/-- A frame decodes to an instruction exactly when it is that instruction's encoding and the block has the
instruction: decode and encode agree on every operand, and no other word decodes. -/
def Obligations.DecodeInvertsEncode : Prop :=
  ∀ (c : Config) (f : Frame) (i : Instr), decode c f = some i ↔ encode i = f ∧ i.wellFormed c = true

/-! ## The step -/

/-- An idle block runs the command word the host presents, with the word taken from the port (R41). -/
def Obligations.StepRunsPresentedCommand : Prop :=
  ∀ (s : State) (w : HostWord) (rest : List HostInput) (i : Instr), s.seq = [] →
    s.hostInputs = .word w :: rest → decode s.config (.host w) = some i →
    step s = exec i { s with hostInputs := rest }

/-- A busy block whose sequencer stands at the send of a request sends it: the step is the meaning of the
request's row. -/
def Obligations.StepSendsRequestAtSequencer : Prop :=
  ∀ (s : State) (g : Image),
    (s.seq = [.drainPre, .send (.triple .readConfig)] → step s = exec .reqReadConfig s) ∧
    (s.seq = [.drainPre, .send (.triple .readVersion)] → step s = exec .reqReadVersion s) ∧
    (s.seq = [.drainPre, .send (.triple .reset)] → step s = exec .reqReset s) ∧
    (s.seq = [.drainPre, .send (.triple .readRssi)] → step s = exec .reqReadRssi s) ∧
    (s.seq = [.send (.write .persistent)] → s.intended = g → step s = exec (.reqWritePersistent g) s) ∧
    (s.seq = [.send (.write .volatile)] → s.intended = g → step s = exec (.reqWriteVolatile g) s)

/-- A busy block whose sequencer stands at a parse, with a response frame at the head of the RX queue, runs the
meaning of the row the frame decodes to, with the frame taken from the queue. -/
def Obligations.StepParsesResponseAtQueueHead : Prop :=
  ∀ (s : State) (frame rest : List Byte) (i : Instr) (k : Reply),
    decode s.config (.response frame) = some i → s.rx = frame ++ rest → s.seq = [.parseResponse k none] →
    (k = .cfg ∧ frame.length = 6 ∨ k = .ver ∧ frame.length = 4 ∨ k = .rssi ∧ frame.length = 3) →
    step s = exec i { s with rx := rest }

/-- R90: a word that is no row's word is taken from the port and completes with `rsp_refused` = 1 and STATUS
unchanged; nothing else changes but RESULT_VALID. -/
def Obligations.RefusedWordChangesNothing : Prop :=
  ∀ (s : State) (w : HostWord) (rest : List HostInput), s.seq = [] → s.hostInputs = .word w :: rest →
    (∀ i, encode i = .host w → i.wellFormed s.config = false) →
    ∃ t v, step s = .next t ∧
      t = { s with hostInputs := rest, resultValid := v, trace := s.trace ++ [.refused] } ∧
      response s t = some ⟨s.status, s.tmo, true⟩

/-- A busy block takes no word from the port, completes the command in progress and is ready again (R41), where BEGIN
was issued (R254). -/
def Obligations.BusyBlockTakesNoWord : Prop :=
  ∀ s : State, s.seq ≠ [] → s.flood = [] → s.booted = true →
    ∃ t, step s = .next t ∧ t.hostInputs = s.hostInputs ∧ t.cmdReady = true

/-- An idle block to which the host presents nothing does nothing and holds all registers and M0 while the
environment acts (R241), with no `rsp_valid` pulse. -/
def Obligations.IdleBlockHoldsRegisters : Prop :=
  ∀ s : State, s.seq = [] → s.hostInputs = [] → s.noReset = true →
    ∃ w, step s = .next (s.moved w s.t0 []) ∧ s.rx <+: w.rx ∧ response s (s.moved w s.t0 []) = none

/-- The parameters are fixed at elaboration: no step of any kind writes one (R256). -/
def Obligations.ParametersAreNeverWritten : Prop :=
  ∀ s t : State, step s = .next t → t.config = s.config

/-- From any state in which BEGIN was issued, or in which the next step does not reach the transport (R254), a step
completes, and leaves the block in Idle, unless the module sends bytes for ever (R151, R263): a word, a reset, an
idle step, or a command in progress at any phase. That BEGIN was issued, and that the module is
not endless, pass on to the next step. -/
def Obligations.EveryStepCompletesUnlessFedForEver : Prop :=
  ∀ s : State, s.flood = [] → s.booted = true →
    ∃ t, step s = .next t ∧ t.cmdReady = true ∧ t.flood = [] ∧ (s.begun = true → t.begun = true)

/-- R49: no step reads from an empty RX queue, from any state in which BEGIN was issued or the next step does not reach
the transport (R254): a transport that was not started may show a count with nothing behind it. What the block does
whatever the transport shows is the next statement. -/
def Obligations.NoStepReadsAnEmptyQueue : Prop :=
  ∀ s : State, s.booted = true → step s ≠ .fault .rxReadUnavailable

/-- R49, of every step from every state, before BEGIN too: the block reads the RX queue only after a count in the same
step, and at most as many bytes as that count said. -/
def Obligations.EveryReadFollowsItsCount : Prop :=
  ∀ s t : State, step s = .next t → rxCounted 0 (newEvents s t) = true

/-- From any state in which BEGIN was issued or the next step does not reach the transport (R254), the only way a step
ends without a next state is a drain that is fed for ever; and no step from any state is refused. -/
def Obligations.OnlyAnEndlessDrainStops : Prop :=
  ∀ s : State,
    (s.booted = true → (∃ t, step s = .next t) ∨ (step s = .fault .drainNeverReturns ∧ s.flood ≠ [])) ∧
    ∀ r, step s ≠ .refused r

/-- After BEGIN (R254), every command that drains never returns when the module sends bytes for ever (R151,
R263). -/
def Obligations.DrainFedForEverNeverReturns : Prop :=
  ∀ (i : Instr) (s : State), s.begun = true → s.script = [] → s.flood ≠ [] → 1 ≤ s.config.rxCountW →
    (i = .reqReadConfig ∨ i = .reqReadVersion ∨ i = .reqReset ∨ i = .reqReadRssi ∨ i = .readConfig ∨
      i = .readVersion ∨ i = .readRssi ∨ i = .resetModule ∨ i = .writePersistent ∨ i = .writeVolatile) →
    exec i s = .fault .drainNeverReturns

/-! ## Reset -/

/-- What reset leaves, by the values R28 states, in the state after reset and after a reset the host asserts while
the block is idle; the surroundings keep what they have, and no `rsp_valid` pulse is given (R250). -/
def Obligations.ResetLeavesTheStatedValues : Prop :=
  ∀ (s : State) (rest : List HostInput), s.seq = [] → s.hostInputs = .reset :: rest →
    ∃ t, step s = .next t ∧
      (∀ u, u = t ∨ u = State.reset →
        u.cfg = ⟨0, 0, 0, 0, 0⟩ ∧ u.m0 = false ∧ u.seq = [] ∧ u.op = none ∧ u.status = 0 ∧ u.tmo = false ∧
        u.resultValid = false ∧ u.ver = ⟨0, 0, 0, 0⟩ ∧ u.rssi = 0 ∧ u.noise = 0 ∧ u.baud = 0 ∧
        u.intended = ⟨0, 0, 0, 0, 0⟩ ∧ u.auxSync = ⟨false, false⟩) ∧
      t.rx = s.rx ∧ t.trace = s.trace ∧ t.aux = s.aux ∧ t.now = s.now ∧ t.script = s.script ∧
      t.flood = s.flood ∧ t.hostInputs = rest ∧ t.config = s.config ∧ response s t = none

/-- R252 on READ_CONFIG: a reset at any of its first eight primitives abandons it at once, with every register at
its reset value (T0 and the outcome at the model's, log entries 1 and 9), no completion, the opcode bytes already
handed to the transport sent, and the RX queue as it stands. -/
def Obligations.ResetAbandonsReadConfig : Prop :=
  ∀ (s : State) (pre : List Tick) (mid : Tick) (post : List Tick), s.begun = true → s.rx = [] →
    s.script = pre ++ mid :: post → pre.length ≤ 7 → pre.all Tick.ready = true → mid.rst = true →
    ∃ (now : Millis) (es : List Event), exec .readConfig s = .next
        { State.reset with
          rx := mid.rx, aux := mid.aux, now := now, script := post, flood := s.flood
          hostInputs := s.hostInputs, trace := s.trace ++ es, config := s.config } ∧
      (∀ r, .done r ∉ es) ∧ txStream es = List.replicate (pre.length - 4) 0xC1

/-- R252 on every instruction, at the first reset the environment brings, in any other respect unconstrained: it cuts
the instruction short, with every register at its reset value (T0 and the outcome at the model's, log entries 1
and 9), no completion and no `rsp_valid` pulse, and every byte that was queued or arrived either taken off the
queue by an RX event or still there; or the instruction had ended before the reset came. -/
def Obligations.ResetAbandonsEveryInstruction : Prop :=
  ∀ (i : Instr) (s : State) (pre : List Tick) (mid : Tick) (post : List Tick),
    (s.begun = true ∨ usesTransport i = false) → s.script = pre ++ mid :: post →
    pre.all (fun t => !t.rst) = true → mid.rst = true →
    (∃ t rx now es, exec i s = .next t ∧
        t = { State.reset with
          rx := rx, aux := mid.aux, now := now, script := post, flood := s.flood
          hostInputs := s.hostInputs, trace := s.trace ++ es, config := s.config } ∧
        placedBytes i ++ s.rx ++ (pre ++ [mid]).flatMap Tick.rx = rxStream es ++ rx ∧
        (∀ r, .done r ∉ es) ∧ response s t = none) ∨
    (∃ t k, exec i s = .next t ∧ k ≤ pre.length ∧ t.script = pre.drop k ++ mid :: post)

/-- R252: a reset in a Sleep cuts the command at once, however little of the Sleep has passed: in the first settle
sleep of every command that begins with a mode transition. The registers are at their reset values (T0 and the outcome
at the model's, log entries 1 and 9), and the clock stands at the moment of the reset. That the trace shows no SLEEP
event for a Sleep that is cut is the model's choice (log entry 16). A protocol operation is taken after BEGIN (R254). -/
def Obligations.ResetCutsASleepAtOnce : Prop :=
  ∀ (s : State) (t1 t2 : Tick) (post : List Tick), s.script = t1 :: t2 :: post → t1.rst = false → t2.rst = true →
    ∀ i level, (i, level) ∈ [(Instr.enterConfig, true), (.enterNormal, false), (.readConfig, true),
        (.readVersion, true), (.readRssi, true), (.resetModule, true), (.writePersistent, true),
        (.writeVolatile, true)] →
      (s.begun = true ∨ usesTransport i = false) →
      exec i s = .next
        { State.reset with
          rx := s.rx ++ t1.rx ++ t2.rx, aux := t2.aux
          now := s.now + BitVec.ofNat 64 t1.dt + BitVec.ofNat 64 t2.dt, script := post, flood := s.flood
          hostInputs := s.hostInputs, trace := s.trace ++ [.m0 level], config := s.config }

/-- R252: what was done before the reset stands, and is what the instruction does without it. Nothing is taken off the
trace; where the reset cuts the instruction (its script is then what follows the reset), the trace has one event more
for each primitive before the cut, none for a register accessor, whose only event is the DONE it does not reach; and
the events are the first events of the run in which that reset does not come. That a Sleep counts as a primitive before
the cut only when it has ended, so that a Sleep the reset cuts leaves no SLEEP event, is the model's choice (log entry
16). A protocol operation or wire row is taken after BEGIN (R254). -/
def Obligations.ResetCutsTheRunShort : Prop :=
  ∀ (i : Instr) (s t : State) (pre : List Tick) (mid : Tick) (post : List Tick),
    (s.begun = true ∨ usesTransport i = false) → s.script = pre ++ mid :: post → pre.all (fun t => !t.rst) = true → mid.rst = true → exec i s = .next t →
    s.trace <+: t.trace ∧
    (t.script = post → (newEvents s t).length = if isAccessor i then 0 else pre.length) ∧
    ∀ u, exec i { s with script := pre ++ { mid with rst := false } :: post } = .next u → t.trace <+: u.trace

/-! ## Register accessors -/

/-- R101, R102, R106: the whole-byte setters. The environment moves to `w` meanwhile. -/
def Obligations.WholeByteSettersStoreTheirOperand : Prop :=
  ∀ s : State, s.noReset = true → ∃ w, s.rx <+: w.rx ∧ ∀ v : BitVec 8,
    decode s.config (.host (0x10#8 ++ 0#24 ++ v)) = some (.setFhsId v) ∧
    exec (.setFhsId v) s = .next (State.completedOk w { s with cfg := { s.cfg with fhsId := v } }) ∧
    decode s.config (.host (0x11#8 ++ 0#24 ++ v)) = some (.setFhssNums v) ∧
    exec (.setFhssNums v) s = .next (State.completedOk w { s with cfg := { s.cfg with fhssNums := v } }) ∧
    decode s.config (.host (0x15#8 ++ 0#24 ++ v)) = some (.setChannel v) ∧
    exec (.setChannel v) s = .next (State.completedOk w { s with cfg := { s.cfg with chan := v } })

/-- R103, R104, R105: the setters of the SPED sub-fields, by their pseudocode. -/
def Obligations.SpedFieldSettersReadModifyWrite : Prop :=
  ∀ s : State, s.noReset = true → ∃ w, s.rx <+: w.rx ∧
    (∀ v : BitVec 2, decode s.config (.host (0x12#8 ++ 0#30 ++ v)) = some (.setParity v) ∧
      exec (.setParity v) s = .next (State.completedOk w
        { s with cfg := { s.cfg with sped := (s.cfg.sped &&& 0x3F) ||| (v.setWidth 8 <<< 6) } })) ∧
    (∀ v : BitVec 3, decode s.config (.host (0x13#8 ++ 0#29 ++ v)) = some (.setBaud v) ∧
      exec (.setBaud v) s = .next (State.completedOk w
        { s with cfg := { s.cfg with sped := (s.cfg.sped &&& 0xC7) ||| (v.setWidth 8 <<< 3) } })) ∧
    (∀ v : BitVec 3, decode s.config (.host (0x14#8 ++ 0#29 ++ v)) = some (.setAirRate v) ∧
      exec (.setAirRate v) s = .next (State.completedOk w
        { s with cfg := { s.cfg with sped := (s.cfg.sped &&& 0xF8) ||| v.setWidth 8 } }))

/-- R107, R108, R109, R110: the setters of the OPTION sub-fields, by their pseudocode. -/
def Obligations.OptionFieldSettersReadModifyWrite : Prop :=
  ∀ s : State, s.noReset = true → ∃ w, s.rx <+: w.rx ∧
    (∀ v : BitVec 2, decode s.config (.host (0x16#8 ++ 0#30 ++ v)) = some (.setPower v) ∧
      exec (.setPower v) s = .next (State.completedOk w
        { s with cfg := { s.cfg with option := (s.cfg.option &&& 0xFC) ||| v.setWidth 8 } })) ∧
    (∀ v : BitVec 1, decode s.config (.host (0x17#8 ++ 0#31 ++ v)) = some (.setFec v) ∧
      exec (.setFec v) s = .next (State.completedOk w
        { s with cfg := { s.cfg with option := (s.cfg.option &&& 0xFB) ||| (v.setWidth 8 <<< 2) } })) ∧
    (∀ v : BitVec 1, decode s.config (.host (0x18#8 ++ 0#31 ++ v)) = some (.setPullup v) ∧
      exec (.setPullup v) s = .next (State.completedOk w
        { s with cfg := { s.cfg with option := (s.cfg.option &&& 0xDF) ||| (v.setWidth 8 <<< 5) } })) ∧
    (∀ v : BitVec 1, decode s.config (.host (0x19#8 ++ 0#31 ++ v)) = some (.setIoMode v) ∧
      exec (.setIoMode v) s = .next (State.completedOk w
        { s with cfg := { s.cfg with option := (s.cfg.option &&& 0xBF) ||| (v.setWidth 8 <<< 6) } }))

/-- R111, R112: the full-byte overrides. -/
def Obligations.OverridesReplaceTheWholeByte : Prop :=
  ∀ s : State, s.noReset = true → ∃ w, s.rx <+: w.rx ∧ ∀ v : BitVec 8,
    decode s.config (.host (0x1A#8 ++ 0#24 ++ v)) = some (.setSped v) ∧
    exec (.setSped v) s = .next (State.completedOk w { s with cfg := { s.cfg with sped := v } }) ∧
    decode s.config (.host (0x1B#8 ++ 0#24 ++ v)) = some (.setOption v) ∧
    exec (.setOption v) s = .next (State.completedOk w { s with cfg := { s.cfg with option := v } })

/-- R113: GET_CONFIG_RAW delivers the local image on `cfg_image` and changes nothing but the result flags. -/
def Obligations.GetConfigRawDeliversTheImage : Prop :=
  ∀ s : State, s.noReset = true →
    decode s.config (.host 0x1C00000000#40) = some .getConfigRaw ∧
    ∃ w, exec .getConfigRaw s = .next (s.completedOk w) ∧ s.rx <+: w.rx ∧
      (s.completedOk w).cfgImage = s.cfg.option ++ s.cfg.chan ++ s.cfg.sped ++ s.cfg.fhssNums ++ s.cfg.fhsId

/-- R43: byte `i` of a view stands at bits 8i+7:8i. -/
def Obligations.ViewsPackByteZeroLow : Prop :=
  ∀ s : State,
    s.cfgImage.extractLsb' 0 8 = s.cfg.fhsId ∧ s.cfgImage.extractLsb' 8 8 = s.cfg.fhssNums ∧
    s.cfgImage.extractLsb' 16 8 = s.cfg.sped ∧ s.cfgImage.extractLsb' 24 8 = s.cfg.chan ∧
    s.cfgImage.extractLsb' 32 8 = s.cfg.option ∧
    s.verBuf.extractLsb' 0 8 = s.ver.v0 ∧ s.verBuf.extractLsb' 8 8 = s.ver.v1 ∧
    s.verBuf.extractLsb' 16 8 = s.ver.v2 ∧ s.verBuf.extractLsb' 24 8 = s.ver.v3

/-- R13: a field setter stores its operand in its field, and no other field, no unnamed bit of OPTION and nothing
but CFG and the result flags changes; and the unnamed bits of OPTION are changed by SET_OPTION and a read-config
parse alone, when no reset cuts the command. -/
def Obligations.FieldSettersPreserveSiblings : Prop :=
  (∀ (i : Instr) (f : Field) (v : Byte) (s : State), s.noReset = true → setterOf i = some (f, v) →
    ∃ w g, exec i s = .next (State.completedOk w { s with cfg := g }) ∧ s.rx <+: w.rx ∧ fieldGet g f = v ∧
      (∀ f', f' ≠ f → fieldGet g f' = fieldGet s.cfg f') ∧
      g.option &&& 0x98 = s.cfg.option &&& 0x98) ∧
  (∀ (i : Instr) (s t : State), s.noReset = true → exec i s = .next t →
    t.cfg.option &&& 0x98 ≠ s.cfg.option &&& 0x98 →
    (∃ v, i = .setOption v) ∨ (∃ g, i = .rspCfg g) ∨ i = .readConfig ∨ i = .writePersistent ∨
      i = .writeVolatile)

/-- R100: setters of different fields commute, to the last bit of the state. -/
def Obligations.SettersOfDifferentFieldsCommute : Prop :=
  ∀ (i j : Instr) (f f' : Field) (v v' : Byte) (s : State), s.noReset = true → setterOf i = some (f, v) →
    setterOf j = some (f', v') → f ≠ f' →
    ∃ t, execAll [i, j] s = .next t ∧ execAll [j, i] s = .next t

/-- R100: of two values given to one field, the last one stands. -/
def Obligations.LastValueOfAFieldStands : Prop :=
  ∀ (i j : Instr) (f : Field) (v v' : Byte) (s : State), s.noReset = true → setterOf i = some (f, v) →
    setterOf j = some (f, v') →
    ∃ t u, execAll [i, j] s = .next t ∧ exec j s = .next u ∧ t.cfg = u.cfg

/-- R91: a setter whose operand equals the field's current value changes nothing but the result flags. -/
def Obligations.SettingTheCurrentValueChangesNothing : Prop :=
  ∀ (i : Instr) (f : Field) (v : Byte) (s : State), s.noReset = true → setterOf i = some (f, v) →
    fieldGet s.cfg f = v → ∃ w, exec i s = .next (s.completedOk w) ∧ s.rx <+: w.rx

/-- R89: the expansion of CONFIGURE packs every field, and leaves pull-up, I/O mode and the unnamed OPTION bits. -/
def Obligations.ConfigurePacksTheImage : Prop :=
  ∀ (s : State) (fhs nums : Byte) (parity : BitVec 2) (baud air : BitVec 3) (chan : Byte)
    (power : BitVec 2) (fec : BitVec 1), s.noReset = true →
    ∃ t, execAll (configure fhs nums parity baud air chan power fec) s = .next t ∧
      t.cfg = ⟨fhs, nums, parity ++ baud ++ air, chan,
        s.cfg.option.extractLsb' 3 5 ++ fec ++ power⟩

/-! ## Lifecycle and diagnostics -/

/-- R202: BEGIN stores its operand, of BAUD_W bits, in BAUD and forwards it to the transport, and does nothing else;
with BAUD_W = 32 that is every operand. That a narrower block refuses a word with a bit above BAUD_W is the model's
reading of R90 (log entry 12). -/
def Obligations.BeginForwardsTheBaudRate : Prop :=
  ∀ (s : State) (b : BitVec 32), s.noReset = true →
    (b.toNat < 2 ^ s.config.baudW →
      decode s.config (.host (0x01#8 ++ b)) = some (.begin b) ∧
      ∃ w, exec (.begin b) s = .next
          (State.completedOk w { s with baud := b, trace := s.trace ++ [.begin b] }) ∧ s.rx <+: w.rx) ∧
    (2 ^ s.config.baudW ≤ b.toNat →
      decode s.config (.host (0x01#8 ++ b)) = none ∧
      ∃ v, exec (.begin b) s = .next { s with resultValid := v, trace := s.trace ++ [.refused] })

/-- R204: with HAS_DIAG_DECODE, PRINT_CONFIG sends the decode of the local image to the sink and changes nothing
but the result flags (the event that stands for the text is the model's, log entry 11); without it the word is
refused. -/
def Obligations.PrintConfigEmitsTheDecode : Prop :=
  ∀ s : State, s.noReset = true →
    (s.config.hasDiagDecode = true → ∃ w, exec .printConfig s = .next
      (State.completedOk w { s with trace := s.trace ++ [.print (decodeImage s.cfg)] }) ∧ s.rx <+: w.rx) ∧
    (s.config.hasDiagDecode = false → decode s.config (.host 0x3000000000#40) = none ∧
      ∃ v, exec .printConfig s = .next { s with resultValid := v, trace := s.trace ++ [.refused] })

/-- R205, R206, R208: the decode of the stored bits. -/
def Obligations.DecodeFollowsTheTables : Prop :=
  ∀ g : Image,
    (g.sped.extractLsb' 6 2 = 0 ∨ g.sped.extractLsb' 6 2 = 3 → (decodeImage g).parity = .p8N1) ∧
    (g.sped.extractLsb' 6 2 = 1 → (decodeImage g).parity = .p8O1) ∧
    (g.sped.extractLsb' 6 2 = 2 → (decodeImage g).parity = .p8E1) ∧
    (decodeImage g).freqKHz = 425000 + 500 * g.chan.toNat ∧ (decodeImage g).freqKHz < 2 ^ 20 ∧
    (decodeImage g).powerDbm + 3 * (g.option.extractLsb' 0 2).toNat = 30 ∧
    (decodeImage g).fec = g.option.getLsbD 2 ∧ (decodeImage g).pullup = g.option.getLsbD 5 ∧
    (decodeImage g).pushPull = g.option.getLsbD 6

/-- R207 and the sourced points of R209. The absence of a decode for the air-rate indices 4 to 7 is U2. -/
def Obligations.RateDecodeFollowsTheTables : Prop :=
  ∀ g : Image,
    (∀ n, (decodeImage g).airRateKbps = some n ↔
      (g.sped.extractLsb' 0 3).toNat < 4 ∧ n = 16 * 2 ^ (g.sped.extractLsb' 0 3).toNat) ∧
    (g.sped.extractLsb' 3 3 = 0 → (decodeImage g).baudBps = 1200) ∧
    (g.sped.extractLsb' 3 3 = 3 → (decodeImage g).baudBps = 9600) ∧
    (g.sped.extractLsb' 3 3 = 7 → (decodeImage g).baudBps = 115200)

/-! ## Mode control -/

/-- R134: ENTER_CONFIG drives M0 to 1, sleeps the settle delay and waits for AUX; a timeout shows in TMO and in a
diagnostic only, and STATUS is 0. -/
def Obligations.EnterConfigDrivesSettlesAndWaits : Prop :=
  ∀ s : State, s.noReset = true →
    decode s.config (.host 0x0200000000#40) = some .enterConfig ∧
    ∃ w t0 k timedOut, exec .enterConfig s = .next
        { s.moved w t0 (modeEvents s.config true .config k timedOut ++ [.done .ok]) with
          m0 := true, seq := [], op := none, outcome := .ok, status := 0, tmo := timedOut
          resultValid := true } ∧
      s.rx <+: w.rx

/-- R135: ENTER_NORMAL drives M0 to 0, sleeps the settle delay and waits for AUX. -/
def Obligations.EnterNormalDrivesSettlesAndWaits : Prop :=
  ∀ s : State, s.noReset = true →
    decode s.config (.host 0x0300000000#40) = some .enterNormal ∧
    ∃ w t0 k timedOut, exec .enterNormal s = .next
        { s.moved w t0 (modeEvents s.config false .normal k timedOut ++ [.done .ok]) with
          m0 := false, seq := [], op := none, outcome := .ok, status := 0, tmo := timedOut
          resultValid := true } ∧
      s.rx <+: w.rx

/-- R131, R132: AUX is sampled before the time is compared, so that an AUX that is high at the first poll ends the
wait Ready, with no diagnostic, whatever the bound is. -/
def Obligations.ReadyAtTheFirstPollEndsTheWait : Prop :=
  ∀ (s : State) (t1 t2 t3 : Tick) (ts : List Tick), s.script = t1 :: t2 :: t3 :: ts → s.noReset = true →
    t3.aux = true →
    ∃ w, exec .enterConfig s = .next
        { s.moved w (s.now + BitVec.ofNat 64 t1.dt + BitVec.ofNat 64 (max s.config.modeSettleMs t2.dt))
            [.m0 true, .sleep s.config.modeSettleMs, .aux true, .done .ok] with
          m0 := true, seq := [], op := none, outcome := .ok, status := 0, tmo := false
          resultValid := true } ∧
      w.script = ts.tail ∧ s.rx ++ t1.rx ++ t2.rx ++ t3.rx <+: w.rx

/-- R221, R266: with AUX stuck low, ENTER_CONFIG returns all the same, with M0 = 1, TMO = 1, STATUS = 0 and one
Timeout diagnostic, and ENTER_NORMAL likewise with M0 = 0. -/
def Obligations.AuxStuckLowTimesOutAndGoesOn : Prop :=
  ∀ s : State, s.noReset = true → s.aux = false → s.script.all (fun t => !t.aux) = true →
    (∃ t es, exec .enterConfig s = .next t ∧ t.trace = s.trace ++ es ∧ t.m0 = true ∧ t.tmo = true ∧
      t.status = 0 ∧ diagnostics es = [(.timeout, .config)]) ∧
    (∃ t es, exec .enterNormal s = .next t ∧ t.trace = s.trace ++ es ∧ t.m0 = false ∧ t.tmo = true ∧
      t.status = 0 ∧ diagnostics es = [(.timeout, .normal)])

/-- R131, R132: a wait ends, Ready at a poll that reads 1 or, no earlier than the bound after it started, timed out.
In the second case `u` is what the wait had reached with its `k + 1` polls, one tick of the script for each, when
it gave up: T0 holds the moment the wait began, and the clock is at least `T_AUX_TIMEOUT_MS` past it. -/
def Obligations.TimeoutComesNoEarlierThanTheBound : Prop :=
  ∀ (l : Label) (s : State), s.noReset = true → s.config.auxTimeoutMs < 2 ^ 64 →
    ∃ t k timedOut, waitAux l s = .ret () t ∧ t.trace = s.trace ++ waitEvents l k timedOut ∧
      t.tmo = (s.tmo || timedOut) ∧
      (timedOut = true → ∃ u, auxTimeout l u = .ret () t ∧ u.t0 = s.now ∧
        u.script = s.script.drop (k + 1) ∧ u.trace = s.trace ++ List.replicate (k + 1) (.aux false) ∧
        s.config.auxTimeoutMs ≤ (u.now - s.now).toNat)

/-! ## The wire frames -/

/-- R152: SEND_TRIPLE drains, discarding every byte that was queued and ending on a count of 0, and then sends the
opcode three times with no other primitive between. That the row runs on its own and ends in Idle is the model's
choice (log entry 3). -/
def Obligations.TripleRequestsDrainThenSendThreeBytes : Prop :=
  ∀ s : State, s.begun = true → s.undisturbed = true → 1 ≤ s.config.rxCountW →
    ∀ i b, (i, b) ∈ [(Instr.reqReadConfig, (0xC1 : Byte)), (.reqReadVersion, 0xC3), (.reqReset, 0xC4),
        (.reqReadRssi, 0xC5)] →
      ∃ w ps, exec i s = .next
          { s.moved w s.t0 (drainEvents ps ++ [.tx b, .tx b, .tx b]) with seq := [], op := none } ∧
        s.rx <+: ps.map (·.2)

/-- R153: SEND_WRITE sends the opcode and the five bytes of the image as one contiguous block, with no drain. That the
row runs on its own, with the image it carries, and ends in Idle is the model's choice (log entry 3). -/
def Obligations.WriteRequestsSendOneContiguousBlock : Prop :=
  ∀ (s : State) (g : Image), s.begun = true → s.noReset = true →
    ∀ i b, (i, b) ∈ [(Instr.reqWritePersistent g, (0xC0 : Byte)), (.reqWriteVolatile g, 0xC2)] →
      ∃ w, exec i s = .next
          { s.moved w s.t0 [.tx b, .tx g.fhsId, .tx g.fhssNums, .tx g.sped, .tx g.chan, .tx g.option] with
            seq := [], op := none } ∧
        s.rx <+: w.rx

/-- R158 on a frame with the right header: the five bytes after it become CFG, in order; what else is queued
stays. That the row puts its own frame at the head of the queue, parses it and ends in Idle is the model's choice
(log entry 3). -/
def Obligations.ConfigResponseBecomesTheImage : Prop :=
  ∀ (s : State) (g : Image), s.begun = true → s.noReset = true → 3 ≤ s.config.rxCountW →
    ∃ w n, exec (.rspCfg g) s = .next
        { s.moved w s.t0 ([.avail n, .rx 0xC0, .rx g.fhsId, .rx g.fhssNums, .rx g.sped, .rx g.chan,
            .rx g.option]) with
          cfg := g, outcome := .ok, seq := [], op := none } ∧
      6 ≤ n ∧ s.rx <+: w.rx

/-- R162, R164 on frames that are parsed: four raw bytes become VER; the bytes after the header become RSSI and
NOISE. That a row puts its own frame at the head of the queue, parses it and ends in Idle is the model's choice
(log entry 3). -/
def Obligations.VersionAndRssiResponsesAreStored : Prop :=
  ∀ s : State, s.begun = true → s.noReset = true → 3 ≤ s.config.rxCountW →
    (∀ v : Version, ∃ w n, exec (.rspVer v) s = .next
        { s.moved w s.t0 [.avail n, .rx v.v0, .rx v.v1, .rx v.v2, .rx v.v3] with
          ver := v, outcome := .ok, seq := [], op := none } ∧
      4 ≤ n ∧ s.rx <+: w.rx) ∧
    (∀ r noise : Byte, ∃ w n, exec (.rspRssi r noise) s = .next
        { s.moved w s.t0 [.avail n, .rx 0xC5, .rx r, .rx noise] with
          rssi := r, noise := noise, outcome := .ok, seq := [], op := none } ∧
      3 ≤ n ∧ s.rx <+: w.rx)

/-! ## The command framer -/

/-- READ_CONFIG after BEGIN (R254), in any environment that does not disturb it: it completes; it drives, sends,
sleeps and ends exactly as listed, in that order (R154); CFG changes only on success, TMO says whether a wait timed
out (R19), one diagnostic reports a failure, and every other register but the result flags is as before. -/
def Obligations.ReadConfigCompletes : Prop :=
  ∀ s : State, s.begun = true → s.undisturbed = true →
    ∃ w t0 es r g, exec .readConfig s = .next
        { s.moved w t0 es with
          cfg := g, m0 := false, seq := [], op := none, outcome := r, status := r.code, tmo := hasTimeout es
          resultValid := true } ∧
      (r = .ok ∨ (r = .insufficientData ∨ r = .protocolMismatch) ∧ g = s.cfg) ∧
      driven es = [.m0 true, .sleep s.config.modeSettleMs, .tx 0xC1, .tx 0xC1, .tx 0xC1,
        .sleep s.config.respSettleMs, .m0 false, .sleep s.config.modeSettleMs, .done r] ∧
      failureDiagnostics es = reportOf r .readConfig

/-- READ_VERSION likewise: VER changes only on success, and a protocol mismatch cannot occur. -/
def Obligations.ReadVersionCompletes : Prop :=
  ∀ s : State, s.begun = true → s.undisturbed = true →
    ∃ w t0 es r v, exec .readVersion s = .next
        { s.moved w t0 es with
          ver := v, m0 := false, seq := [], op := none, outcome := r, status := r.code, tmo := hasTimeout es
          resultValid := true } ∧
      (r = .ok ∨ r = .insufficientData ∧ v = s.ver) ∧
      driven es = [.m0 true, .sleep s.config.modeSettleMs, .tx 0xC3, .tx 0xC3, .tx 0xC3,
        .sleep s.config.respSettleMs, .m0 false, .sleep s.config.modeSettleMs, .done r] ∧
      failureDiagnostics es = reportOf r .readVersion

/-- READ_RSSI likewise: RSSI and NOISE change only on success. -/
def Obligations.ReadRssiCompletes : Prop :=
  ∀ s : State, s.begun = true → s.undisturbed = true →
    ∃ w t0 es r rssi noise, exec .readRssi s = .next
        { s.moved w t0 es with
          rssi := rssi, noise := noise, m0 := false, seq := [], op := none, outcome := r, status := r.code
          tmo := hasTimeout es, resultValid := true } ∧
      (r = .ok ∨ (r = .insufficientData ∨ r = .protocolMismatch) ∧ rssi = s.rssi ∧ noise = s.noise) ∧
      driven es = [.m0 true, .sleep s.config.modeSettleMs, .tx 0xC5, .tx 0xC5, .tx 0xC5,
        .sleep s.config.respSettleMs, .m0 false, .sleep s.config.modeSettleMs, .done r] ∧
      failureDiagnostics es = reportOf r .readRssi

/-- R166: RESET_MODULE sends C4 C4 C4, sleeps T_RESET_SETTLE_MS, parses nothing and reports success; CFG, VER, RSSI
and NOISE are as before. Whatever the module has emitted when the settle sleep ends is drained: the queue ends
empty. -/
def Obligations.ResetModuleSendsAndAssumesSuccess : Prop :=
  ∀ s : State, s.begun = true → s.undisturbed = true →
    ∃ w t0 es, exec .resetModule s = .next
        { s.moved w t0 es with
          m0 := false, seq := [], op := none, outcome := .ok, status := 0, tmo := hasTimeout es
          resultValid := true } ∧
      driven es = [.m0 true, .sleep s.config.modeSettleMs, .tx 0xC4, .tx 0xC4, .tx 0xC4,
        .sleep s.config.resetSettleMs, .m0 false, .sleep s.config.modeSettleMs, .done .ok] ∧
      failureDiagnostics es = [] ∧
      ∀ emitted, s.answeredAfter (7 + 2 * s.rx.length) emitted → 1 ≤ s.config.rxCountW → w.rx = []

/-- R157: READ_CONFIG by what the module has answered when the settle delay ends: fewer than six bytes fail, a
wrong header fails even with six or more, and else the image is bytes 1 to 5 exactly; the queue ends empty. Whatever
was queued before is discarded by the drain before the request and is no part of the answer (R27, R62, R262). -/
def Obligations.ReadConfigFollowsTheAnswer : Prop :=
  ∀ (s : State) (answer : List Byte), s.begun = true → s.answeredAfter (7 + 2 * s.rx.length) answer →
    3 ≤ s.config.rxCountW →
    ∃ t, exec .readConfig s = .next t ∧ t.rx = [] ∧
      (answer.length < 6 → t.status = 1 ∧ t.cfg = s.cfg) ∧
      (∀ h rest, answer = h :: rest → 5 ≤ rest.length → h ≠ 0xC0 → t.status = 2 ∧ t.cfg = s.cfg) ∧
      (∀ g extra, answer = 0xC0 :: Image.bytes g ++ extra → t.status = 0 ∧ t.cfg = g)

/-- R161, R162: READ_VERSION by the module's answer: fewer than four bytes fail; else the first four are VER,
whatever the first one is. What was queued before is no part of the answer. -/
def Obligations.ReadVersionFollowsTheAnswer : Prop :=
  ∀ (s : State) (answer : List Byte), s.begun = true → s.answeredAfter (7 + 2 * s.rx.length) answer →
    3 ≤ s.config.rxCountW →
    ∃ t, exec .readVersion s = .next t ∧ t.rx = [] ∧
      (answer.length < 4 → t.status = 1 ∧ t.ver = s.ver) ∧
      (∀ v extra, answer = Version.bytes v ++ extra → t.status = 0 ∧ t.ver = v)

/-- R163, R164: READ_RSSI by the module's answer. What was queued before is no part of it. -/
def Obligations.ReadRssiFollowsTheAnswer : Prop :=
  ∀ (s : State) (answer : List Byte), s.begun = true → s.answeredAfter (7 + 2 * s.rx.length) answer →
    3 ≤ s.config.rxCountW →
    ∃ t, exec .readRssi s = .next t ∧ t.rx = [] ∧
      (answer.length < 3 → t.status = 1 ∧ t.rssi = s.rssi ∧ t.noise = s.noise) ∧
      (∀ h rest, answer = h :: rest → 2 ≤ rest.length → h ≠ 0xC5 →
        t.status = 2 ∧ t.rssi = s.rssi ∧ t.noise = s.noise) ∧
      (∀ r n extra, answer = 0xC5 :: r :: n :: extra → t.status = 0 ∧ t.rssi = r ∧ t.noise = n)

/-! ## Write-verify -/

/-- WRITE_PERSISTENT after BEGIN (R254), in any environment that does not disturb it: the snapshot of CFG is sent
behind 0xC0, then C1 C1 C1, with the settle delays between and M0 going 1, 1, 0, in the order listed (R180, R235);
Verified means CFG equals the snapshot, Mismatched that it differs, and a failed read leaves CFG (R185, R186); TMO
says whether a wait timed out. -/
def Obligations.WritePersistentCompletes : Prop :=
  ∀ s : State, s.begun = true → s.undisturbed = true →
    ∃ w t0 es r g, exec .writePersistent s = .next
        { s.moved w t0 es with
          cfg := g, intended := s.cfg, m0 := false, seq := [], op := none, outcome := r, status := r.code
          tmo := hasTimeout es, resultValid := true } ∧
      (r = .verificationMismatch ∧ g ≠ s.cfg ∨ r ≠ .verificationMismatch ∧ g = s.cfg) ∧
      driven es = [.m0 true, .sleep s.config.modeSettleMs, .tx 0xC0, .tx s.cfg.fhsId, .tx s.cfg.fhssNums,
        .tx s.cfg.sped, .tx s.cfg.chan, .tx s.cfg.option, .sleep s.config.writeSettlePMs,
        .m0 true, .sleep s.config.modeSettleMs, .tx 0xC1, .tx 0xC1, .tx 0xC1, .sleep s.config.respSettleMs,
        .m0 false, .sleep s.config.modeSettleMs, .done r] ∧
      failureDiagnostics es = reportOf r .writePersistent

/-- WRITE_VOLATILE likewise, behind 0xC2, with its own settle delay and M0 going 1, 0, 1, 0: the normal-mode cycle
stands between the write and the read (R181, R183). -/
def Obligations.WriteVolatileCompletes : Prop :=
  ∀ s : State, s.begun = true → s.undisturbed = true →
    ∃ w t0 es r g, exec .writeVolatile s = .next
        { s.moved w t0 es with
          cfg := g, intended := s.cfg, m0 := false, seq := [], op := none, outcome := r, status := r.code
          tmo := hasTimeout es, resultValid := true } ∧
      (r = .verificationMismatch ∧ g ≠ s.cfg ∨ r ≠ .verificationMismatch ∧ g = s.cfg) ∧
      driven es = [.m0 true, .sleep s.config.modeSettleMs, .tx 0xC2, .tx s.cfg.fhsId, .tx s.cfg.fhssNums,
        .tx s.cfg.sped, .tx s.cfg.chan, .tx s.cfg.option, .sleep s.config.writeSettleVMs,
        .m0 false, .sleep s.config.modeSettleMs,
        .m0 true, .sleep s.config.modeSettleMs, .tx 0xC1, .tx 0xC1, .tx 0xC1, .sleep s.config.respSettleMs,
        .m0 false, .sleep s.config.modeSettleMs, .done r] ∧
      failureDiagnostics es = reportOf r .writeVolatile

/-- R191: both write-verify commands by what the module has answered at S10: Verified exactly when it reports the
40 bits that were sent; any differing byte is a mismatch and CFG holds what was reported; a wrong header and a
short answer are the two kinds of ReadFailed. What was queued before is no part of the answer, and the
drain S11 leaves the queue empty. -/
def Obligations.WriteVerifyReportsTheReadBack : Prop :=
  ∀ (s : State) (answer : List Byte) (i : Instr) (n : Nat),
    (i = .writePersistent ∧ n = 18 ∨ i = .writeVolatile ∧ n = 21) →
    s.begun = true → s.answeredAfter (n + 2 * s.rx.length) answer → 3 ≤ s.config.rxCountW →
    ∃ t, exec i s = .next t ∧ t.intended = s.cfg ∧ t.rx = [] ∧
      (∀ g extra, answer = 0xC0 :: Image.bytes g ++ extra →
        t.cfg = g ∧ t.status = if g = s.cfg then 0 else 3) ∧
      (∀ h rest, answer = h :: rest → 5 ≤ rest.length → h ≠ 0xC0 → t.status = 2 ∧ t.cfg = s.cfg) ∧
      (answer.length < 6 → t.status = 1 ∧ t.cfg = s.cfg)

/-! ## Results, codes and whole-machine rules -/

/-- R18: the STATUS codes; R224: the diagnostic codes; each code tells its kind. -/
def Obligations.ResultCodesAreDistinct : Prop :=
  [CmdResult.ok, .insufficientData, .protocolMismatch, .verificationMismatch].map CmdResult.code
    = [0, 1, 2, 3] ∧
  [DiagKind.timeout, .insufficientData, .protocolMismatch, .verificationMismatch].map DiagKind.code
    = [0, 1, 2, 3] ∧
  [Label.config, .normal, .readConfig, .readVersion, .readRssi, .writePersistent, .writeVolatile].map
    Label.code = [0, 1, 2, 3, 4, 5, 6] ∧
  (∀ r r' : CmdResult, r.code = r'.code → r = r') ∧ (∀ k k' : DiagKind, k.code = k'.code → k = k') ∧
  (∀ l l' : Label, l.code = l'.code → l = l')

/-- R42: every host command the block has, a protocol operation after BEGIN (R254), completes with RESULT_VALID, an
`rsp_valid` pulse that carries STATUS and TMO, a STATUS the spec gives, and Idle. -/
def Obligations.EveryHostCommandCompletes : Prop :=
  ∀ (i : Instr) (s : State), (s.begun = true ∨ usesTransport i = false) → isHostCommand i = true →
    i.wellFormed s.config = true → s.undisturbed = true →
    ∃ t, exec i s = .next t ∧ t.resultValid = true ∧ response s t = some ⟨t.status, t.tmo, false⟩ ∧
      t.status.toNat ≤ 3 ∧ t.idle = true

/-- R11: nothing writes CFG but the setters, the overrides, and a read-config parse. -/
def Obligations.OnlyTheNamedCommandsWriteTheImage : Prop :=
  ∀ (i : Instr) (s t : State), s.noReset = true → exec i s = .next t → t.cfg ≠ s.cfg →
    (setterOf i).isSome = true ∨ (∃ v, i = .setSped v) ∨ (∃ v, i = .setOption v) ∨ (∃ g, i = .rspCfg g) ∨
      i = .readConfig ∨ i = .writePersistent ∨ i = .writeVolatile

/-- The other registers and who writes them (`10_state.md` section 1): BAUD only by BEGIN, VER only by a version
response, RSSI and NOISE only by an RSSI response, INTENDED only by a write-verify, M0 only by the mode
transitions and the protocol commands. -/
def Obligations.OnlyTheNamedCommandsWriteARegister : Prop :=
  ∀ (i : Instr) (s t : State), s.noReset = true → exec i s = .next t →
    (t.baud ≠ s.baud → ∃ b, i = .begin b) ∧
    (t.ver ≠ s.ver → i = .readVersion ∨ ∃ v, i = .rspVer v) ∧
    (t.rssi ≠ s.rssi ∨ t.noise ≠ s.noise → i = .readRssi ∨ ∃ r n, i = .rspRssi r n) ∧
    (t.intended ≠ s.intended → i = .writePersistent ∨ i = .writeVolatile) ∧
    (t.m0 ≠ s.m0 → i = .enterConfig ∨ i = .enterNormal ∨ i = .readConfig ∨ i = .readVersion ∨
      i = .readRssi ∨ i = .resetModule ∨ i = .writePersistent ∨ i = .writeVolatile)

/-- R137: M0 changes only at the M0 steps: after any instruction it is what its last M0 event drove it to, and as
before when there was none. -/
def Obligations.ModeLineFollowsItsEvents : Prop :=
  ∀ (i : Instr) (s t : State), s.noReset = true → exec i s = .next t →
    ∃ es, t.trace = s.trace ++ es ∧ t.m0 = lastLevel s.m0 es

/-- The invariant between commands: Idle with no command in progress, STATUS one of the codes R18 gives, no byte
sent but with M0 driven to 1 (R233), and every request right after a drain that ended on a count of 0 (R61). It is
kept by every step: a command, a reset in the middle of one, a refused word, an idle step. -/
def Obligations.InvariantIsKeptByEveryStep : Prop :=
  ∀ s t : State, s.inv = true → step s = .next t → t.inv = true

/-- The invariant holds after reset. -/
def Obligations.InvariantHoldsAfterReset : Prop :=
  State.reset.inv = true
end

