-- ==== Sys2Proof/Laws/State.lean ====
section
/-! SUPPORT. One lemma per field per update of the state, true by rfl, and the small lemmas of the updates. -/

namespace Sys2Proof.Machine

/-- The environment's part of a state. -/
def State.world (s : State) : World := ⟨s.rx, s.aux, s.auxSync, s.now, s.script⟩

/-! ## emit -/

@[simp] theorem emit_cfg (e : Event) (s : State) : (emit e s).cfg = s.cfg := rfl
@[simp] theorem emit_m0 (e : Event) (s : State) : (emit e s).m0 = s.m0 := rfl
@[simp] theorem emit_seq (e : Event) (s : State) : (emit e s).seq = s.seq := rfl
@[simp] theorem emit_op (e : Event) (s : State) : (emit e s).op = s.op := rfl
@[simp] theorem emit_outcome (e : Event) (s : State) : (emit e s).outcome = s.outcome := rfl
@[simp] theorem emit_intended (e : Event) (s : State) : (emit e s).intended = s.intended := rfl
@[simp] theorem emit_status (e : Event) (s : State) : (emit e s).status = s.status := rfl
@[simp] theorem emit_tmo (e : Event) (s : State) : (emit e s).tmo = s.tmo := rfl
@[simp] theorem emit_resultValid (e : Event) (s : State) : (emit e s).resultValid = s.resultValid := rfl
@[simp] theorem emit_ver (e : Event) (s : State) : (emit e s).ver = s.ver := rfl
@[simp] theorem emit_rssi (e : Event) (s : State) : (emit e s).rssi = s.rssi := rfl
@[simp] theorem emit_noise (e : Event) (s : State) : (emit e s).noise = s.noise := rfl
@[simp] theorem emit_baud (e : Event) (s : State) : (emit e s).baud = s.baud := rfl
@[simp] theorem emit_t0 (e : Event) (s : State) : (emit e s).t0 = s.t0 := rfl
@[simp] theorem emit_auxSync (e : Event) (s : State) : (emit e s).auxSync = s.auxSync := rfl
@[simp] theorem emit_rx (e : Event) (s : State) : (emit e s).rx = s.rx := rfl
@[simp] theorem emit_aux (e : Event) (s : State) : (emit e s).aux = s.aux := rfl
@[simp] theorem emit_now (e : Event) (s : State) : (emit e s).now = s.now := rfl
@[simp] theorem emit_script (e : Event) (s : State) : (emit e s).script = s.script := rfl
@[simp] theorem emit_flood (e : Event) (s : State) : (emit e s).flood = s.flood := rfl
@[simp] theorem emit_hostInputs (e : Event) (s : State) : (emit e s).hostInputs = s.hostInputs := rfl
@[simp] theorem emit_trace (e : Event) (s : State) : (emit e s).trace = s.trace ++ [e] := rfl
@[simp] theorem emit_config (e : Event) (s : State) : (emit e s).config = s.config := rfl

/-! ## accept -/

@[simp] theorem accept_cfg (i : Instr) (s : State) : (accept i s).cfg = s.cfg := rfl
@[simp] theorem accept_m0 (i : Instr) (s : State) : (accept i s).m0 = s.m0 := rfl
@[simp] theorem accept_seq (i : Instr) (s : State) : (accept i s).seq = s.seq := rfl
@[simp] theorem accept_op (i : Instr) (s : State) : (accept i s).op = some i := rfl
@[simp] theorem accept_outcome (i : Instr) (s : State) : (accept i s).outcome = .ok := rfl
@[simp] theorem accept_intended (i : Instr) (s : State) : (accept i s).intended = s.intended := rfl
@[simp] theorem accept_status (i : Instr) (s : State) : (accept i s).status = s.status := rfl
@[simp] theorem accept_tmo (i : Instr) (s : State) : (accept i s).tmo = false := rfl
@[simp] theorem accept_resultValid (i : Instr) (s : State) : (accept i s).resultValid = false := rfl
@[simp] theorem accept_ver (i : Instr) (s : State) : (accept i s).ver = s.ver := rfl
@[simp] theorem accept_rssi (i : Instr) (s : State) : (accept i s).rssi = s.rssi := rfl
@[simp] theorem accept_noise (i : Instr) (s : State) : (accept i s).noise = s.noise := rfl
@[simp] theorem accept_baud (i : Instr) (s : State) : (accept i s).baud = s.baud := rfl
@[simp] theorem accept_t0 (i : Instr) (s : State) : (accept i s).t0 = s.t0 := rfl
@[simp] theorem accept_auxSync (i : Instr) (s : State) : (accept i s).auxSync = s.auxSync := rfl
@[simp] theorem accept_rx (i : Instr) (s : State) : (accept i s).rx = s.rx := rfl
@[simp] theorem accept_aux (i : Instr) (s : State) : (accept i s).aux = s.aux := rfl
@[simp] theorem accept_now (i : Instr) (s : State) : (accept i s).now = s.now := rfl
@[simp] theorem accept_script (i : Instr) (s : State) : (accept i s).script = s.script := rfl
@[simp] theorem accept_flood (i : Instr) (s : State) : (accept i s).flood = s.flood := rfl
@[simp] theorem accept_hostInputs (i : Instr) (s : State) : (accept i s).hostInputs = s.hostInputs := rfl
@[simp] theorem accept_trace (i : Instr) (s : State) : (accept i s).trace = s.trace := rfl
@[simp] theorem accept_config (i : Instr) (s : State) : (accept i s).config = s.config := rfl

/-! ## finish -/

@[simp] theorem finish_cfg (s : State) : (finish s).cfg = s.cfg := rfl
@[simp] theorem finish_m0 (s : State) : (finish s).m0 = s.m0 := rfl
@[simp] theorem finish_seq (s : State) : (finish s).seq = s.seq := rfl
@[simp] theorem finish_op (s : State) : (finish s).op = s.op := rfl
@[simp] theorem finish_outcome (s : State) : (finish s).outcome = s.outcome := rfl
@[simp] theorem finish_intended (s : State) : (finish s).intended = s.intended := rfl
@[simp] theorem finish_status (s : State) : (finish s).status = s.outcome.code := rfl
@[simp] theorem finish_tmo (s : State) : (finish s).tmo = s.tmo := rfl
@[simp] theorem finish_resultValid (s : State) : (finish s).resultValid = true := rfl
@[simp] theorem finish_ver (s : State) : (finish s).ver = s.ver := rfl
@[simp] theorem finish_rssi (s : State) : (finish s).rssi = s.rssi := rfl
@[simp] theorem finish_noise (s : State) : (finish s).noise = s.noise := rfl
@[simp] theorem finish_baud (s : State) : (finish s).baud = s.baud := rfl
@[simp] theorem finish_t0 (s : State) : (finish s).t0 = s.t0 := rfl
@[simp] theorem finish_auxSync (s : State) : (finish s).auxSync = s.auxSync := rfl
@[simp] theorem finish_rx (s : State) : (finish s).rx = s.rx := rfl
@[simp] theorem finish_aux (s : State) : (finish s).aux = s.aux := rfl
@[simp] theorem finish_now (s : State) : (finish s).now = s.now := rfl
@[simp] theorem finish_script (s : State) : (finish s).script = s.script := rfl
@[simp] theorem finish_flood (s : State) : (finish s).flood = s.flood := rfl
@[simp] theorem finish_hostInputs (s : State) : (finish s).hostInputs = s.hostInputs := rfl
@[simp] theorem finish_trace (s : State) : (finish s).trace = s.trace ++ [.done s.outcome] := rfl
@[simp] theorem finish_config (s : State) : (finish s).config = s.config := rfl

/-! ## toIdle -/

@[simp] theorem toIdle_cfg (s : State) : (toIdle s).cfg = s.cfg := rfl
@[simp] theorem toIdle_m0 (s : State) : (toIdle s).m0 = s.m0 := rfl
@[simp] theorem toIdle_seq (s : State) : (toIdle s).seq = [] := rfl
@[simp] theorem toIdle_op (s : State) : (toIdle s).op = none := rfl
@[simp] theorem toIdle_outcome (s : State) : (toIdle s).outcome = s.outcome := rfl
@[simp] theorem toIdle_intended (s : State) : (toIdle s).intended = s.intended := rfl
@[simp] theorem toIdle_status (s : State) : (toIdle s).status = s.status := rfl
@[simp] theorem toIdle_tmo (s : State) : (toIdle s).tmo = s.tmo := rfl
@[simp] theorem toIdle_resultValid (s : State) : (toIdle s).resultValid = s.resultValid := rfl
@[simp] theorem toIdle_ver (s : State) : (toIdle s).ver = s.ver := rfl
@[simp] theorem toIdle_rssi (s : State) : (toIdle s).rssi = s.rssi := rfl
@[simp] theorem toIdle_noise (s : State) : (toIdle s).noise = s.noise := rfl
@[simp] theorem toIdle_baud (s : State) : (toIdle s).baud = s.baud := rfl
@[simp] theorem toIdle_t0 (s : State) : (toIdle s).t0 = s.t0 := rfl
@[simp] theorem toIdle_auxSync (s : State) : (toIdle s).auxSync = s.auxSync := rfl
@[simp] theorem toIdle_rx (s : State) : (toIdle s).rx = s.rx := rfl
@[simp] theorem toIdle_aux (s : State) : (toIdle s).aux = s.aux := rfl
@[simp] theorem toIdle_now (s : State) : (toIdle s).now = s.now := rfl
@[simp] theorem toIdle_script (s : State) : (toIdle s).script = s.script := rfl
@[simp] theorem toIdle_flood (s : State) : (toIdle s).flood = s.flood := rfl
@[simp] theorem toIdle_hostInputs (s : State) : (toIdle s).hostInputs = s.hostInputs := rfl
@[simp] theorem toIdle_trace (s : State) : (toIdle s).trace = s.trace := rfl
@[simp] theorem toIdle_config (s : State) : (toIdle s).config = s.config := rfl

/-! ## refuseWord -/

@[simp] theorem refuseWord_cfg (s : State) : (refuseWord s).cfg = s.cfg := rfl
@[simp] theorem refuseWord_m0 (s : State) : (refuseWord s).m0 = s.m0 := rfl
@[simp] theorem refuseWord_seq (s : State) : (refuseWord s).seq = s.seq := rfl
@[simp] theorem refuseWord_op (s : State) : (refuseWord s).op = s.op := rfl
@[simp] theorem refuseWord_outcome (s : State) : (refuseWord s).outcome = s.outcome := rfl
@[simp] theorem refuseWord_intended (s : State) : (refuseWord s).intended = s.intended := rfl
@[simp] theorem refuseWord_status (s : State) : (refuseWord s).status = s.status := rfl
@[simp] theorem refuseWord_tmo (s : State) : (refuseWord s).tmo = s.tmo := rfl
@[simp] theorem refuseWord_resultValid (s : State) : (refuseWord s).resultValid = s.resultValid := rfl
@[simp] theorem refuseWord_ver (s : State) : (refuseWord s).ver = s.ver := rfl
@[simp] theorem refuseWord_rssi (s : State) : (refuseWord s).rssi = s.rssi := rfl
@[simp] theorem refuseWord_noise (s : State) : (refuseWord s).noise = s.noise := rfl
@[simp] theorem refuseWord_baud (s : State) : (refuseWord s).baud = s.baud := rfl
@[simp] theorem refuseWord_t0 (s : State) : (refuseWord s).t0 = s.t0 := rfl
@[simp] theorem refuseWord_auxSync (s : State) : (refuseWord s).auxSync = s.auxSync := rfl
@[simp] theorem refuseWord_rx (s : State) : (refuseWord s).rx = s.rx := rfl
@[simp] theorem refuseWord_aux (s : State) : (refuseWord s).aux = s.aux := rfl
@[simp] theorem refuseWord_now (s : State) : (refuseWord s).now = s.now := rfl
@[simp] theorem refuseWord_script (s : State) : (refuseWord s).script = s.script := rfl
@[simp] theorem refuseWord_flood (s : State) : (refuseWord s).flood = s.flood := rfl
@[simp] theorem refuseWord_hostInputs (s : State) : (refuseWord s).hostInputs = s.hostInputs := rfl
@[simp] theorem refuseWord_trace (s : State) : (refuseWord s).trace = s.trace ++ [.refused] := rfl
@[simp] theorem refuseWord_config (s : State) : (refuseWord s).config = s.config := rfl

/-! ## snapshot -/

@[simp] theorem snapshot_cfg (s : State) : (snapshot s).cfg = s.cfg := rfl
@[simp] theorem snapshot_m0 (s : State) : (snapshot s).m0 = s.m0 := rfl
@[simp] theorem snapshot_seq (s : State) : (snapshot s).seq = s.seq := rfl
@[simp] theorem snapshot_op (s : State) : (snapshot s).op = s.op := rfl
@[simp] theorem snapshot_outcome (s : State) : (snapshot s).outcome = s.outcome := rfl
@[simp] theorem snapshot_intended (s : State) : (snapshot s).intended = s.cfg := rfl
@[simp] theorem snapshot_status (s : State) : (snapshot s).status = s.status := rfl
@[simp] theorem snapshot_tmo (s : State) : (snapshot s).tmo = s.tmo := rfl
@[simp] theorem snapshot_resultValid (s : State) : (snapshot s).resultValid = s.resultValid := rfl
@[simp] theorem snapshot_ver (s : State) : (snapshot s).ver = s.ver := rfl
@[simp] theorem snapshot_rssi (s : State) : (snapshot s).rssi = s.rssi := rfl
@[simp] theorem snapshot_noise (s : State) : (snapshot s).noise = s.noise := rfl
@[simp] theorem snapshot_baud (s : State) : (snapshot s).baud = s.baud := rfl
@[simp] theorem snapshot_t0 (s : State) : (snapshot s).t0 = s.t0 := rfl
@[simp] theorem snapshot_auxSync (s : State) : (snapshot s).auxSync = s.auxSync := rfl
@[simp] theorem snapshot_rx (s : State) : (snapshot s).rx = s.rx := rfl
@[simp] theorem snapshot_aux (s : State) : (snapshot s).aux = s.aux := rfl
@[simp] theorem snapshot_now (s : State) : (snapshot s).now = s.now := rfl
@[simp] theorem snapshot_script (s : State) : (snapshot s).script = s.script := rfl
@[simp] theorem snapshot_flood (s : State) : (snapshot s).flood = s.flood := rfl
@[simp] theorem snapshot_hostInputs (s : State) : (snapshot s).hostInputs = s.hostInputs := rfl
@[simp] theorem snapshot_trace (s : State) : (snapshot s).trace = s.trace := rfl
@[simp] theorem snapshot_config (s : State) : (snapshot s).config = s.config := rfl

/-! ## settleAux -/

@[simp] theorem settleAux_cfg (p : Bool) (s : State) : (settleAux p s).cfg = s.cfg := rfl
@[simp] theorem settleAux_m0 (p : Bool) (s : State) : (settleAux p s).m0 = s.m0 := rfl
@[simp] theorem settleAux_seq (p : Bool) (s : State) : (settleAux p s).seq = s.seq := rfl
@[simp] theorem settleAux_op (p : Bool) (s : State) : (settleAux p s).op = s.op := rfl
@[simp] theorem settleAux_outcome (p : Bool) (s : State) : (settleAux p s).outcome = s.outcome := rfl
@[simp] theorem settleAux_intended (p : Bool) (s : State) : (settleAux p s).intended = s.intended := rfl
@[simp] theorem settleAux_status (p : Bool) (s : State) : (settleAux p s).status = s.status := rfl
@[simp] theorem settleAux_tmo (p : Bool) (s : State) : (settleAux p s).tmo = s.tmo := rfl
@[simp] theorem settleAux_resultValid (p : Bool) (s : State) : (settleAux p s).resultValid = s.resultValid := rfl
@[simp] theorem settleAux_ver (p : Bool) (s : State) : (settleAux p s).ver = s.ver := rfl
@[simp] theorem settleAux_rssi (p : Bool) (s : State) : (settleAux p s).rssi = s.rssi := rfl
@[simp] theorem settleAux_noise (p : Bool) (s : State) : (settleAux p s).noise = s.noise := rfl
@[simp] theorem settleAux_baud (p : Bool) (s : State) : (settleAux p s).baud = s.baud := rfl
@[simp] theorem settleAux_t0 (p : Bool) (s : State) : (settleAux p s).t0 = s.t0 := rfl
@[simp] theorem settleAux_auxSync (p : Bool) (s : State) : (settleAux p s).auxSync = ⟨p, p⟩ := rfl
@[simp] theorem settleAux_rx (p : Bool) (s : State) : (settleAux p s).rx = s.rx := rfl
@[simp] theorem settleAux_aux (p : Bool) (s : State) : (settleAux p s).aux = p := rfl
@[simp] theorem settleAux_now (p : Bool) (s : State) : (settleAux p s).now = s.now := rfl
@[simp] theorem settleAux_script (p : Bool) (s : State) : (settleAux p s).script = s.script := rfl
@[simp] theorem settleAux_flood (p : Bool) (s : State) : (settleAux p s).flood = s.flood := rfl
@[simp] theorem settleAux_hostInputs (p : Bool) (s : State) : (settleAux p s).hostInputs = s.hostInputs := rfl
@[simp] theorem settleAux_trace (p : Bool) (s : State) : (settleAux p s).trace = s.trace := rfl
@[simp] theorem settleAux_config (p : Bool) (s : State) : (settleAux p s).config = s.config := rfl

/-! ## blockReset -/

@[simp] theorem blockReset_cfg (s : State) : (blockReset s).cfg = .zero := rfl
@[simp] theorem blockReset_m0 (s : State) : (blockReset s).m0 = false := rfl
@[simp] theorem blockReset_seq (s : State) : (blockReset s).seq = [] := rfl
@[simp] theorem blockReset_op (s : State) : (blockReset s).op = none := rfl
@[simp] theorem blockReset_outcome (s : State) : (blockReset s).outcome = .ok := rfl
@[simp] theorem blockReset_intended (s : State) : (blockReset s).intended = .zero := rfl
@[simp] theorem blockReset_status (s : State) : (blockReset s).status = 0 := rfl
@[simp] theorem blockReset_tmo (s : State) : (blockReset s).tmo = false := rfl
@[simp] theorem blockReset_resultValid (s : State) : (blockReset s).resultValid = false := rfl
@[simp] theorem blockReset_ver (s : State) : (blockReset s).ver = .zero := rfl
@[simp] theorem blockReset_rssi (s : State) : (blockReset s).rssi = 0 := rfl
@[simp] theorem blockReset_noise (s : State) : (blockReset s).noise = 0 := rfl
@[simp] theorem blockReset_baud (s : State) : (blockReset s).baud = 0 := rfl
@[simp] theorem blockReset_t0 (s : State) : (blockReset s).t0 = 0 := rfl
@[simp] theorem blockReset_auxSync (s : State) : (blockReset s).auxSync = ⟨false, false⟩ := rfl
@[simp] theorem blockReset_rx (s : State) : (blockReset s).rx = s.rx := rfl
@[simp] theorem blockReset_aux (s : State) : (blockReset s).aux = s.aux := rfl
@[simp] theorem blockReset_now (s : State) : (blockReset s).now = s.now := rfl
@[simp] theorem blockReset_script (s : State) : (blockReset s).script = s.script := rfl
@[simp] theorem blockReset_flood (s : State) : (blockReset s).flood = s.flood := rfl
@[simp] theorem blockReset_hostInputs (s : State) : (blockReset s).hostInputs = s.hostInputs := rfl
@[simp] theorem blockReset_trace (s : State) : (blockReset s).trace = s.trace := rfl
@[simp] theorem blockReset_config (s : State) : (blockReset s).config = s.config := rfl

/-! ## moved -/

@[simp] theorem State.moved_cfg (w : World) (t : Millis) (es : List Event) (s : State) : (s.moved w t es).cfg = s.cfg := rfl
@[simp] theorem State.moved_m0 (w : World) (t : Millis) (es : List Event) (s : State) : (s.moved w t es).m0 = s.m0 := rfl
@[simp] theorem State.moved_seq (w : World) (t : Millis) (es : List Event) (s : State) : (s.moved w t es).seq = s.seq := rfl
@[simp] theorem State.moved_op (w : World) (t : Millis) (es : List Event) (s : State) : (s.moved w t es).op = s.op := rfl
@[simp] theorem State.moved_outcome (w : World) (t : Millis) (es : List Event) (s : State) : (s.moved w t es).outcome = s.outcome := rfl
@[simp] theorem State.moved_intended (w : World) (t : Millis) (es : List Event) (s : State) : (s.moved w t es).intended = s.intended := rfl
@[simp] theorem State.moved_status (w : World) (t : Millis) (es : List Event) (s : State) : (s.moved w t es).status = s.status := rfl
@[simp] theorem State.moved_tmo (w : World) (t : Millis) (es : List Event) (s : State) : (s.moved w t es).tmo = s.tmo := rfl
@[simp] theorem State.moved_resultValid (w : World) (t : Millis) (es : List Event) (s : State) : (s.moved w t es).resultValid = s.resultValid := rfl
@[simp] theorem State.moved_ver (w : World) (t : Millis) (es : List Event) (s : State) : (s.moved w t es).ver = s.ver := rfl
@[simp] theorem State.moved_rssi (w : World) (t : Millis) (es : List Event) (s : State) : (s.moved w t es).rssi = s.rssi := rfl
@[simp] theorem State.moved_noise (w : World) (t : Millis) (es : List Event) (s : State) : (s.moved w t es).noise = s.noise := rfl
@[simp] theorem State.moved_baud (w : World) (t : Millis) (es : List Event) (s : State) : (s.moved w t es).baud = s.baud := rfl
@[simp] theorem State.moved_t0 (w : World) (t : Millis) (es : List Event) (s : State) : (s.moved w t es).t0 = t := rfl
@[simp] theorem State.moved_auxSync (w : World) (t : Millis) (es : List Event) (s : State) : (s.moved w t es).auxSync = w.auxSync := rfl
@[simp] theorem State.moved_rx (w : World) (t : Millis) (es : List Event) (s : State) : (s.moved w t es).rx = w.rx := rfl
@[simp] theorem State.moved_aux (w : World) (t : Millis) (es : List Event) (s : State) : (s.moved w t es).aux = w.aux := rfl
@[simp] theorem State.moved_now (w : World) (t : Millis) (es : List Event) (s : State) : (s.moved w t es).now = w.now := rfl
@[simp] theorem State.moved_script (w : World) (t : Millis) (es : List Event) (s : State) : (s.moved w t es).script = w.script := rfl
@[simp] theorem State.moved_flood (w : World) (t : Millis) (es : List Event) (s : State) : (s.moved w t es).flood = s.flood := rfl
@[simp] theorem State.moved_hostInputs (w : World) (t : Millis) (es : List Event) (s : State) : (s.moved w t es).hostInputs = s.hostInputs := rfl
@[simp] theorem State.moved_trace (w : World) (t : Millis) (es : List Event) (s : State) : (s.moved w t es).trace = s.trace ++ es := rfl
@[simp] theorem State.moved_config (w : World) (t : Millis) (es : List Event) (s : State) : (s.moved w t es).config = s.config := rfl

/-! ## Composition -/

@[simp] theorem State.world_eta (s : State) : s.moved s.world s.t0 [] = s := by
  simp [State.moved, State.world]

@[simp] theorem State.moved_moved (s : State) (w w' : World) (t t' : Millis) (es es' : List Event) :
    (s.moved w t es).moved w' t' es' = s.moved w' t' (es ++ es') := by
  simp [State.moved]

@[simp] theorem emit_moved (e : Event) (s : State) (w : World) (t : Millis) (es : List Event) :
    emit e (s.moved w t es) = s.moved w t (es ++ [e]) := by
  simp [State.moved, emit]

end Sys2Proof.Machine
end

