-- ==== Sys2Proof/Laws/Ops.lean ====
section
/-! SUPPORT. What each shared operation can do, said once. First how operations compose; then the environment's
next tick; then, for every primitive and sub-sequence, its result when no reset cuts it. -/

namespace Sys2Proof.Machine

/-! ## Composition -/

@[simp] theorem Flow.bind_ret {α β : Type} (a : α) (s : State) (f : α → State → Flow β) :
    (Flow.ret a s).bind f = f a s := rfl

@[simp] theorem Flow.bind_cut {α β : Type} (s : State) (f : α → State → Flow β) :
    (Flow.cut s).bind f = .cut s := rfl

@[simp] theorem Flow.bind_halt {α β : Type} (r : Fault) (f : α → State → Flow β) :
    (Flow.halt r).bind f = .halt r := rfl

theorem Flow.bind_assoc {α β γ : Type} (x : Flow α) (f : α → State → Flow β) (g : β → State → Flow γ) :
    (x.bind f).bind g = x.bind fun a s => (f a s).bind g := by
  cases x <;> rfl

@[simp] theorem Flow.toOutcome_ret (s : State) : (Flow.ret () s).toOutcome = .next s := rfl

@[simp] theorem Flow.toOutcome_cut (s : State) : (Flow.cut s).toOutcome = .next s := rfl

@[simp] theorem Flow.toOutcome_halt (r : Fault) : (Flow.halt r).toOutcome = .fault r := rfl

@[simp] theorem runSeq_nil (s : State) : runSeq [] s = .ret () (toIdle s) := rfl

theorem runSeq_cons (p : Phase) (ps : List Phase) (s : State) :
    runSeq (p :: ps) s = (runPhase p { s with seq := p :: ps }).bind fun _ s => runSeq ps s := rfl

/-- Every way an operation can end, at once: `P` of a returned value and state, `C` of a state cut by a reset,
`H` of a fault. -/
def Flow.Sat {α : Type} (x : Flow α) (P : α → State → Prop) (C : State → Prop) (H : Fault → Prop) : Prop :=
  match x with
  | .ret a s => P a s
  | .cut s => C s
  | .halt r => H r

theorem Flow.Sat.mono {α : Type} {x : Flow α} {P P' : α → State → Prop} {C C' : State → Prop}
    {H H' : Fault → Prop} (hx : x.Sat P C H) (hp : ∀ a s, P a s → P' a s) (hc : ∀ s, C s → C' s)
    (hh : ∀ r, H r → H' r) : x.Sat P' C' H' := by
  cases x with
  | ret a s => exact hp a s hx
  | cut s => exact hc s hx
  | halt r => exact hh r hx

theorem Flow.Sat.bind {α β : Type} {x : Flow α} {f : α → State → Flow β} {P : α → State → Prop}
    {Q : β → State → Prop} {C : State → Prop} {H : Fault → Prop} (hx : x.Sat P C H)
    (hf : ∀ a s, P a s → (f a s).Sat Q C H) : (x.bind f).Sat Q C H := by
  cases x with
  | ret a s => exact hf a s hx
  | cut s => exact hx
  | halt r => exact hx

theorem Flow.Sat.toOutcome {x : Flow Unit} {P : State → Prop} {H : Fault → Prop}
    (hx : x.Sat (fun _ s => P s) P H) :
    (∃ t, x.toOutcome = .next t ∧ P t) ∨ ∃ r, x.toOutcome = .fault r ∧ H r := by
  cases x with
  | ret a s => exact .inl ⟨s, rfl, hx⟩
  | cut s => exact .inl ⟨s, rfl, hx⟩
  | halt r => exact .inr ⟨r, rfl, hx⟩

/-! ## The next tick -/

/-- The bytes that arrive before the next primitive acts. -/
def State.arrivals (s : State) : List Byte :=
  match s.script with
  | [] => s.flood
  | t :: _ => t.rx

/-- The level of AUX when the next primitive acts. -/
def State.nextAux (s : State) : Bool :=
  match s.script with
  | [] => s.aux
  | t :: _ => t.aux

/-- Whether a reset cuts the command before the next primitive acts. -/
def State.cutNext (s : State) : Bool :=
  match s.script with
  | [] => false
  | t :: _ => t.rst

/-- The time that passes before the next primitive acts, at least `ms`, or until a reset cuts the command. -/
def State.nextDt (ms : Nat) (s : State) : Nat :=
  match s.script with
  | [] => ms
  | t :: _ => if t.rst then t.dt else max ms t.dt

/-- The environment when the next primitive acts. -/
def State.next (ms : Nat) (s : State) : World where
  rx := s.rx ++ s.arrivals
  aux := s.nextAux
  auxSync := ⟨s.nextAux, s.nextAux⟩
  now := s.now + BitVec.ofNat 64 (s.nextDt ms)
  script := s.script.tail

/-- A tick moves the environment and nothing else. -/
theorem spend_eq (t : Tick) (ms : Nat) (s : State) :
    spend t ms s = s.moved ⟨s.rx ++ t.rx, t.aux, ⟨t.aux, t.aux⟩, s.now + BitVec.ofNat 64 ms, s.script.tail⟩ s.t0 [] := by
  simp [spend, settleAux, AuxSync.clock, State.moved]

/-- Everything `advance` can do. -/
theorem advance_eq (ms : Nat) (s : State) :
    advance ms s =
      if s.cutNext then .cut (blockReset (s.moved (s.next ms) s.t0 []))
      else .ret () (s.moved (s.next ms) s.t0 []) := by
  cases h : s.script with
  | nil => simp [advance, h, State.cutNext, State.moved, State.next, State.arrivals, State.nextAux,
      State.nextDt, settleAux, AuxSync.clock]
  | cons t ts => cases hr : t.rst <;> simp [advance, spend_eq, h, hr, State.cutNext, State.next,
      State.arrivals, State.nextAux, State.nextDt]

theorem State.noReset_cutNext {s : State} (h : s.noReset = true) : s.cutNext = false := by
  unfold State.noReset at h
  unfold State.cutNext
  cases hs : s.script with
  | nil => rfl
  | cons t ts => simp_all

theorem advance_ret (ms : Nat) {s : State} (h : s.noReset = true) :
    advance ms s = .ret () (s.moved (s.next ms) s.t0 []) := by
  simp [advance_eq, s.noReset_cutNext h]

/-- What is still to come of the script has no reset when the script has none. -/
theorem State.noReset_moved {s : State} (h : s.noReset = true) {w : World} (hw : w.script <:+ s.script)
    (t0 : Millis) (es : List Event) : (s.moved w t0 es).noReset = true := by
  simp only [State.noReset, List.all_eq_true, State.moved_script] at h ⊢
  exact fun t ht => h t (hw.subset ht)

theorem State.next_script (ms : Nat) (s : State) : (s.next ms).script <:+ s.script :=
  List.tail_suffix _

theorem State.next_rx (ms : Nat) (s : State) : s.rx <+: (s.next ms).rx := ⟨_, rfl⟩

/-! ## Primitives, when no reset cuts them -/

theorem driveM0_ret (l : Bool) {s : State} (h : s.noReset = true) :
    driveM0 l s = .ret () { s.moved (s.next 0) s.t0 [.m0 l] with m0 := l } := by
  simp [driveM0, advance_ret 0 h, emit, State.moved]

theorem auxRead_ret {s : State} (h : s.noReset = true) :
    auxRead s = .ret s.nextAux (s.moved (s.next 0) s.t0 [.aux s.nextAux]) := by
  simp [auxRead, advance_ret 0 h, State.next]

theorem sleep_ret (n : Nat) {s : State} (h : s.noReset = true) :
    sleep n s = .ret () (s.moved (s.next n) s.now [.sleep n]) := by
  have h' : State.noReset { s with t0 := s.now } = true := h
  simp [sleep, advance_ret n h', emit, State.moved, State.next, State.arrivals, State.nextAux, State.nextDt]

theorem txByte_ret (b : Byte) {s : State} (h : s.noReset = true) :
    txByte b s = .ret () (s.moved (s.next 0) s.t0 [.tx b]) := by
  simp [txByte, advance_ret 0 h]

theorem diag_ret (k : DiagKind) (l : Label) {s : State} (h : s.noReset = true) :
    diag k l s = .ret () (s.moved (s.next 0) s.t0 [.diag k l]) := by
  simp [diag, advance_ret 0 h]

/-- The count the next `RxAvail()` returns (`20_memory.md` R47). -/
def State.nextCount (s : State) : Nat :=
  min (s.rx ++ s.arrivals).length (2 ^ s.config.rxCountW - 1)

theorem rxAvail_ret {s : State} (h : s.noReset = true) :
    rxAvail s = .ret s.nextCount (s.moved (s.next 0) s.t0 [.avail s.nextCount]) := by
  simp [rxAvail, advance_ret 0 h, rxCount, State.nextCount, State.next]

/-- The next `RxRead()` takes the oldest byte, whatever arrives before it (R48). -/
theorem rxRead_ret {s : State} (h : s.noReset = true) {b : Byte} {bs : List Byte} (hs : s.rx = b :: bs) :
    rxRead s = .ret b (s.moved { s.next 0 with rx := bs ++ s.arrivals } s.t0 [.rx b]) := by
  have hrx : (s.next 0).rx = b :: (bs ++ s.arrivals) := by simp [State.next, hs]
  simp [rxRead, advance_ret 0 h, hrx, emit, State.moved]

/-- A block of bytes goes out in order with nothing between (R46). -/
theorem txBytes_ret (bs : List Byte) {s : State} (h : s.noReset = true) :
    ∃ w, txBytes bs s = .ret () (s.moved w s.t0 (bs.map .tx)) ∧ w.script <:+ s.script ∧ s.rx <+: w.rx := by
  induction bs generalizing s with
  | nil => exact ⟨s.world, by simp [txBytes], List.suffix_refl _, List.prefix_refl _⟩
  | cons b bs ih =>
    obtain ⟨w, hw, hs, hr⟩ := ih (s.noReset_moved h (s.next_script 0) s.t0 [.tx b])
    refine ⟨w, ?_, hs.trans (s.next_script 0), (s.next_rx 0).trans hr⟩
    simp [txBytes, txByte_ret b h, hw]

/-! ## WAIT_AUX and the mode transitions -/

theorem auxTimeout_ret (l : Label) {s : State} (h : s.noReset = true) :
    auxTimeout l s = .ret () { s.moved (s.next 0) s.t0 [.diag .timeout l] with tmo := true } := by
  simp [auxTimeout, diag_ret .timeout l h]

/-- One poll, and what is left of the wait when AUX is low and the bound not reached. -/
theorem pollAux_ret (l : Label) (n : Nat) {s : State} (h : s.noReset = true) :
    ∃ w k b, pollAux l n s =
        .ret () { s.moved w s.t0 (waitEvents l k b) with tmo := s.tmo || b } ∧
      w.script <:+ s.script ∧ s.rx <+: w.rx := by
  induction n generalizing s with
  | zero =>
    cases hv : s.nextAux with
    | true =>
      exact ⟨s.next 0, 0, false, by simp [pollAux, auxRead_ret h, hv, waitEvents, State.moved],
        s.next_script 0, s.next_rx 0⟩
    | false =>
      let a := s.moved (s.next 0) s.t0 [.aux false]
      let u : State := { a with now := a.now + BitVec.ofNat 64 (a.config.auxTimeoutMs - elapsed a) }
      have hu : u.noReset = true := s.noReset_moved h (s.next_script 0) s.t0 [.aux false]
      refine ⟨u.next 0, 0, true, ?_, (u.next_script 0).trans (s.next_script 0),
        (s.next_rx 0).trans (u.next_rx 0)⟩
      rw [pollAux, auxRead_ret h, hv, Flow.bind_ret, if_neg (by simp)]
      show auxTimeout l u = _
      rw [auxTimeout_ret l hu]
      simp [u, a, waitEvents, State.moved]
  | succ n ih =>
    cases hv : s.nextAux with
    | true =>
      exact ⟨s.next 0, 0, false, by simp [pollAux, auxRead_ret h, hv, waitEvents, State.moved],
        s.next_script 0, s.next_rx 0⟩
    | false =>
      let a := s.moved (s.next 0) s.t0 [.aux false]
      have ha : a.noReset = true := s.noReset_moved h (s.next_script 0) s.t0 [.aux false]
      rw [pollAux, auxRead_ret h, hv, Flow.bind_ret, if_neg (by simp)]
      by_cases hT : a.config.auxTimeoutMs ≤ elapsed a
      · refine ⟨a.next 0, 0, true, ?_, (a.next_script 0).trans (s.next_script 0),
          (s.next_rx 0).trans (a.next_rx 0)⟩
        rw [if_pos hT, auxTimeout_ret l ha]
        simp [a, waitEvents, State.moved]
      · obtain ⟨w, k, b, e, hs, hr⟩ := ih ha
        refine ⟨w, k + 1, b, ?_, hs.trans (s.next_script 0), (s.next_rx 0).trans hr⟩
        rw [if_neg hT, e]
        simp [a, waitEvents, State.moved, List.replicate_succ]

theorem waitAux_ret (l : Label) {s : State} (h : s.noReset = true) :
    ∃ w k b, waitAux l s =
        .ret () { s.moved w s.now (waitEvents l k b) with tmo := s.tmo || b } ∧
      w.script <:+ s.script ∧ s.rx <+: w.rx :=
  pollAux_ret l s.script.length (s := { s with t0 := s.now }) h

theorem modeSwitch_ret (level : Bool) (l : Label) {s : State} (h : s.noReset = true) :
    ∃ w t0 k b, ((driveM0 level s).bind fun _ s =>
          (sleep s.config.modeSettleMs s).bind fun _ s => waitAux l s) =
        .ret () { s.moved w t0 (modeEvents s.config level l k b) with m0 := level, tmo := s.tmo || b } ∧
      w.script <:+ s.script ∧ s.rx <+: w.rx := by
  let a : State := { s.moved (s.next 0) s.t0 [.m0 level] with m0 := level }
  have ha : a.noReset = true := s.noReset_moved h (s.next_script 0) s.t0 [.m0 level]
  let c := a.moved (a.next s.config.modeSettleMs) a.now [.sleep s.config.modeSettleMs]
  have hc : c.noReset = true := a.noReset_moved ha (a.next_script s.config.modeSettleMs) a.now _
  obtain ⟨w, k, b, e, hs, hr⟩ := waitAux_ret l hc
  refine ⟨w, c.now, k, b, ?_, hs.trans ((a.next_script s.config.modeSettleMs).trans (s.next_script 0)),
    (s.next_rx 0).trans ((a.next_rx s.config.modeSettleMs).trans hr)⟩
  rw [driveM0_ret level h, Flow.bind_ret]
  show (sleep s.config.modeSettleMs a).bind _ = _
  rw [sleep_ret _ ha, Flow.bind_ret]
  show waitAux l c = _
  rw [e]
  simp [a, c, State.moved, modeEvents]

theorem enterConfig_ret {s : State} (h : s.noReset = true) :
    ∃ w t0 k b, enterConfig s =
        .ret () { s.moved w t0 (modeEvents s.config true .config k b) with m0 := true, tmo := s.tmo || b } ∧
      w.script <:+ s.script ∧ s.rx <+: w.rx :=
  modeSwitch_ret true .config h

theorem enterNormal_ret {s : State} (h : s.noReset = true) :
    ∃ w t0 k b, enterNormal s =
        .ret () { s.moved w t0 (modeEvents s.config false .normal k b) with m0 := false, tmo := s.tmo || b } ∧
      w.script <:+ s.script ∧ s.rx <+: w.rx :=
  modeSwitch_ret false .normal h

/-! ## DRAIN -/

theorem scriptBytes_tail (ts : List Tick) : scriptBytes ts.tail ≤ scriptBytes ts := by
  cases ts <;> simp [scriptBytes]

theorem State.arrivals_scriptBytes {s : State} (hf : s.flood = []) :
    s.arrivals.length + scriptBytes s.script.tail = scriptBytes s.script := by
  cases hs : s.script with
  | nil => simp [State.arrivals, hs, hf, scriptBytes]
  | cons t ts => simp [State.arrivals, hs, scriptBytes]

/-- With enough fuel for every byte that can come, the loop returns; and, as the count can tell a byte from none,
it discards everything that was queued and the queue is empty when the count that ended it was taken. -/
theorem drainLoop_ret (fuel : Nat) {s : State} (h : s.noReset = true) (hf : s.flood = [])
    (hn : s.rx.length + scriptBytes s.script < fuel) :
    ∃ w ps, drainLoop fuel s = .ret () (s.moved w s.t0 (drainEvents ps)) ∧ w.script <:+ s.script ∧
      (1 ≤ s.config.rxCountW → w.rx = [] ∧ s.rx <+: ps.map (·.2)) := by
  induction fuel generalizing s with
  | zero => omega
  | succ fuel ih =>
    by_cases hz : s.nextCount = 0
    · refine ⟨s.next 0, [], ?_, s.next_script 0, fun hw => ?_⟩
      · simp [drainLoop, rxAvail_ret h, hz, drainEvents]
      · have hp : 2 ≤ 2 ^ s.config.rxCountW := Nat.pow_le_pow_right (n := 2) (by omega) hw
        have hrx : s.rx ++ s.arrivals = [] := by
          simp only [State.nextCount] at hz
          exact List.eq_nil_of_length_eq_zero (by omega)
        exact ⟨hrx, by simp [(List.append_eq_nil_iff.mp hrx).1]⟩
    · obtain ⟨b, bs, hbs⟩ : ∃ b bs, s.rx ++ s.arrivals = b :: bs := by
        cases hrx : s.rx ++ s.arrivals with
        | nil => simp [State.nextCount, hrx] at hz
        | cons b bs => exact ⟨b, bs, rfl⟩
      let a := s.moved (s.next 0) s.t0 [.avail s.nextCount]
      have ha : a.noReset = true := s.noReset_moved h (s.next_script 0) _ _
      have harx : a.rx = b :: bs := hbs
      let c := a.moved { a.next 0 with rx := bs ++ a.arrivals } a.t0 [.rx b]
      have hc : c.noReset = true := a.noReset_moved ha (a.next_script 0) a.t0 [.rx b]
      have hlen : c.rx.length + scriptBytes c.script < fuel := by
        have e1 : s.arrivals.length + scriptBytes s.script.tail = scriptBytes s.script :=
          State.arrivals_scriptBytes hf
        have e2 : a.arrivals.length + scriptBytes a.script.tail = scriptBytes a.script :=
          State.arrivals_scriptBytes (s := a) hf
        have e3 : (s.rx ++ s.arrivals).length = bs.length + 1 := by rw [hbs]; rfl
        have e4 : a.script = s.script.tail := rfl
        have e5 : c.rx = bs ++ a.arrivals := rfl
        have e6 : c.script = a.script.tail := rfl
        rw [List.length_append] at e3
        rw [e5, e6, List.length_append]
        rw [e4] at e2 ⊢
        omega
      obtain ⟨w, ps, e, hs, hr⟩ := ih (s := c) hc hf hlen
      refine ⟨w, (s.nextCount, b) :: ps, ?_, hs.trans ((a.next_script 0).trans (s.next_script 0)),
        fun hw => ⟨(hr hw).1, ?_⟩⟩
      · rw [drainLoop, rxAvail_ret h, Flow.bind_ret, if_neg hz]
        show (rxRead a).bind _ = _
        rw [rxRead_ret ha harx, Flow.bind_ret]
        show drainLoop fuel c = _
        rw [e]
        simp [a, c, State.moved, drainEvents]
      · have h1 : bs <+: ps.map (·.2) := (List.prefix_append bs a.arrivals).trans (hr hw).2
        have h2 : s.rx <+: b :: bs := by rw [← hbs]; exact List.prefix_append _ _
        exact h2.trans (by simpa using h1)

/-- DRAIN (R150): it returns, it discards every byte that was present, and it leaves the queue empty. -/
theorem drain_ret {s : State} (h : s.noReset = true) (hf : s.flood = []) :
    ∃ w ps, drain s = .ret () (s.moved w s.t0 (drainEvents ps)) ∧ w.script <:+ s.script ∧
      (1 ≤ s.config.rxCountW → w.rx = [] ∧ s.rx <+: ps.map (·.2)) :=
  drainLoop_ret _ h hf (Nat.lt_succ_self _)

/-! ## The parses -/

/-- The next `RxRead()` takes the head of what is already queued (R48). -/
theorem rxRead_head {s : State} (h : s.noReset = true) {b : Byte} {bs : List Byte} (hs : b :: bs <+: s.rx) :
    ∃ w, rxRead s = .ret b (s.moved w s.t0 [.rx b]) ∧ w.script <:+ s.script ∧ bs <+: w.rx ∧
      (s.moved w s.t0 [.rx b]).noReset = true := by
  obtain ⟨rest, hrest⟩ := hs
  refine ⟨{ s.next 0 with rx := (bs ++ rest) ++ s.arrivals }, rxRead_ret h hrest.symm, s.next_script 0, ?_,
    s.noReset_moved h (s.next_script 0) s.t0 [.rx b]⟩
  exact (List.prefix_append bs rest).trans (List.prefix_append _ _)

/-- The queue the next `RxAvail()` counts. -/
def State.nextQueue (s : State) : List Byte := s.rx ++ s.arrivals

theorem parseCfg_short {s : State} (h : s.noReset = true) (hn : s.nextCount < 6) :
    parseCfg s = .ret .insufficientData (s.moved (s.next 0) s.t0 [.avail s.nextCount]) := by
  simp [parseCfg, rxAvail_ret h, hn]

theorem parseVer_short {s : State} (h : s.noReset = true) (hn : s.nextCount < 4) :
    parseVer s = .ret .insufficientData (s.moved (s.next 0) s.t0 [.avail s.nextCount]) := by
  simp [parseVer, rxAvail_ret h, hn]

theorem parseRssi_short {s : State} (h : s.noReset = true) (hn : s.nextCount < 3) :
    parseRssi s = .ret .insufficientData (s.moved (s.next 0) s.t0 [.avail s.nextCount]) := by
  simp [parseRssi, rxAvail_ret h, hn]

theorem parseCfg_header {s : State} (h : s.noReset = true) (hn : ¬ s.nextCount < 6) {b : Byte}
    {bs : List Byte} (hq : b :: bs <+: s.nextQueue) (hb : b ≠ 0xC0) :
    ∃ w, parseCfg s = .ret .protocolMismatch (s.moved w s.t0 [.avail s.nextCount, .rx b]) ∧
      w.script <:+ s.script ∧ bs <+: w.rx := by
  let a := s.moved (s.next 0) s.t0 [.avail s.nextCount]
  have ha : a.noReset = true := s.noReset_moved h (s.next_script 0) s.t0 [.avail s.nextCount]
  obtain ⟨w, e, hs, hr, -⟩ := rxRead_head ha hq
  refine ⟨w, ?_, hs.trans (s.next_script 0), hr⟩
  rw [parseCfg, rxAvail_ret h, Flow.bind_ret, if_neg hn]
  show (rxRead a).bind _ = _
  rw [e, Flow.bind_ret, if_pos hb]
  simp [a]

theorem parseRssi_header {s : State} (h : s.noReset = true) (hn : ¬ s.nextCount < 3) {b : Byte}
    {bs : List Byte} (hq : b :: bs <+: s.nextQueue) (hb : b ≠ 0xC5) :
    ∃ w, parseRssi s = .ret .protocolMismatch (s.moved w s.t0 [.avail s.nextCount, .rx b]) ∧
      w.script <:+ s.script ∧ bs <+: w.rx := by
  let a := s.moved (s.next 0) s.t0 [.avail s.nextCount]
  have ha : a.noReset = true := s.noReset_moved h (s.next_script 0) s.t0 [.avail s.nextCount]
  obtain ⟨w, e, hs, hr, -⟩ := rxRead_head ha hq
  refine ⟨w, ?_, hs.trans (s.next_script 0), hr⟩
  rw [parseRssi, rxAvail_ret h, Flow.bind_ret, if_neg hn]
  show (rxRead a).bind _ = _
  rw [e, Flow.bind_ret, if_pos hb]
  simp [a]

theorem parseCfg_ok {s : State} (h : s.noReset = true) (hn : ¬ s.nextCount < 6) {g : Image}
    {rest : List Byte} (hq : 0xC0 :: g.bytes ++ rest <+: s.nextQueue) :
    ∃ w, parseCfg s = .ret .ok
        { s.moved w s.t0 (.avail s.nextCount :: (0xC0 :: g.bytes).map .rx) with cfg := g } ∧
      w.script <:+ s.script ∧ rest <+: w.rx := by
  let a := s.moved (s.next 0) s.t0 [.avail s.nextCount]
  have ha : a.noReset = true := s.noReset_moved h (s.next_script 0) s.t0 [.avail s.nextCount]
  obtain ⟨w0, e0, s0, r0, h0⟩ := rxRead_head ha hq
  obtain ⟨w1, e1, s1, r1, h1⟩ := rxRead_head h0 r0
  obtain ⟨w2, e2, s2, r2, h2⟩ := rxRead_head h1 r1
  obtain ⟨w3, e3, s3, r3, h3⟩ := rxRead_head h2 r2
  obtain ⟨w4, e4, s4, r4, h4⟩ := rxRead_head h3 r3
  obtain ⟨w5, e5, s5, r5, -⟩ := rxRead_head h4 r4
  refine ⟨w5, ?_, s5.trans (s4.trans (s3.trans (s2.trans (s1.trans (s0.trans (s.next_script 0)))))), r5⟩
  rw [parseCfg, rxAvail_ret h, Flow.bind_ret, if_neg hn]
  show (rxRead a).bind _ = _
  rw [e0, Flow.bind_ret, if_neg (by simp), e1, Flow.bind_ret, e2, Flow.bind_ret,
    e3, Flow.bind_ret, e4, Flow.bind_ret, e5, Flow.bind_ret]
  simp [a, Image.bytes]

theorem parseVer_ok {s : State} (h : s.noReset = true) (hn : ¬ s.nextCount < 4) {v : Version}
    {rest : List Byte} (hq : v.bytes ++ rest <+: s.nextQueue) :
    ∃ w, parseVer s = .ret .ok
        { s.moved w s.t0 (.avail s.nextCount :: v.bytes.map .rx) with ver := v } ∧
      w.script <:+ s.script ∧ rest <+: w.rx := by
  let a := s.moved (s.next 0) s.t0 [.avail s.nextCount]
  have ha : a.noReset = true := s.noReset_moved h (s.next_script 0) s.t0 [.avail s.nextCount]
  obtain ⟨w1, e1, s1, r1, h1⟩ := rxRead_head ha hq
  obtain ⟨w2, e2, s2, r2, h2⟩ := rxRead_head h1 r1
  obtain ⟨w3, e3, s3, r3, h3⟩ := rxRead_head h2 r2
  obtain ⟨w4, e4, s4, r4, -⟩ := rxRead_head h3 r3
  refine ⟨w4, ?_, s4.trans (s3.trans (s2.trans (s1.trans (s.next_script 0)))), r4⟩
  rw [parseVer, rxAvail_ret h, Flow.bind_ret, if_neg hn]
  show (rxRead a).bind _ = _
  rw [e1, Flow.bind_ret, e2, Flow.bind_ret, e3, Flow.bind_ret, e4,
    Flow.bind_ret]
  simp [a, Version.bytes]

theorem parseRssi_ok {s : State} (h : s.noReset = true) (hn : ¬ s.nextCount < 3) {r n : Byte}
    {rest : List Byte} (hq : [0xC5, r, n] ++ rest <+: s.nextQueue) :
    ∃ w, parseRssi s = .ret .ok
        { s.moved w s.t0 [.avail s.nextCount, .rx 0xC5, .rx r, .rx n] with rssi := r, noise := n } ∧
      w.script <:+ s.script ∧ rest <+: w.rx := by
  let a := s.moved (s.next 0) s.t0 [.avail s.nextCount]
  have ha : a.noReset = true := s.noReset_moved h (s.next_script 0) s.t0 [.avail s.nextCount]
  obtain ⟨w1, e1, s1, r1, h1⟩ := rxRead_head ha hq
  obtain ⟨w2, e2, s2, r2, h2⟩ := rxRead_head h1 r1
  obtain ⟨w3, e3, s3, r3, -⟩ := rxRead_head h2 r2
  refine ⟨w3, ?_, s3.trans (s2.trans (s1.trans (s.next_script 0))), r3⟩
  rw [parseRssi, rxAvail_ret h, Flow.bind_ret, if_neg hn]
  show (rxRead a).bind _ = _
  rw [e1, Flow.bind_ret, if_neg (by simp), e2, Flow.bind_ret, e3, Flow.bind_ret]
  simp [a]

/-- A count of at least `k` finds `k` bytes in the queue (R47: the port never counts more than there are). -/
theorem State.nextCount_le (s : State) : s.nextCount ≤ s.nextQueue.length := by
  simp only [State.nextCount, State.nextQueue]
  omega

end Sys2Proof.Machine
end

