-- ==== Sys2Proof/Laws/Commands.lean ====
section
/-! SUPPORT. What the parts of the protocol commands do when no reset cuts them: the views of a trace, the parse with
its outcome, the request, and the way out. -/

namespace Sys2Proof.Machine

/-! ## Views of a trace -/

@[simp] theorem driven_append (a b : List Event) : driven (a ++ b) = driven a ++ driven b := by
  simp [driven]

@[simp] theorem diagnostics_append (a b : List Event) : diagnostics (a ++ b) = diagnostics a ++ diagnostics b :=
  List.flatMap_append

@[simp] theorem failureDiagnostics_append (a b : List Event) :
    failureDiagnostics (a ++ b) = failureDiagnostics a ++ failureDiagnostics b := by
  simp [failureDiagnostics]

@[simp] theorem hasTimeout_append (a b : List Event) : hasTimeout (a ++ b) = (hasTimeout a || hasTimeout b) := by
  simp [hasTimeout]

/-- The TX stream is a view of the driven events. -/
theorem txStream_driven (tr : List Event) : txStream (driven tr) = txStream tr := by
  induction tr with
  | nil => rfl
  | cons e tr ih => cases e <;> simp_all [driven, txStream, List.filter_cons, Event.isDriven, Event.txByte]

/-- The M0 events are a view of the driven events. -/
theorem m0Events_driven (tr : List Event) : m0Events (driven tr) = m0Events tr := by
  induction tr with
  | nil => rfl
  | cons e tr ih => cases e <;> simp_all [driven, m0Events, List.filter_cons, Event.isDriven, Event.m0Level]

/-- What the views of a command's events say: the driven events, the failure diagnostics, and whether a wait timed
out. -/
def Views (es d : List Event) (f : List (DiagKind × Label)) (b : Bool) : Prop :=
  driven es = d ∧ failureDiagnostics es = f ∧ hasTimeout es = b

theorem Views.append {es es' d d' : List Event} {f f' : List (DiagKind × Label)} {b b' : Bool}
    (h : Views es d f b) (h' : Views es' d' f' b') : Views (es ++ es') (d ++ d') (f ++ f') (b || b') := by
  obtain ⟨rfl, rfl, rfl⟩ := h
  obtain ⟨rfl, rfl, rfl⟩ := h'
  exact ⟨driven_append _ _, failureDiagnostics_append _ _, hasTimeout_append _ _⟩

/-- Events that none of the views shows. -/
def Event.quiet : Event → Bool
  | .aux _ => true
  | .avail _ => true
  | .rx _ => true
  | .begin _ => true
  | .print _ => true
  | .refused => true
  | _ => false

/-- Nothing of `es` is driven, reported as a failure or a timeout. -/
def Silent (es : List Event) : Prop := Views es [] [] false

theorem silent_of_quiet {es : List Event} (h : es.all Event.quiet = true) : Silent es := by
  induction es with
  | nil => exact ⟨rfl, rfl, rfl⟩
  | cons e es ih =>
    rw [List.all_cons, Bool.and_eq_true] at h
    have h1 : Views [e] [] [] false := by
      cases e <;> first | exact ⟨rfl, rfl, rfl⟩ | cases h.1
    exact h1.append (ih h.2)

theorem drainEvents_silent (ps : List (Nat × Byte)) : Silent (drainEvents ps) := by
  refine silent_of_quiet ?_
  induction ps with
  | nil => rfl
  | cons p ps ih => exact ih

theorem replicate_quiet (k : Nat) {e : Event} (h : e.quiet = true) : (List.replicate k e).all Event.quiet = true := by
  rw [List.all_eq_true]
  intro x hx
  rw [List.eq_of_mem_replicate hx]
  exact h

theorem waitEvents_views (l : Label) (k : Nat) (b : Bool) : Views (waitEvents l k b) [] [] b := by
  have h : Silent (List.replicate k (.aux false)) := silent_of_quiet (replicate_quiet k rfl)
  cases b with
  | false => exact h.append (d' := []) (f' := []) (b' := false) ⟨rfl, rfl, rfl⟩
  | true => exact h.append (d' := []) (f' := []) (b' := true) ⟨rfl, rfl, rfl⟩

theorem modeEvents_views (c : Config) (level : Bool) (l : Label) (k : Nat) (b : Bool) :
    Views (modeEvents c level l k b) [.m0 level, .sleep c.modeSettleMs] [] b := by
  have h : Views [.m0 level, .sleep c.modeSettleMs] [.m0 level, .sleep c.modeSettleMs] [] false := ⟨rfl, rfl, rfl⟩
  simpa [modeEvents] using h.append (waitEvents_views l k b)

/-! ## Parses -/

/-- PARSE_CFG (R158): by outcome, and CFG changes only on success. -/
theorem parseCfg_ret {s : State} (h : s.noReset = true) :
    ∃ w es r g, parseCfg s = .ret r { s.moved w s.t0 es with cfg := g } ∧ w.script <:+ s.script ∧
      (r = .ok ∨ (r = .insufficientData ∨ r = .protocolMismatch) ∧ g = s.cfg) ∧ Silent es := by
  by_cases hn : s.nextCount < 6
  · exact ⟨_, _, _, s.cfg, parseCfg_short h hn, s.next_script 0, .inr ⟨.inl rfl, rfl⟩, silent_of_quiet rfl⟩
  · have hle := s.nextCount_le
    obtain ⟨b, b1, b2, b3, b4, b5, rest, hq⟩ : ∃ b b1 b2 b3 b4 b5 rest, s.nextQueue = b :: b1 :: b2 :: b3 :: b4 :: b5 :: rest := by
      match hm : s.nextQueue with
      | b :: b1 :: b2 :: b3 :: b4 :: b5 :: rest => exact ⟨b, b1, b2, b3, b4, b5, rest, rfl⟩
      | [] | [_] | [_, _] | [_, _, _] | [_, _, _, _] | [_, _, _, _, _] => rw [hm] at hle; simp at hle; omega
    by_cases hb : b = 0xC0
    · subst hb
      obtain ⟨w, e, hs, -⟩ := parseCfg_ok (g := ⟨b1, b2, b3, b4, b5⟩) (rest := rest) h hn
        (by rw [hq]; exact List.prefix_refl _)
      exact ⟨w, _, _, _, e, hs, .inl rfl, silent_of_quiet rfl⟩
    · obtain ⟨w, e, hs, -⟩ := parseCfg_header (b := b) (bs := b1 :: b2 :: b3 :: b4 :: b5 :: rest) h hn
        (by rw [hq]) hb
      exact ⟨w, _, _, s.cfg, e, hs, .inr ⟨.inr rfl, rfl⟩, silent_of_quiet rfl⟩

/-- PARSE_VER (R162): by outcome, and VER changes only on success. -/
theorem parseVer_ret {s : State} (h : s.noReset = true) :
    ∃ w es r v, parseVer s = .ret r { s.moved w s.t0 es with ver := v } ∧ w.script <:+ s.script ∧
      (r = .ok ∨ r = .insufficientData ∧ v = s.ver) ∧ Silent es := by
  by_cases hn : s.nextCount < 4
  · exact ⟨_, _, _, s.ver, parseVer_short h hn, s.next_script 0, .inr ⟨rfl, rfl⟩, silent_of_quiet rfl⟩
  · have hle := s.nextCount_le
    obtain ⟨b0, b1, b2, b3, rest, hq⟩ : ∃ b0 b1 b2 b3 rest, s.nextQueue = b0 :: b1 :: b2 :: b3 :: rest := by
      match hm : s.nextQueue with
      | b0 :: b1 :: b2 :: b3 :: rest => exact ⟨b0, b1, b2, b3, rest, rfl⟩
      | [] | [_] | [_, _] | [_, _, _] => rw [hm] at hle; simp at hle; omega
    obtain ⟨w, e, hs, -⟩ := parseVer_ok (v := ⟨b0, b1, b2, b3⟩) (rest := rest) h hn
      (by rw [hq]; exact List.prefix_refl _)
    exact ⟨w, _, _, _, e, hs, .inl rfl, silent_of_quiet rfl⟩

/-- PARSE_RSSI (R164): by outcome, and RSSI and NOISE change only on success. -/
theorem parseRssi_ret {s : State} (h : s.noReset = true) :
    ∃ w es r rssi noise, parseRssi s = .ret r { s.moved w s.t0 es with rssi := rssi, noise := noise } ∧
      w.script <:+ s.script ∧
      (r = .ok ∨ (r = .insufficientData ∨ r = .protocolMismatch) ∧ rssi = s.rssi ∧ noise = s.noise) ∧
      Silent es := by
  by_cases hn : s.nextCount < 3
  · exact ⟨_, _, _, s.rssi, s.noise, parseRssi_short h hn, s.next_script 0, .inr ⟨.inl rfl, rfl, rfl⟩,
      silent_of_quiet rfl⟩
  · have hle := s.nextCount_le
    obtain ⟨b, r, n, rest, hq⟩ : ∃ b r n rest, s.nextQueue = b :: r :: n :: rest := by
      match hm : s.nextQueue with
      | b :: r :: n :: rest => exact ⟨b, r, n, rest, rfl⟩
      | [] | [_] | [_, _] => rw [hm] at hle; simp at hle; omega
    by_cases hb : b = 0xC5
    · subst hb
      obtain ⟨w, e, hs, -⟩ := parseRssi_ok (r := r) (n := n) (rest := rest) h hn
        (by rw [hq]; exact List.prefix_refl _)
      exact ⟨w, _, _, _, _, e, hs, .inl rfl, silent_of_quiet rfl⟩
    · obtain ⟨w, e, hs, -⟩ := parseRssi_header (b := b) (bs := r :: n :: rest) h hn (by rw [hq]) hb
      exact ⟨w, _, _, s.rssi, s.noise, e, hs, .inr ⟨.inr rfl, rfl, rfl⟩, silent_of_quiet rfl⟩

/-- The failure exit (`60_exceptions.md` R228): the outcome is settled, and a failure is reported once. -/
theorem settleOutcome_ret (r : CmdResult) (l : Label) {s : State} (h : s.noReset = true) :
    ∃ w es, settleOutcome r (some l) s = .ret () { s.moved w s.t0 es with outcome := r } ∧
      w.script <:+ s.script ∧ Views es [] (reportOf r l) false := by
  have hd : ∀ k, diag k l { s with outcome := r } =
      .ret () { s.moved (s.next 0) s.t0 [.diag k l] with outcome := r } := fun k => diag_ret k l h
  cases r with
  | ok => exact ⟨s.world, [], by simp [settleOutcome, CmdResult.diagKind, State.moved, State.world],
      List.suffix_refl _, rfl, rfl, rfl⟩
  | insufficientData => exact ⟨s.next 0, [.diag .insufficientData l], hd _, s.next_script 0, rfl, rfl, rfl⟩
  | protocolMismatch => exact ⟨s.next 0, [.diag .protocolMismatch l], hd _, s.next_script 0, rfl, rfl, rfl⟩
  | verificationMismatch =>
    exact ⟨s.next 0, [.diag .verificationMismatch l], hd _, s.next_script 0, rfl, rfl, rfl⟩

/-- Inside a write-verify the parse reports nothing (`43_write_verify.md` R184). -/
theorem settleOutcome_none (r : CmdResult) (s : State) : settleOutcome r none s = .ret () { s with outcome := r } := by
  cases r <;> rfl

/-! ## Sequences -/

/-- A phase that returns hands over to the next. -/
theorem runSeq_ret (p : Phase) (ps : List Phase) (s : State) {t : State}
    (h : runPhase p { s with seq := p :: ps } = .ret () t) : runSeq (p :: ps) s = runSeq ps t := by
  rw [runSeq_cons, h, Flow.bind_ret]

theorem State.undisturbed_noReset {s : State} (h : s.undisturbed = true) : s.noReset = true := by
  simp only [State.undisturbed, Bool.and_eq_true] at h
  exact h.2

theorem State.undisturbed_flood {s : State} (h : s.undisturbed = true) : s.flood = [] := by
  simp only [State.undisturbed, Bool.and_eq_true, List.isEmpty_iff] at h
  exact h.1

/-- What has only moved on along its script, with the same flood, is still undisturbed. -/
theorem State.undisturbed_of {s t : State} (h : s.undisturbed = true) (hs : t.script <:+ s.script)
    (hf : t.flood = s.flood) : t.undisturbed = true := by
  simp only [State.undisturbed, State.noReset, Bool.and_eq_true, List.isEmpty_iff, List.all_eq_true] at h ⊢
  exact ⟨hf.trans h.1, fun x hx => h.2 x (hs.subset hx)⟩

/-- ENTER_CONFIG and the drain before a request. -/
theorem runSeq_enter_drain (ps : List Phase) {s : State} (h : s.undisturbed = true) :
    ∃ t w t0 b q es, runSeq (.configEnter :: .drainPre :: ps) s = runSeq ps t ∧
      t = { s.moved w t0 es with m0 := true, tmo := s.tmo || b, seq := q } ∧ t.undisturbed = true ∧
      Views es [.m0 true, .sleep s.config.modeSettleMs] [] b := by
  let a : State := { s with seq := .configEnter :: .drainPre :: ps }
  obtain ⟨w, t0, k, b, e, hs, -⟩ := enterConfig_ret (s := a) (State.undisturbed_noReset h)
  let c : State := { a.moved w t0 (modeEvents a.config true .config k b) with m0 := true, tmo := a.tmo || b }
  let d : State := { c with seq := .drainPre :: ps }
  have hd : d.undisturbed = true := State.undisturbed_of h hs rfl
  obtain ⟨w', qs, e', hs', -⟩ := drain_ret (s := d) (State.undisturbed_noReset hd) (State.undisturbed_flood hd)
  refine ⟨_, w', t0, b, .drainPre :: ps, modeEvents s.config true .config k b ++ drainEvents qs,
    (runSeq_ret .configEnter _ s e).trans (runSeq_ret .drainPre ps c e'), ?_, State.undisturbed_of hd hs' rfl, ?_⟩
  · simp [d, c, a, State.moved]
  · simpa using (modeEvents_views s.config true .config k b).append (drainEvents_silent qs)

/-- The three bytes of a request and the settle sleep after them. -/
theorem runSeq_send_delay (op : TripleOp) (dl : Delay) (ps : List Phase) {s : State} (h : s.undisturbed = true) :
    ∃ t w t0 q es, runSeq (.send (.triple op) :: .delay dl :: ps) s = runSeq ps t ∧
      t = { s.moved w t0 es with seq := q } ∧ t.undisturbed = true ∧
      Views es [.tx op.code, .tx op.code, .tx op.code, .sleep (dl.millis s.config)] [] false := by
  let a : State := { s with seq := .send (.triple op) :: .delay dl :: ps }
  obtain ⟨w, e, hs, -⟩ := txBytes_ret [op.code, op.code, op.code] (s := a) (State.undisturbed_noReset h)
  let b : State := a.moved w a.t0 ([op.code, op.code, op.code].map .tx)
  let c : State := { b with seq := .delay dl :: ps }
  have hc : c.undisturbed = true := State.undisturbed_of h hs rfl
  have e' := sleep_ret (dl.millis c.config) (State.undisturbed_noReset hc)
  refine ⟨_, c.next (dl.millis c.config), c.now, .delay dl :: ps,
    [.tx op.code, .tx op.code, .tx op.code, .sleep (dl.millis s.config)],
    (runSeq_ret (.send (.triple op)) _ s e).trans (runSeq_ret (.delay dl) ps b e'), ?_,
    State.undisturbed_of hc (c.next_script (dl.millis c.config)) rfl, rfl, rfl, rfl⟩
  simp [c, b, a, State.moved]

/-- SEND_WRITE and the settle sleep after it. -/
theorem runSeq_write_delay (op : WriteOp) (dl : Delay) (ps : List Phase) {s : State} (h : s.undisturbed = true) :
    ∃ t w t0 q es, runSeq (.send (.write op) :: .delay dl :: ps) s = runSeq ps t ∧
      t = { s.moved w t0 es with seq := q } ∧ t.undisturbed = true ∧
      Views es ((op.code :: s.intended.bytes).map .tx ++ [.sleep (dl.millis s.config)]) [] false := by
  let a : State := { s with seq := .send (.write op) :: .delay dl :: ps }
  obtain ⟨w, e, hs, -⟩ := txBytes_ret (op.code :: s.intended.bytes) (s := a) (State.undisturbed_noReset h)
  let b : State := a.moved w a.t0 ((op.code :: s.intended.bytes).map .tx)
  let c : State := { b with seq := .delay dl :: ps }
  have hc : c.undisturbed = true := State.undisturbed_of h hs rfl
  have e' := sleep_ret (dl.millis c.config) (State.undisturbed_noReset hc)
  refine ⟨_, c.next (dl.millis c.config), c.now, .delay dl :: ps,
    (op.code :: s.intended.bytes).map .tx ++ [.sleep (dl.millis s.config)],
    (runSeq_ret (.send (.write op)) _ s e).trans (runSeq_ret (.delay dl) ps b e'), ?_,
    State.undisturbed_of hc (c.next_script (dl.millis c.config)) rfl, rfl, rfl, rfl⟩
  simp [c, b, a, State.moved]

/-- The phase Done (R18, R20) when no reset falls on it. -/
theorem runSeq_done {s : State} (h : s.noReset = true) :
    runSeq [.done] s = .ret () { s.moved (s.next 0) s.t0 [.done s.outcome] with
      seq := [], op := none, status := s.outcome.code, resultValid := true } := by
  rw [runSeq_cons]
  show ((advance 0 { s with seq := [.done] }).bind _).bind _ = _
  rw [advance_ret 0 (s := { s with seq := [.done] }) h]
  simp [finish, emit, toIdle, State.moved, State.next, State.arrivals, State.nextAux, State.nextDt]

/-- The way out of every protocol command: ENTER_NORMAL and Done. -/
theorem runSeq_exit {s : State} (h : s.noReset = true) :
    ∃ w t0 b es, runSeq [.normalExit, .done] s =
        .ret () { s.moved w t0 es with
          m0 := false, seq := [], op := none, status := s.outcome.code, tmo := s.tmo || b, resultValid := true } ∧
      Views es [.m0 false, .sleep s.config.modeSettleMs, .done s.outcome] [] b := by
  let a : State := { s with seq := [.normalExit, .done] }
  obtain ⟨w, t0, k, b, e, hs, -⟩ := enterNormal_ret (s := a) h
  let c : State := { a.moved w t0 (modeEvents s.config false .normal k b) with m0 := false, tmo := s.tmo || b }
  have hc : c.noReset = true := s.noReset_moved h hs t0 []
  have hd : Views [.done s.outcome] [.done s.outcome] [] false := ⟨rfl, rfl, rfl⟩
  refine ⟨c.next 0, t0, b, modeEvents s.config false .normal k b ++ [.done s.outcome], ?_, ?_⟩
  · rw [runSeq_ret .normalExit [.done] s e]
    show runSeq [.done] c = _
    rw [runSeq_done hc]
    simp [State.moved, a, c]
  · simpa using (modeEvents_views s.config false .normal k b).append hd

/-- A register accessor, BEGIN or PRINT_CONFIG: the step of Local, then Done, when no reset falls on them. What the
environment does meanwhile does not depend on which command it is. -/
theorem runCommand_local {s : State} (h : s.noReset = true) :
    ∃ w, s.rx <+: w.rx ∧ w.script <:+ s.script ∧ ∀ (i : Instr) (o : LocalOp),
      runCommand i [.localStep o, .done] s = .next (State.completedOk w (localEffect o s)) := by
  let a := s.moved (s.next 0) s.t0 []
  refine ⟨a.next 0, (s.next_rx 0).trans (a.next_rx 0), (a.next_script 0).trans (s.next_script 0), fun i o => ?_⟩
  let b : State := { accept i s with seq := [.localStep o, .done] }
  let c : State := localEffect o (b.moved (b.next 0) b.t0 [])
  have hb : runPhase (.localStep o) b = .ret () c := by
    show (advance 0 b).bind _ = _
    rw [advance_ret 0 (s := b) h]
    rfl
  have hs : c.script <:+ s.script := by cases o <;> exact s.next_script 0
  have hc : c.noReset = true := by
    simp only [State.noReset, List.all_eq_true] at h ⊢
    exact fun t ht => h t (hs.subset ht)
  rw [runCommand, runSeq_ret (.localStep o) [.done] _ hb, runSeq_done hc]
  cases o <;> simp [c, b, a, localEffect, accept, State.completedOk, State.moved, State.next, State.arrivals,
    State.nextAux, State.nextDt, emit, CmdResult.code]

/-- DRAIN inside a command. -/
theorem runSeq_drainPost (ps : List Phase) {s : State} (h : s.undisturbed = true) :
    ∃ t w q es, runSeq (.drainPost :: ps) s = runSeq ps t ∧ t = { s.moved w s.t0 es with seq := q } ∧
      t.undisturbed = true ∧ Silent es := by
  let a : State := { s with seq := .drainPost :: ps }
  obtain ⟨w, qs, e, hs, -⟩ := drain_ret (s := a) (State.undisturbed_noReset h) (State.undisturbed_flood h)
  exact ⟨_, w, .drainPost :: ps, drainEvents qs, runSeq_ret .drainPost ps s e, rfl, State.undisturbed_of h hs rfl,
    drainEvents_silent qs⟩

/-- ParseResponse of READ_CONFIG with its failure diagnostic (R154, R157). -/
theorem runSeq_parseCfg (l : Label) (ps : List Phase) {s : State} (h : s.undisturbed = true) :
    ∃ t w q es r g, runSeq (.parseResponse .cfg (some l) :: ps) s = runSeq ps t ∧
      t = { s.moved w s.t0 es with cfg := g, outcome := r, seq := q } ∧ t.undisturbed = true ∧
      (r = .ok ∨ (r = .insufficientData ∨ r = .protocolMismatch) ∧ g = s.cfg) ∧
      Views es [] (reportOf r l) false := by
  let a : State := { s with seq := .parseResponse .cfg (some l) :: ps }
  obtain ⟨w, es, r, g, e, hs, hr, hsil⟩ := parseCfg_ret (s := a) (State.undisturbed_noReset h)
  let c : State := { a.moved w a.t0 es with cfg := g }
  have hc : c.undisturbed = true := State.undisturbed_of h hs rfl
  obtain ⟨w', es', e', hs', hv⟩ := settleOutcome_ret r l (s := c) (State.undisturbed_noReset hc)
  have hret : runPhase (.parseResponse .cfg (some l)) a = .ret () { c.moved w' c.t0 es' with outcome := r } := by
    show (parseCfg a).bind _ = _
    rw [e, Flow.bind_ret]
    exact e'
  refine ⟨_, w', .parseResponse .cfg (some l) :: ps, es ++ es', r, g, runSeq_ret _ ps s hret, ?_,
    State.undisturbed_of hc hs' rfl, hr, hsil.append hv⟩
  simp [c, a, State.moved]

/-- ParseResponse of READ_VERSION (R161). -/
theorem runSeq_parseVer (l : Label) (ps : List Phase) {s : State} (h : s.undisturbed = true) :
    ∃ t w q es r v, runSeq (.parseResponse .ver (some l) :: ps) s = runSeq ps t ∧
      t = { s.moved w s.t0 es with ver := v, outcome := r, seq := q } ∧ t.undisturbed = true ∧
      (r = .ok ∨ r = .insufficientData ∧ v = s.ver) ∧
      Views es [] (reportOf r l) false := by
  let a : State := { s with seq := .parseResponse .ver (some l) :: ps }
  obtain ⟨w, es, r, v, e, hs, hr, hsil⟩ := parseVer_ret (s := a) (State.undisturbed_noReset h)
  let c : State := { a.moved w a.t0 es with ver := v }
  have hc : c.undisturbed = true := State.undisturbed_of h hs rfl
  obtain ⟨w', es', e', hs', hv⟩ := settleOutcome_ret r l (s := c) (State.undisturbed_noReset hc)
  have hret : runPhase (.parseResponse .ver (some l)) a = .ret () { c.moved w' c.t0 es' with outcome := r } := by
    show (parseVer a).bind _ = _
    rw [e, Flow.bind_ret]
    exact e'
  refine ⟨_, w', .parseResponse .ver (some l) :: ps, es ++ es', r, v, runSeq_ret _ ps s hret, ?_,
    State.undisturbed_of hc hs' rfl, hr, hsil.append hv⟩
  simp [c, a, State.moved]

/-- ParseResponse of READ_RSSI (R163). -/
theorem runSeq_parseRssi (l : Label) (ps : List Phase) {s : State} (h : s.undisturbed = true) :
    ∃ t w q es r p n, runSeq (.parseResponse .rssi (some l) :: ps) s = runSeq ps t ∧
      t = { s.moved w s.t0 es with rssi := p, noise := n, outcome := r, seq := q } ∧ t.undisturbed = true ∧
      (r = .ok ∨ (r = .insufficientData ∨ r = .protocolMismatch) ∧ p = s.rssi ∧ n = s.noise) ∧
      Views es [] (reportOf r l) false := by
  let a : State := { s with seq := .parseResponse .rssi (some l) :: ps }
  obtain ⟨w, es, r, p, n, e, hs, hr, hsil⟩ := parseRssi_ret (s := a) (State.undisturbed_noReset h)
  let c : State := { a.moved w a.t0 es with rssi := p, noise := n }
  have hc : c.undisturbed = true := State.undisturbed_of h hs rfl
  obtain ⟨w', es', e', hs', hv⟩ := settleOutcome_ret r l (s := c) (State.undisturbed_noReset hc)
  have hret : runPhase (.parseResponse .rssi (some l)) a = .ret () { c.moved w' c.t0 es' with outcome := r } := by
    show (parseRssi a).bind _ = _
    rw [e, Flow.bind_ret]
    exact e'
  refine ⟨_, w', .parseResponse .rssi (some l) :: ps, es ++ es', r, p, n, runSeq_ret _ ps s hret, ?_,
    State.undisturbed_of hc hs' rfl, hr, hsil.append hv⟩
  simp [c, a, State.moved]

/-- The end of a write-verify, S10 to S14 (`43_write_verify.md` R180): the parse, the drain, the comparison with the
snapshot that was sent, and the way out. -/
theorem runSeq_readBack (l : Label) {s : State} (h : s.undisturbed = true) (hi : s.intended = s.cfg) :
    ∃ w t0 es r g b, runSeq [.parseResponse .cfg none, .drainPost, .compare l, .normalExit, .done] s =
        .ret () { s.moved w t0 es with
          cfg := g, outcome := r, m0 := false, seq := [], op := none, status := r.code, tmo := s.tmo || b
          resultValid := true } ∧
      (r = .verificationMismatch ∧ g ≠ s.cfg ∨ r ≠ .verificationMismatch ∧ g = s.cfg) ∧
      Views es [.m0 false, .sleep s.config.modeSettleMs, .done r] (reportOf r l) b := by
  let a : State := { s with seq := [.parseResponse .cfg none, .drainPost, .compare l, .normalExit, .done] }
  obtain ⟨w, es, r, g, e, hs, hr, hsil⟩ := parseCfg_ret (s := a) (State.undisturbed_noReset h)
  let c : State := { a.moved w a.t0 es with cfg := g, outcome := r }
  have hc : c.undisturbed = true := State.undisturbed_of h hs rfl
  obtain ⟨t4, w4, q4, es4, e4, rfl, u4, d⟩ := runSeq_drainPost [.compare l, .normalExit, .done] hc
  let f : State := { c.moved w4 c.t0 es4 with seq := [.compare l, .normalExit, .done] }
  have hf : f.undisturbed = true := u4
  obtain ⟨w5, es5, e5, hs5, hv⟩ := settleOutcome_ret (compareOutcome f) l (State.undisturbed_noReset hf)
  let k : State := { f.moved w5 f.t0 es5 with outcome := compareOutcome f }
  have hk : k.undisturbed = true := State.undisturbed_of hf hs5 rfl
  obtain ⟨w6, t6, b6, es6, e6, hx⟩ := runSeq_exit (State.undisturbed_noReset hk)
  refine ⟨w6, t6, es ++ es4 ++ es5 ++ es6, compareOutcome f, g, b6, ?_, ?_, ?_⟩
  · rw [runSeq_ret (.parseResponse .cfg none) _ _ (t := c), e4, runSeq_ret (.compare l) _ _ (t := k), e6]
    · simp [k, f, c, a, State.moved]
    · exact e5
    · show (parseCfg a).bind _ = _
      rw [e, Flow.bind_ret]
      exact settleOutcome_none _ _
  · have e1 : f.outcome = r := rfl
    have e2 : f.cfg = g := rfl
    have e3 : f.intended = s.cfg := hi
    rw [compareOutcome, e1, e2, e3]
    have hr' : r = .ok ∨ (r = .insufficientData ∨ r = .protocolMismatch) ∧ g = s.cfg := hr
    rcases hr' with rfl | ⟨rfl | rfl, rfl⟩
    · by_cases hg : g = s.cfg <;> simp [hg]
    · simp
    · simp
  · have hx' : Views es6 [.m0 false, .sleep s.config.modeSettleMs, .done (compareOutcome f)] [] b6 := hx
    simpa using ((hsil.append d).append hv).append hx'

/-- The normal-mode barrier S6 of the volatile path (R183). -/
theorem runSeq_normalBarrier (ps : List Phase) {s : State} (h : s.undisturbed = true) :
    ∃ t w t0 b q es, runSeq (.normalBarrier :: ps) s = runSeq ps t ∧
      t = { s.moved w t0 es with m0 := false, tmo := s.tmo || b, seq := q } ∧ t.undisturbed = true ∧
      Views es [.m0 false, .sleep s.config.modeSettleMs] [] b := by
  let a : State := { s with seq := .normalBarrier :: ps }
  obtain ⟨w, t0, k, b, e, hs, -⟩ := enterNormal_ret (s := a) (State.undisturbed_noReset h)
  exact ⟨_, w, t0, b, .normalBarrier :: ps, _, runSeq_ret .normalBarrier ps s e, rfl,
    State.undisturbed_of h hs rfl, modeEvents_views s.config false .normal k b⟩

end Sys2Proof.Machine
end

