-- ==== Sys2Proof/Laws/Answer.lean ====
section
/-! SUPPORT. Exchanges whose answer arrives at a known primitive (`State.answeredAfter`): how many primitives each
part of an exchange takes while AUX is ready, and what the queue holds when the settle sleep ends. -/

namespace Sys2Proof.Machine

/-- Nothing more arrives and no reset comes. -/
def State.quiet (s : State) : Prop := s.flood = [] ∧ s.script.all (fun t => t.rx.isEmpty && !t.rst) = true

theorem State.quiet_undisturbed {s : State} (h : s.quiet) : s.undisturbed = true := by
  obtain ⟨hf, hs⟩ := h
  simp only [State.undisturbed, State.noReset, hf, List.isEmpty_nil, Bool.true_and, List.all_eq_true,
    Bool.and_eq_true] at hs ⊢
  exact fun t ht => (hs t ht).2

theorem State.quiet_of {s t : State} (h : s.quiet) (hs : t.script <:+ s.script) (hf : t.flood = s.flood) :
    t.quiet := by
  refine ⟨hf.trans h.1, ?_⟩
  have h2 := h.2
  rw [List.all_eq_true] at h2 ⊢
  exact fun x hx => h2 x (hs.subset hx)

theorem State.quiet_arrivals {s : State} (h : s.quiet) : s.arrivals = [] := by
  obtain ⟨hf, hs⟩ := h
  unfold State.arrivals
  cases hsc : s.script with
  | nil => exact hf
  | cons t ts =>
    rw [hsc, List.all_cons, Bool.and_eq_true, Bool.and_eq_true, List.isEmpty_iff] at hs
    exact hs.1.1

theorem State.answeredAfter_noReset {s : State} {n : Nat} {answer : List Byte} (h : s.answeredAfter n answer) :
    s.noReset = true := by
  obtain ⟨-, pre, mid, post, e, -, hp, -, hm, hq⟩ := h
  simp only [List.all_eq_true, Bool.and_eq_true, Tick.ready] at hp hq
  simp only [State.noReset, e, List.all_append, List.all_cons, Bool.and_eq_true, List.all_eq_true]
  exact ⟨fun t ht => (hp t ht).2, by simp [hm], fun t ht => (hq t ht).2⟩

/-- One primitive before the answer: AUX is ready, nothing arrives, and the answer is one primitive nearer. -/
theorem State.answeredAfter_succ {s : State} {n : Nat} {answer : List Byte} (h : s.answeredAfter (n + 1) answer) :
    s.nextAux = true ∧ s.arrivals = [] ∧ ∀ t : State, t.script = s.script.tail → t.flood = s.flood →
      t.answeredAfter n answer := by
  obtain ⟨hf, pre, mid, post, e, hl, hp, ha, hm, hq⟩ := h
  cases pre with
  | nil => cases hl
  | cons a pre =>
    rw [List.all_cons, Bool.and_eq_true] at hp
    have hr := hp.1
    simp only [Tick.ready, Bool.and_eq_true, List.isEmpty_iff] at hr
    refine ⟨by simp [State.nextAux, e, hr], by simp [State.arrivals, e, hr], fun t h2 h3 => ?_⟩
    exact ⟨h3.trans hf, pre, mid, post, by rw [h2, e]; rfl, by simpa using hl, hp.2, ha, hm, hq⟩

/-- The primitive during which the answer arrives. -/
theorem State.answeredAfter_zero {s : State} {answer : List Byte} (h : s.answeredAfter 0 answer) :
    s.arrivals = answer ∧ ∀ t : State, t.script = s.script.tail → t.flood = s.flood → t.quiet := by
  obtain ⟨hf, pre, mid, post, e, hl, -, ha, -, hq⟩ := h
  rw [List.length_eq_zero_iff] at hl
  subst hl
  refine ⟨by simp [State.arrivals, e, ha], fun t h2 h3 => ⟨h3.trans hf, ?_⟩⟩
  rw [h2, e]
  exact hq

/-- A mode transition takes three primitives while AUX is ready, and the queue stays as it is. -/
theorem modeSwitch_answered (level : Bool) (l : Label) {s : State} {n : Nat} {answer : List Byte}
    (h : s.answeredAfter (n + 3) answer) :
    ∃ w t0, ((driveM0 level s).bind fun _ s =>
          (sleep s.config.modeSettleMs s).bind fun _ s => waitAux l s) =
        .ret () { s.moved w t0 (modeEvents s.config level l 0 false) with m0 := level } ∧ w.rx = s.rx ∧
      ({ s.moved w t0 (modeEvents s.config level l 0 false) with m0 := level } : State).answeredAfter n answer := by
  have hr := State.answeredAfter_noReset h
  let a : State := { s.moved (s.next 0) s.t0 [.m0 level] with m0 := level }
  obtain ⟨-, q1, k1⟩ := State.answeredAfter_succ h
  have ha : a.answeredAfter (n + 2) answer := k1 a rfl rfl
  let c : State := a.moved (a.next s.config.modeSettleMs) a.now [.sleep s.config.modeSettleMs]
  obtain ⟨-, q2, k2⟩ := State.answeredAfter_succ ha
  have hc : c.answeredAfter (n + 1) answer := k2 c rfl rfl
  let d : State := { c with t0 := c.now }
  have hd : d.answeredAfter (n + 1) answer := hc
  obtain ⟨q3, q4, k3⟩ := State.answeredAfter_succ hd
  have hx := State.answeredAfter_noReset hd
  refine ⟨d.next 0, c.now, ?_, ?_, k3 _ rfl rfl⟩
  · rw [driveM0_ret level hr, Flow.bind_ret]
    show (sleep s.config.modeSettleMs a).bind _ = _
    rw [sleep_ret _ (State.answeredAfter_noReset ha), Flow.bind_ret]
    show pollAux l c.script.length d = _
    have hp : ∀ m, pollAux l m d = .ret () (d.moved (d.next 0) d.t0 [.aux true]) := by
      intro m
      cases m <;> rw [pollAux, auxRead_ret hx, q3, Flow.bind_ret, if_pos rfl]
    rw [hp]
    simp [d, c, a, State.moved, modeEvents, waitEvents]
  · show s.rx ++ s.arrivals ++ a.arrivals ++ d.arrivals = s.rx
    simp [q1, q2, q4]

/-- A drain while nothing arrives takes two primitives for each byte that was queued and one for the count of 0. -/
theorem drainLoop_answered (fuel : Nat) {s : State} {n : Nat} {answer : List Byte}
    (h : s.answeredAfter (n + 1 + 2 * s.rx.length) answer) (hw : 1 ≤ s.config.rxCountW)
    (hn : s.rx.length < fuel) :
    ∃ w es, drainLoop fuel s = .ret () (s.moved w s.t0 es) ∧ w.rx = [] ∧
      (s.moved w s.t0 es).answeredAfter n answer := by
  have hp : 2 ≤ 2 ^ s.config.rxCountW := Nat.pow_le_pow_right (n := 2) (by omega) hw
  induction fuel generalizing s with
  | zero => omega
  | succ fuel ih =>
    have hr := State.answeredAfter_noReset h
    cases hrx : s.rx with
    | nil =>
      rw [hrx] at h
      obtain ⟨-, q, k⟩ := State.answeredAfter_succ (n := n) h
      have hz : s.nextCount = 0 := by simp [State.nextCount, hrx, q]
      exact ⟨s.next 0, [.avail 0], by rw [drainLoop, rxAvail_ret hr, hz, Flow.bind_ret, if_pos rfl],
        by simp [State.next, hrx, q], k _ rfl rfl⟩
    | cons b bs =>
      rw [hrx] at h hn
      obtain ⟨-, q, k⟩ := State.answeredAfter_succ (n := n + 1 + 2 * bs.length + 1) h
      let a := s.moved (s.next 0) s.t0 [.avail s.nextCount]
      have ha : a.answeredAfter (n + 1 + 2 * bs.length + 1) answer := k a rfl rfl
      have harx : a.rx = b :: bs := by simp [a, State.next, hrx, q]
      obtain ⟨-, q', k'⟩ := State.answeredAfter_succ ha
      let c := a.moved { a.next 0 with rx := bs ++ a.arrivals } a.t0 [.rx b]
      have hcrx : c.rx = bs := by simp [c, q']
      have hc : c.answeredAfter (n + 1 + 2 * c.rx.length) answer := by rw [hcrx]; exact k' c rfl rfl
      obtain ⟨w, es, e, h1, h2⟩ := ih (s := c) hc hw (by rw [hcrx]; simpa using hn) hp
      have hz : ¬ s.nextCount = 0 := by simp [State.nextCount, hrx, q]; omega
      refine ⟨w, .avail s.nextCount :: .rx b :: es, ?_, h1, h2⟩
      rw [drainLoop, rxAvail_ret hr, Flow.bind_ret, if_neg hz]
      show (rxRead a).bind _ = _
      rw [rxRead_ret (State.answeredAfter_noReset ha) harx, Flow.bind_ret]
      show drainLoop fuel c = _
      rw [e]
      simp [a, c, State.moved]

/-- The drain before a request discards the residue, and the queue is empty after it (`42_command_framer.md` R150). -/
theorem drain_answered {s : State} {n : Nat} {answer : List Byte}
    (h : s.answeredAfter (n + 1 + 2 * s.rx.length) answer) (hw : 1 ≤ s.config.rxCountW) :
    ∃ w es, drain s = .ret () (s.moved w s.t0 es) ∧ w.rx = [] ∧ (s.moved w s.t0 es).answeredAfter n answer :=
  drainLoop_answered _ h hw (by omega)

/-- One primitive per byte sent. -/
theorem txBytes_answered (bs : List Byte) {s : State} {n : Nat} {answer : List Byte}
    (h : s.answeredAfter (n + bs.length) answer) :
    ∃ w, txBytes bs s = .ret () (s.moved w s.t0 (bs.map .tx)) ∧ w.rx = s.rx ∧
      (s.moved w s.t0 (bs.map .tx)).answeredAfter n answer := by
  induction bs generalizing s with
  | nil => exact ⟨s.world, by simp [txBytes], rfl, by simpa using h⟩
  | cons b bs ih =>
    obtain ⟨-, q, k⟩ := State.answeredAfter_succ (n := n + bs.length) h
    obtain ⟨w, e, hrx, hw⟩ := ih (s := s.moved (s.next 0) s.t0 [.tx b]) (k _ rfl rfl)
    refine ⟨w, ?_, hrx.trans (by simp [State.next, q]), by simpa using hw⟩
    rw [txBytes, txByte_ret b (State.answeredAfter_noReset h), Flow.bind_ret, e]
    simp

/-- The settle sleep before the answer, and the one during which it arrives. -/
theorem sleep_before_answer (ms : Nat) {s : State} {n : Nat} {answer : List Byte} (h : s.answeredAfter (n + 1) answer) :
    sleep ms s = .ret () (s.moved (s.next ms) s.now [.sleep ms]) ∧ (s.next ms).rx = s.rx ∧
      (s.moved (s.next ms) s.now [.sleep ms]).answeredAfter n answer := by
  obtain ⟨-, q, k⟩ := State.answeredAfter_succ h
  exact ⟨sleep_ret ms (State.answeredAfter_noReset h), by simp [State.next, q], k _ rfl rfl⟩

theorem sleep_answered (ms : Nat) {s : State} {answer : List Byte} (h : s.answeredAfter 0 answer) :
    sleep ms s = .ret () (s.moved (s.next ms) s.now [.sleep ms]) ∧ (s.next ms).rx = s.rx ++ answer ∧
      (s.moved (s.next ms) s.now [.sleep ms]).quiet := by
  obtain ⟨q, k⟩ := State.answeredAfter_zero h
  exact ⟨sleep_ret ms (State.answeredAfter_noReset h), by simp [State.next, q], k _ rfl rfl⟩

/-- ENTER_CONFIG and the drain before a request: the residue is gone. -/
theorem runSeq_enter_drain_answered (ps : List Phase) {s : State} {n : Nat} {answer : List Byte}
    (h : s.answeredAfter (n + 4 + 2 * s.rx.length) answer) (hw : 1 ≤ s.config.rxCountW) :
    ∃ w t0 q es, runSeq (.configEnter :: .drainPre :: ps) s =
        runSeq ps { s.moved w t0 es with m0 := true, seq := q } ∧ w.rx = [] ∧
      ({ s.moved w t0 es with m0 := true, seq := q } : State).answeredAfter n answer := by
  let a : State := { s with seq := .configEnter :: .drainPre :: ps }
  have ha : a.answeredAfter (n + 1 + 2 * s.rx.length + 3) answer := by
    rw [show n + 1 + 2 * s.rx.length + 3 = n + 4 + 2 * s.rx.length by omega]; exact h
  obtain ⟨w1, t1, e1, r1, h1⟩ := modeSwitch_answered true .config ha
  let b : State := { a.moved w1 t1 (modeEvents a.config true .config 0 false) with m0 := true }
  let b' : State := { b with seq := .drainPre :: ps }
  have hr : b'.rx = s.rx := r1
  have hb : b'.answeredAfter (n + 1 + 2 * b'.rx.length) answer := by rw [hr]; exact h1
  obtain ⟨w2, es, e2, r2, h2⟩ := drain_answered hb hw
  refine ⟨w2, t1, .drainPre :: ps, modeEvents s.config true .config 0 false ++ es, ?_, r2, h2⟩
  rw [runSeq_ret .configEnter _ s e1, runSeq_ret .drainPre _ b e2]
  simp [b', b, a, State.moved]

/-- A triple-byte request and the settle sleep `dl` after it: what follows (the parse, or the drain of a reset) finds the
answer in the queue, and nothing of what was queued before. -/
theorem runSeq_exchange_answered (op : TripleOp) (dl : Delay) (ps : List Phase) {s : State} {answer : List Byte}
    (h : s.answeredAfter (7 + 2 * s.rx.length) answer) (hw : 1 ≤ s.config.rxCountW) :
    ∃ w t0 q es, runSeq (.configEnter :: .drainPre :: .send (.triple op) :: .delay dl :: ps) s =
        runSeq ps { s.moved w t0 es with m0 := true, seq := q } ∧
      w.rx = answer ∧ ({ s.moved w t0 es with m0 := true, seq := q } : State).quiet := by
  obtain ⟨w1, t1, q1, es1, e1, r1, h1⟩ :=
    runSeq_enter_drain_answered (.send (.triple op) :: .delay dl :: ps) (n := 3) h hw
  let c : State := { s.moved w1 t1 es1 with m0 := true, seq := q1 }
  let c' : State := { c with seq := .send (.triple op) :: .delay dl :: ps }
  have hc : c'.answeredAfter (0 + [op.code, op.code, op.code].length) answer := h1
  obtain ⟨w3, e3, r3, h3⟩ := txBytes_answered [op.code, op.code, op.code] hc
  let d : State := c'.moved w3 c'.t0 ([op.code, op.code, op.code].map .tx)
  let d' : State := { d with seq := .delay dl :: ps }
  have hd : d'.answeredAfter 0 answer := h3
  obtain ⟨e4, r4, h4⟩ := sleep_answered (dl.millis d'.config) hd
  have hr : d'.rx = [] := r3.trans r1
  refine ⟨d'.next (dl.millis d'.config), d'.now, .delay dl :: ps,
    es1 ++ [op.code, op.code, op.code].map .tx ++ [.sleep (dl.millis d'.config)], ?_,
    by rw [r4, hr, List.nil_append], h4⟩
  rw [e1, runSeq_ret (.send (.triple op)) _ c e3, runSeq_ret (.delay dl) ps d e4]
  simp [d', d, c', c, State.moved]

/-- A write up to and including its settle sleep, before the answer. -/
theorem runSeq_write_answered (op : WriteOp) (dl : Delay) (ps : List Phase) {s : State} {n : Nat} {answer : List Byte}
    (h : s.answeredAfter (n + 11 + 2 * s.rx.length) answer) (hw : 1 ≤ s.config.rxCountW) :
    ∃ w t0 q es, runSeq (.configEnter :: .drainPre :: .send (.write op) :: .delay dl :: ps) s =
        runSeq ps { s.moved w t0 es with m0 := true, seq := q } ∧ w.rx = [] ∧
      ({ s.moved w t0 es with m0 := true, seq := q } : State).answeredAfter n answer := by
  obtain ⟨w1, t1, q1, es1, e1, r1, h1⟩ :=
    runSeq_enter_drain_answered (.send (.write op) :: .delay dl :: ps) (n := n + 7) h hw
  let c : State := { s.moved w1 t1 es1 with m0 := true, seq := q1 }
  let c' : State := { c with seq := .send (.write op) :: .delay dl :: ps }
  have hc : c'.answeredAfter (n + 1 + (op.code :: c'.intended.bytes).length) answer := h1
  obtain ⟨w3, e3, r3, h3⟩ := txBytes_answered (op.code :: c'.intended.bytes) hc
  let d : State := c'.moved w3 c'.t0 ((op.code :: c'.intended.bytes).map .tx)
  let d' : State := { d with seq := .delay dl :: ps }
  have hd : d'.answeredAfter (n + 1) answer := h3
  obtain ⟨e4, r4, h4⟩ := sleep_before_answer (dl.millis d'.config) hd
  have hr : d'.rx = [] := r3.trans r1
  refine ⟨d'.next (dl.millis d'.config), d'.now, .delay dl :: ps,
    es1 ++ (op.code :: c'.intended.bytes).map .tx ++ [.sleep (dl.millis d'.config)], ?_, r4.trans hr, h4⟩
  rw [e1, runSeq_ret (.send (.write op)) _ c e3, runSeq_ret (.delay dl) ps d e4]
  simp [d', d, c', c, State.moved]

/-- Once nothing more arrives, a drain empties the queue for good. -/
theorem drain_quiet {s : State} (h : s.quiet) (hw : 1 ≤ s.config.rxCountW) :
    ∃ w es, drain s = .ret () (s.moved w s.t0 es) ∧ w.rx = [] ∧ (s.moved w s.t0 es).quiet := by
  obtain ⟨w, ps, e, hs, hr⟩ := drain_ret (State.undisturbed_noReset (State.quiet_undisturbed h)) h.1
  exact ⟨w, _, e, (hr hw).1, State.quiet_of h hs rfl⟩

/-- Nothing arrives during a primitive of a quiet environment. -/
theorem State.quiet_next {s : State} (h : s.quiet) (ms : Nat) : (s.next ms).rx = s.rx := by
  simp [State.next, State.quiet_arrivals h]

theorem pollAux_quiet (l : Label) (n : Nat) {s : State} (h : s.quiet) :
    ∃ w es b, pollAux l n s = .ret () { s.moved w s.t0 es with tmo := b } ∧ w.rx = s.rx ∧
      w.script <:+ s.script := by
  induction n generalizing s with
  | zero =>
    have hr := State.undisturbed_noReset (State.quiet_undisturbed h)
    rw [pollAux, auxRead_ret hr, Flow.bind_ret]
    let a := s.moved (s.next 0) s.t0 [.aux s.nextAux]
    let u : State := { a with now := a.now + BitVec.ofNat 64 (a.config.auxTimeoutMs - elapsed a) }
    have ha : a.rx = s.rx := State.quiet_next h 0
    have hu : u.quiet := State.quiet_of h (s.next_script 0) rfl
    split
    · exact ⟨s.next 0, [.aux s.nextAux], s.tmo, rfl, ha, s.next_script 0⟩
    · refine ⟨u.next 0, [.aux s.nextAux, .diag .timeout l], true, ?_, (State.quiet_next hu 0).trans ha,
        (u.next_script 0).trans (s.next_script 0)⟩
      show auxTimeout l u = _
      rw [auxTimeout_ret l (State.undisturbed_noReset (State.quiet_undisturbed hu))]
      simp [u, a, State.moved]
  | succ n ih =>
    have hr := State.undisturbed_noReset (State.quiet_undisturbed h)
    rw [pollAux, auxRead_ret hr, Flow.bind_ret]
    let a := s.moved (s.next 0) s.t0 [.aux s.nextAux]
    have ha : a.rx = s.rx := State.quiet_next h 0
    have hq : a.quiet := State.quiet_of h (s.next_script 0) rfl
    split
    · exact ⟨s.next 0, [.aux s.nextAux], s.tmo, rfl, ha, s.next_script 0⟩
    · split
      · refine ⟨a.next 0, [.aux s.nextAux, .diag .timeout l], true, ?_, (State.quiet_next hq 0).trans ha,
          (a.next_script 0).trans (s.next_script 0)⟩
        show auxTimeout l a = _
        rw [auxTimeout_ret l (State.undisturbed_noReset (State.quiet_undisturbed hq))]
        simp [a, State.moved]
      · obtain ⟨w, es, b, e, hw, hs⟩ := ih hq
        refine ⟨w, .aux s.nextAux :: es, b, ?_, hw.trans ha, hs.trans (s.next_script 0)⟩
        show pollAux l n a = _
        rw [e]
        simp [a, State.moved]

/-- ENTER_NORMAL brings nothing into the queue of a quiet environment. -/
theorem enterNormal_quiet {s : State} (h : s.quiet) :
    ∃ w t0 es b, enterNormal s = .ret () { s.moved w t0 es with m0 := false, tmo := b } ∧ w.rx = s.rx ∧
      ({ s.moved w t0 es with m0 := false, tmo := b } : State).quiet := by
  have hr := State.undisturbed_noReset (State.quiet_undisturbed h)
  let a : State := { s.moved (s.next 0) s.t0 [.m0 false] with m0 := false }
  have ha : a.quiet := State.quiet_of h (s.next_script 0) rfl
  let c : State := a.moved (a.next s.config.modeSettleMs) a.now [.sleep s.config.modeSettleMs]
  have hc : c.quiet := State.quiet_of ha (a.next_script s.config.modeSettleMs) rfl
  let d : State := { c with t0 := c.now }
  obtain ⟨w, es, b, e, hw, hs⟩ := pollAux_quiet .normal c.script.length (s := d) hc
  have h1 : d.rx = s.rx := (State.quiet_next ha s.config.modeSettleMs).trans (State.quiet_next h 0)
  refine ⟨w, d.t0, [.m0 false, .sleep s.config.modeSettleMs] ++ es, b, ?_, hw.trans h1,
    State.quiet_of hc hs rfl⟩
  rw [enterNormal, driveM0_ret false hr, Flow.bind_ret]
  show (sleep s.config.modeSettleMs a).bind _ = _
  rw [sleep_ret _ (State.undisturbed_noReset (State.quiet_undisturbed ha)), Flow.bind_ret]
  show pollAux .normal c.script.length d = _
  rw [e]
  simp [d, c, a, State.moved]

/-- The epilogue of a command in a quiet environment: the queue ends empty and STATUS is the outcome's code. -/
theorem runSeq_epilogue_quiet {s : State} (h : s.quiet) (hw : 1 ≤ s.config.rxCountW) :
    ∃ w t0 es b, runSeq [.drainPost, .normalExit, .done] s =
        .ret () { s.moved w t0 es with
          m0 := false, seq := [], op := none, status := s.outcome.code, tmo := b, resultValid := true } ∧
      w.rx = [] := by
  let a : State := { s with seq := [.drainPost, .normalExit, .done] }
  obtain ⟨w1, es1, e1, r1, q1⟩ := drain_quiet (s := a) h hw
  let b : State := a.moved w1 a.t0 es1
  let c : State := { b with seq := [.normalExit, .done] }
  have hc : c.quiet := q1
  obtain ⟨w2, t2, es2, tm, e2, r2, q2⟩ := enterNormal_quiet hc
  let d : State := { c.moved w2 t2 es2 with m0 := false, tmo := tm }
  have hd : d.quiet := q2
  refine ⟨d.next 0, t2, es1 ++ es2 ++ [.done s.outcome], tm, ?_, (State.quiet_next hd 0).trans (r2.trans r1)⟩
  rw [runSeq_ret .drainPost _ s e1, runSeq_ret .normalExit _ b e2]
  show runSeq [.done] d = _
  rw [runSeq_done (State.undisturbed_noReset (State.quiet_undisturbed hd))]
  simp [State.moved, d, c, b, a]

/-- The failure exit in a quiet environment. -/
theorem settleOutcome_quiet (r : CmdResult) (l : Option Label) {s : State} (h : s.quiet) :
    ∃ w es, settleOutcome r l s = .ret () { s.moved w s.t0 es with outcome := r } ∧
      ({ s.moved w s.t0 es with outcome := r } : State).quiet := by
  cases l with
  | none => exact ⟨s.world, [], by rw [settleOutcome_none]; simp, State.quiet_of h (List.suffix_refl _) rfl⟩
  | some l =>
    obtain ⟨w, es, e, hs, -⟩ := settleOutcome_ret r l (State.undisturbed_noReset (State.quiet_undisturbed h))
    exact ⟨w, es, e, State.quiet_of h hs rfl⟩

/-! ## The parses, by what the queue holds -/

theorem State.quiet_nextQueue {s : State} (h : s.quiet) : s.nextQueue = s.rx := by
  simp [State.nextQueue, State.quiet_arrivals h]

/-- A count port at least three bits wide tells every length below 7. -/
theorem State.quiet_nextCount {s : State} (h : s.quiet) (hw : 3 ≤ s.config.rxCountW) (k : Nat) (hk : k ≤ 7) :
    s.nextCount < k ↔ s.rx.length < k := by
  have hp : 8 ≤ 2 ^ s.config.rxCountW := Nat.pow_le_pow_right (n := 2) (by omega) hw
  have hc : s.nextCount = min s.nextQueue.length (2 ^ s.config.rxCountW - 1) := rfl
  rw [hc, State.quiet_nextQueue h]
  omega

/-- PARSE_CFG (R158) by the queue: too few bytes, a wrong header, or an image. -/
theorem parseCfg_quiet {s : State} (h : s.quiet) (hw : 3 ≤ s.config.rxCountW) :
    ∃ w es r g, parseCfg s = .ret r { s.moved w s.t0 es with cfg := g } ∧
      ({ s.moved w s.t0 es with cfg := g } : State).quiet ∧
      (s.rx.length < 6 → r = .insufficientData ∧ g = s.cfg) ∧
      (∀ b rest, s.rx = b :: rest → 5 ≤ rest.length → b ≠ 0xC0 → r = .protocolMismatch ∧ g = s.cfg) ∧
      (∀ img extra, s.rx = 0xC0 :: Image.bytes img ++ extra → r = .ok ∧ g = img) := by
  have hr := State.undisturbed_noReset (State.quiet_undisturbed h)
  have hq := State.quiet_nextQueue h
  have hc := State.quiet_nextCount h hw 6 (by omega)
  by_cases hn : s.nextCount < 6
  · refine ⟨s.next 0, [.avail s.nextCount], _, s.cfg, parseCfg_short hr hn, State.quiet_of h (s.next_script 0) rfl,
      fun _ => ⟨rfl, rfl⟩, fun b rest e hl _ => ?_, fun img extra e => ?_⟩
    · rw [hc, e, List.length_cons] at hn
      omega
    · rw [hc, e] at hn
      simp [Image.bytes] at hn
      omega
  · have hl : ¬ s.rx.length < 6 := fun hx => hn (hc.mpr hx)
    obtain ⟨b, b1, b2, b3, b4, b5, rest, e⟩ : ∃ b b1 b2 b3 b4 b5 rest,
        s.rx = b :: b1 :: b2 :: b3 :: b4 :: b5 :: rest := by
      match hm : s.rx with
      | b :: b1 :: b2 :: b3 :: b4 :: b5 :: rest => exact ⟨b, b1, b2, b3, b4, b5, rest, rfl⟩
      | [] | [_] | [_, _] | [_, _, _] | [_, _, _, _] | [_, _, _, _, _] => rw [hm] at hl; simp at hl
    by_cases hb : b = 0xC0
    · subst hb
      obtain ⟨w, ee, hs, -⟩ := parseCfg_ok (g := ⟨b1, b2, b3, b4, b5⟩) (rest := rest) hr hn
        (by rw [hq, e]; exact List.prefix_refl _)
      refine ⟨w, _, _, _, ee, State.quiet_of h hs rfl, fun hx => absurd hx hl, ?_, ?_⟩
      · intro x xs ex _ hx
        rw [e] at ex
        cases ex
        exact absurd rfl hx
      · rintro ⟨⟩ extra ex
        rw [e] at ex
        simp [Image.bytes] at ex
        simp [ex]
    · obtain ⟨w, ee, hs, -⟩ := parseCfg_header (b := b) (bs := b1 :: b2 :: b3 :: b4 :: b5 :: rest) hr hn
        (by rw [hq, e]) hb
      refine ⟨w, _, _, s.cfg, ee, State.quiet_of h hs rfl, fun hx => absurd hx hl, fun _ _ _ _ _ => ⟨rfl, rfl⟩, ?_⟩
      intro img extra ex
      rw [e] at ex
      cases ex
      exact absurd rfl hb

/-- PARSE_VER (R162) by the queue. -/
theorem parseVer_quiet {s : State} (h : s.quiet) (hw : 3 ≤ s.config.rxCountW) :
    ∃ w es r v, parseVer s = .ret r { s.moved w s.t0 es with ver := v } ∧
      ({ s.moved w s.t0 es with ver := v } : State).quiet ∧
      (s.rx.length < 4 → r = .insufficientData ∧ v = s.ver) ∧
      (∀ ver extra, s.rx = Version.bytes ver ++ extra → r = .ok ∧ v = ver) := by
  have hr := State.undisturbed_noReset (State.quiet_undisturbed h)
  have hq := State.quiet_nextQueue h
  have hc := State.quiet_nextCount h hw 4 (by omega)
  by_cases hn : s.nextCount < 4
  · refine ⟨s.next 0, [.avail s.nextCount], _, s.ver, parseVer_short hr hn, State.quiet_of h (s.next_script 0) rfl,
      fun _ => ⟨rfl, rfl⟩, fun ver extra e => ?_⟩
    rw [hc, e] at hn
    simp [Version.bytes] at hn
    omega
  · have hl : ¬ s.rx.length < 4 := fun hx => hn (hc.mpr hx)
    obtain ⟨b0, b1, b2, b3, rest, e⟩ : ∃ b0 b1 b2 b3 rest, s.rx = b0 :: b1 :: b2 :: b3 :: rest := by
      match hm : s.rx with
      | b0 :: b1 :: b2 :: b3 :: rest => exact ⟨b0, b1, b2, b3, rest, rfl⟩
      | [] | [_] | [_, _] | [_, _, _] => rw [hm] at hl; simp at hl
    obtain ⟨w, ee, hs, -⟩ := parseVer_ok (v := ⟨b0, b1, b2, b3⟩) (rest := rest) hr hn
      (by rw [hq, e]; exact List.prefix_refl _)
    refine ⟨w, _, _, _, ee, State.quiet_of h hs rfl, fun hx => absurd hx hl, ?_⟩
    rintro ⟨⟩ extra ex
    rw [e] at ex
    simp [Version.bytes] at ex
    simp [ex]

/-- PARSE_RSSI (R164) by the queue. -/
theorem parseRssi_quiet {s : State} (h : s.quiet) (hw : 3 ≤ s.config.rxCountW) :
    ∃ w es r p n, parseRssi s = .ret r { s.moved w s.t0 es with rssi := p, noise := n } ∧
      ({ s.moved w s.t0 es with rssi := p, noise := n } : State).quiet ∧
      (s.rx.length < 3 → r = .insufficientData ∧ p = s.rssi ∧ n = s.noise) ∧
      (∀ b rest, s.rx = b :: rest → 2 ≤ rest.length → b ≠ 0xC5 →
        r = .protocolMismatch ∧ p = s.rssi ∧ n = s.noise) ∧
      (∀ x y extra, s.rx = 0xC5 :: x :: y :: extra → r = .ok ∧ p = x ∧ n = y) := by
  have hr := State.undisturbed_noReset (State.quiet_undisturbed h)
  have hq := State.quiet_nextQueue h
  have hc := State.quiet_nextCount h hw 3 (by omega)
  by_cases hn : s.nextCount < 3
  · refine ⟨s.next 0, [.avail s.nextCount], _, s.rssi, s.noise, parseRssi_short hr hn,
      State.quiet_of h (s.next_script 0) rfl, fun _ => ⟨rfl, rfl, rfl⟩, fun b rest e hl _ => ?_,
      fun x y extra e => ?_⟩
    · rw [hc, e, List.length_cons] at hn
      omega
    · rw [hc, e] at hn
      simp at hn
      omega
  · have hl : ¬ s.rx.length < 3 := fun hx => hn (hc.mpr hx)
    obtain ⟨b, x, y, rest, e⟩ : ∃ b x y rest, s.rx = b :: x :: y :: rest := by
      match hm : s.rx with
      | b :: x :: y :: rest => exact ⟨b, x, y, rest, rfl⟩
      | [] | [_] | [_, _] => rw [hm] at hl; simp at hl
    by_cases hb : b = 0xC5
    · subst hb
      obtain ⟨w, ee, hs, -⟩ := parseRssi_ok (r := x) (n := y) (rest := rest) hr hn
        (by rw [hq, e]; exact List.prefix_refl _)
      refine ⟨w, _, _, _, _, ee, State.quiet_of h hs rfl, fun hx => absurd hx hl, ?_, ?_⟩
      · intro z zs ez _ hz
        rw [e] at ez
        cases ez
        exact absurd rfl hz
      · intro x' y' extra ex
        rw [e] at ex
        cases ex
        exact ⟨rfl, rfl, rfl⟩
    · obtain ⟨w, ee, hs, -⟩ := parseRssi_header (b := b) (bs := x :: y :: rest) hr hn (by rw [hq, e]) hb
      refine ⟨w, _, _, s.rssi, s.noise, ee, State.quiet_of h hs rfl, fun hx => absurd hx hl,
        fun _ _ _ _ _ => ⟨rfl, rfl, rfl⟩, ?_⟩
      intro x' y' extra ex
      rw [e] at ex
      cases ex
      exact absurd rfl hb

end Sys2Proof.Machine
end

