-- ==== Sys2Proof/Laws/Decode.lean ====
section
/-! SUPPORT. Small lemmas of the decoder's helpers: the fields of a host command word, and when an operand is
accepted. -/

namespace Sys2Proof

theorem hostWord_toNat (c : Byte) (a : BitVec 32) : (hostWord c a).toNat = c.toNat * 2 ^ 32 + a.toNat := by
  rw [hostWord, BitVec.toNat_append, Nat.shiftLeft_eq, Nat.mul_comm, Nat.two_pow_add_eq_or_of_lt a.isLt]

theorem codeOf_toNat (w : HostWord) : (codeOf w).toNat = w.toNat / 2 ^ 32 := by
  have := w.isLt
  simp [codeOf, BitVec.extractLsb'_toNat, Nat.shiftRight_eq_div_pow]
  omega

theorem argOf_toNat (w : HostWord) : (argOf w).toNat = w.toNat % 2 ^ 32 := by
  simp [argOf, BitVec.extractLsb'_toNat]

@[simp] theorem codeOf_hostWord (c : Byte) (a : BitVec 32) : codeOf (hostWord c a) = c := by
  apply BitVec.eq_of_toNat_eq
  have := a.isLt
  rw [codeOf_toNat, hostWord_toNat]
  omega

@[simp] theorem argOf_hostWord (c : Byte) (a : BitVec 32) : argOf (hostWord c a) = a := by
  apply BitVec.eq_of_toNat_eq
  have := a.isLt
  rw [argOf_toNat, hostWord_toNat]
  omega

theorem hostWord_code_arg (w : HostWord) : hostWord (codeOf w) (argOf w) = w := by
  apply BitVec.eq_of_toNat_eq
  rw [hostWord_toNat, codeOf_toNat, argOf_toNat]
  omega

theorem operand_eq_some (n : Nat) (hn : n ≤ 32) (a : BitVec 32) (v : BitVec n) :
    operand n a = some v ↔ v.setWidth 32 = a := by
  have hz : a >>> n = 0 ↔ a.toNat < 2 ^ n := by
    rw [← BitVec.toNat_inj, BitVec.toNat_ushiftRight, Nat.shiftRight_eq_div_pow]
    simp [Nat.div_eq_zero_iff]
  have hpow : 2 ^ n ≤ 2 ^ 32 := Nat.pow_le_pow_right (by omega) hn
  have hv := v.isLt
  unfold operand
  constructor
  · intro h
    split at h
    · rename_i hlt
      cases h
      apply BitVec.eq_of_toNat_eq
      rw [BitVec.toNat_setWidth, BitVec.toNat_setWidth, Nat.mod_eq_of_lt (hz.mp hlt), Nat.mod_eq_of_lt a.isLt]
    · cases h
  · rintro rfl
    rw [if_pos]
    · congr 1
      apply BitVec.eq_of_toNat_eq
      rw [BitVec.toNat_setWidth, BitVec.toNat_setWidth, Nat.mod_eq_of_lt (b := 2 ^ 32) (by omega), Nat.mod_eq_of_lt hv]
    · rw [hz, BitVec.toNat_setWidth, Nat.mod_eq_of_lt (by omega)]
      exact hv

theorem noOperand_eq_some (a : BitVec 32) (i j : Instr) : noOperand a i = some j ↔ a = 0 ∧ i = j := by
  unfold noOperand
  split
  · rename_i h; simp [h]
  · rename_i h; exact ⟨nofun, fun hx => absurd hx.1 h⟩

theorem printOperand_eq_some (c : Config) (a : BitVec 32) (j : Instr) :
    printOperand c a = some j ↔ c.hasDiagDecode = true ∧ a = 0 ∧ .printConfig = j := by
  unfold printOperand
  split <;> rename_i h <;> simp [h, noOperand_eq_some]

theorem mapOperand_eq_some (n : Nat) (hn : n ≤ 32) (a : BitVec 32) (f : BitVec n → Instr) (j : Instr) :
    (operand n a).map f = some j ↔ ∃ v : BitVec n, v.setWidth 32 = a ∧ f v = j := by
  rw [Option.map_eq_some_iff]
  exact exists_congr fun v => and_congr_left' (operand_eq_some n hn a v)

/-- A command word written out as its code, zeros and its operand. -/
theorem hostWord_zeros (c : Byte) (m n : Nat) (v : BitVec n) (h : 8 + m + n = 40) :
    BitVec.cast h (c ++ 0#m ++ v) = hostWord c (v.setWidth 32) := by
  have hv := v.isLt
  have hp : 2 ^ n ≤ 2 ^ 32 := Nat.pow_le_pow_right (by omega) (by omega)
  have hz : (c.toNat <<< m ||| (0#m).toNat) = c.toNat * 2 ^ m := by simp [Nat.shiftLeft_eq]
  apply BitVec.eq_of_toNat_eq
  rw [hostWord_toNat, BitVec.toNat_cast, BitVec.toNat_append, BitVec.toNat_append, BitVec.toNat_setWidth,
    Nat.mod_eq_of_lt (by omega), hz, Nat.shiftLeft_eq, Nat.mul_comm, ← Nat.two_pow_add_eq_or_of_lt v.isLt,
    show 32 = m + n by omega, pow_add]
  ring

end Sys2Proof
end

