-- ==== Sys2Proof/Laws/Fields.lean ====
section
/-! SUPPORT. The bit-fields of the register image: what an insertion writes bit by bit, and the laws of reading and
writing a field of an image. -/

namespace Sys2Proof.Machine

theorem fieldLo_width_le (f : Field) : fieldLo f + fieldWidth f ≤ 8 := by
  cases f <;> decide

theorem fieldMask_getLsbD (f : Field) (k : Nat) :
    (fieldMask f).getLsbD k = decide (fieldLo f ≤ k ∧ k < fieldLo f + fieldWidth f) := by
  by_cases hk : k < 8
  · revert k; cases f <;> decide
  · have := fieldLo_width_le f
    rw [BitVec.getLsbD_of_ge _ _ (by omega), eq_comm, decide_eq_false_iff_not]
    omega

/-- R81, bit by bit: inside the field the operand's bit, outside it the old one. -/
theorem fieldInsert_getLsbD (f : Field) (old v : Byte) (k : Nat) :
    (fieldInsert f old v).getLsbD k =
      if fieldLo f ≤ k ∧ k < fieldLo f + fieldWidth f then v.getLsbD (k - fieldLo f) else old.getLsbD k := by
  have := fieldLo_width_le f
  by_cases hk : k < 8
  · simp only [fieldInsert, BitVec.getLsbD_or, BitVec.getLsbD_and, BitVec.getLsbD_not, BitVec.getLsbD_shiftLeft,
      fieldMask_getLsbD, hk, decide_true, Bool.true_and]
    split
    · rename_i h
      simp [h, Nat.not_lt.mpr h.1]
    · rename_i h; simp [h]
  · rw [BitVec.getLsbD_of_ge _ _ (by omega), BitVec.getLsbD_of_ge old _ (by omega), if_neg (by omega)]

theorem fieldExtract_getLsbD (f : Field) (b : Byte) (k : Nat) :
    (fieldExtract f b).getLsbD k = (decide (k < fieldWidth f) && b.getLsbD (fieldLo f + k)) := by
  simp only [fieldExtract, BitVec.getLsbD_ushiftRight, BitVec.getLsbD_and, fieldMask_getLsbD]
  rw [Bool.and_comm]; congr 1; simp

/-- A whole-byte field takes the operand. -/
theorem fieldInsert_byte (f : Field) (hf : fieldWidth f = 8) (old v : Byte) : fieldInsert f old v = v := by
  have := fieldLo_width_le f
  apply BitVec.eq_of_getLsbD_eq
  intro k hk
  rw [fieldInsert_getLsbD, if_pos (by omega), show fieldLo f = 0 by omega, Nat.sub_zero]

/-- The pseudocode's form of R81 for a value that fits: the old byte without the field, or the value in its
place. -/
theorem fieldInsert_or (f : Field) (old v : Byte) (hv : v.toNat < 2 ^ fieldWidth f) :
    fieldInsert f old v = (old &&& ~~~fieldMask f) ||| (v <<< fieldLo f) := by
  rw [fieldInsert]
  congr 1
  revert v; cases f <;> decide

/-- A value that fits is what the field holds after it was inserted. -/
theorem fieldExtract_insert (f : Field) (old v : Byte) (hv : v.toNat < 2 ^ fieldWidth f) :
    fieldExtract f (fieldInsert f old v) = v := by
  apply BitVec.eq_of_getLsbD_eq
  intro k _
  rw [fieldExtract_getLsbD, fieldInsert_getLsbD]
  by_cases h : k < fieldWidth f
  · simp [h]
  · simp only [h, decide_false, Bool.false_and]
    exact (Nat.testBit_lt_two_pow (hv.trans_le (Nat.pow_le_pow_right (by omega) (by omega)))).symm

/-- Two fields of one byte do not overlap (`30_encoding.md` R78 to R80). -/
theorem field_disjoint {f f' : Field} (hne : f ≠ f') (hi : fieldIndex f = fieldIndex f') :
    fieldLo f + fieldWidth f ≤ fieldLo f' ∨ fieldLo f' + fieldWidth f' ≤ fieldLo f := by
  revert hne hi; cases f <;> cases f' <;> decide

/-- The other fields of the byte are read as before. -/
theorem fieldExtract_insert_ne {f f' : Field} (hne : f ≠ f') (hi : fieldIndex f = fieldIndex f') (old v : Byte) :
    fieldExtract f' (fieldInsert f old v) = fieldExtract f' old := by
  apply BitVec.eq_of_getLsbD_eq
  intro k _
  rw [fieldExtract_getLsbD, fieldExtract_getLsbD, fieldInsert_getLsbD]
  by_cases h : k < fieldWidth f'
  · have := field_disjoint hne hi
    rw [if_neg (by omega)]
  · simp [h]

theorem fieldInsert_comm {f f' : Field} (hne : f ≠ f') (hi : fieldIndex f = fieldIndex f') (old v v' : Byte) :
    fieldInsert f' (fieldInsert f old v) v' = fieldInsert f (fieldInsert f' old v') v := by
  have := field_disjoint hne hi
  apply BitVec.eq_of_getLsbD_eq
  intro k _
  simp only [fieldInsert_getLsbD]
  split <;> split <;> first | rfl | omega

theorem fieldInsert_insert (f : Field) (old v v' : Byte) :
    fieldInsert f (fieldInsert f old v) v' = fieldInsert f old v' := by
  apply BitVec.eq_of_getLsbD_eq
  intro k _
  simp only [fieldInsert_getLsbD]
  split <;> rfl

theorem fieldInsert_extract (f : Field) (old : Byte) : fieldInsert f old (fieldExtract f old) = old := by
  apply BitVec.eq_of_getLsbD_eq
  intro k _
  rw [fieldInsert_getLsbD, fieldExtract_getLsbD]
  split
  · rename_i h
    rw [show fieldLo f + (k - fieldLo f) = k by omega, decide_eq_true (by omega), Bool.true_and]
  · rfl

/-! ## Images -/

@[simp] theorem imageGet_set (g : Image) (i : CfgIndex) (v : Byte) : imageGet (imageSet g i v) i = v := by
  cases i <;> rfl

theorem imageGet_set_ne (g : Image) {i j : CfgIndex} (h : i ≠ j) (v : Byte) :
    imageGet (imageSet g i v) j = imageGet g j := by
  cases i <;> cases j <;> first | rfl | exact absurd rfl h

@[simp] theorem imageSet_set (g : Image) (i : CfgIndex) (v v' : Byte) :
    imageSet (imageSet g i v) i v' = imageSet g i v' := by
  cases i <;> rfl

@[simp] theorem imageSet_get (g : Image) (i : CfgIndex) : imageSet g i (imageGet g i) = g := by
  cases i <;> rfl

theorem imageSet_comm (g : Image) {i j : CfgIndex} (h : i ≠ j) (v v' : Byte) :
    imageSet (imageSet g i v) j v' = imageSet (imageSet g j v') i v := by
  cases i <;> cases j <;> first | rfl | exact absurd rfl h

theorem fieldGet_set (g : Image) (f : Field) (v : Byte) (hv : v.toNat < 2 ^ fieldWidth f) :
    fieldGet (fieldSet g f v) f = v := by
  rw [fieldGet, fieldSet, imageGet_set, fieldExtract_insert f _ v hv]

theorem fieldGet_set_ne (g : Image) {f f' : Field} (hne : f ≠ f') (v : Byte) :
    fieldGet (fieldSet g f v) f' = fieldGet g f' := by
  by_cases hi : fieldIndex f = fieldIndex f'
  · rw [fieldGet, fieldSet, ← hi, imageGet_set, fieldExtract_insert_ne hne hi, fieldGet, hi]
  · rw [fieldGet, fieldSet, imageGet_set_ne g hi, fieldGet]

theorem fieldSet_comm (g : Image) {f f' : Field} (hne : f ≠ f') (v v' : Byte) :
    fieldSet (fieldSet g f v) f' v' = fieldSet (fieldSet g f' v') f v := by
  by_cases hi : fieldIndex f = fieldIndex f'
  · simp only [fieldSet, ← hi, imageGet_set, imageSet_set, fieldInsert_comm hne hi]
  · simp only [fieldSet, imageGet_set_ne g hi, imageGet_set_ne g (Ne.symm hi), imageSet_comm g hi]

theorem fieldSet_set (g : Image) (f : Field) (v v' : Byte) :
    fieldSet (fieldSet g f v) f v' = fieldSet g f v' := by
  simp only [fieldSet, imageGet_set, imageSet_set, fieldInsert_insert]

theorem fieldSet_get (g : Image) (f : Field) : fieldSet g f (fieldGet g f) = g := by
  rw [fieldSet, fieldGet, fieldInsert_extract, imageSet_get]

/-! ## Field setters -/

/-- Every field setter is the read-modify-write of its field and nothing else (`40_register_accessors.md` R100), when
no reset falls on it; what the environment does meanwhile is the same for all of them. -/
theorem exec_setter {s : State} (hs : s.noReset = true) :
    ∃ w, s.rx <+: w.rx ∧ w.script <:+ s.script ∧ ∀ {i : Instr} {f : Field} {v : Byte}, setterOf i = some (f, v) →
      exec i s = .next (State.completedOk w { s with cfg := fieldSet s.cfg f v }) := by
  obtain ⟨w, hrx, hsc, hw⟩ := runCommand_local hs
  refine ⟨w, hrx, hsc, fun {i f v} h => ?_⟩
  cases i <;> simp only [setterOf, reduceCtorEq, Option.some.injEq, Prod.mk.injEq] at h <;>
    obtain ⟨rfl, rfl⟩ := h <;> exact hw _ _

/-- A setter's operand fits its field (`30_encoding.md` R87). -/
theorem setterOf_lt {i : Instr} {f : Field} {v : Byte} (h : setterOf i = some (f, v)) :
    v.toNat < 2 ^ fieldWidth f := by
  cases i <;> simp only [setterOf, reduceCtorEq, Option.some.injEq, Prod.mk.injEq] at h <;>
    obtain ⟨rfl, rfl⟩ := h <;> simp only [fieldWidth, BitVec.toNat_setWidth] <;> omega

end Sys2Proof.Machine
end

