-- ==== Sys2Proof/Laws/PerInstr.lean ====
section
/-! SUPPORT. A law for every instruction: the frame the encoder gives it has the direction and the length the row of
`spec/opcode_table.json` states ("direction", "length_bytes", "length_bits"). -/

namespace Sys2Proof.Laws.FrameChannel

/-- The "direction" of a row. -/
inductive Direction where
  | hostToBlock
  | blockToModule
  | moduleToBlock
  deriving DecidableEq, Repr

/-- The direction a frame travels in. -/
def direction : Frame → Direction
  | .host _ => .hostToBlock
  | .request _ => .blockToModule
  | .response _ => .moduleToBlock

/-- The length of a frame in bits. -/
def bits : Frame → Nat
  | .host _ => 40
  | .request bs => 8 * bs.length
  | .response bs => 8 * bs.length

/-- The frame of `i` travels as its row says and is as long as its row says. -/
def Statement (i : Instr) : Prop :=
  match i with
  | .reqReadConfig => direction (encode i) = .blockToModule ∧ bits (encode i) = 24
  | .reqReadVersion => direction (encode i) = .blockToModule ∧ bits (encode i) = 24
  | .reqReset => direction (encode i) = .blockToModule ∧ bits (encode i) = 24
  | .reqReadRssi => direction (encode i) = .blockToModule ∧ bits (encode i) = 24
  | .reqWritePersistent _ => direction (encode i) = .blockToModule ∧ bits (encode i) = 48
  | .reqWriteVolatile _ => direction (encode i) = .blockToModule ∧ bits (encode i) = 48
  | .rspCfg _ => direction (encode i) = .moduleToBlock ∧ bits (encode i) = 48
  | .rspVer _ => direction (encode i) = .moduleToBlock ∧ bits (encode i) = 32
  | .rspRssi _ _ => direction (encode i) = .moduleToBlock ∧ bits (encode i) = 24
  | .begin _ => direction (encode i) = .hostToBlock ∧ bits (encode i) = 40
  | .enterConfig => direction (encode i) = .hostToBlock ∧ bits (encode i) = 40
  | .enterNormal => direction (encode i) = .hostToBlock ∧ bits (encode i) = 40
  | .setFhsId _ => direction (encode i) = .hostToBlock ∧ bits (encode i) = 40
  | .setFhssNums _ => direction (encode i) = .hostToBlock ∧ bits (encode i) = 40
  | .setParity _ => direction (encode i) = .hostToBlock ∧ bits (encode i) = 40
  | .setBaud _ => direction (encode i) = .hostToBlock ∧ bits (encode i) = 40
  | .setAirRate _ => direction (encode i) = .hostToBlock ∧ bits (encode i) = 40
  | .setChannel _ => direction (encode i) = .hostToBlock ∧ bits (encode i) = 40
  | .setPower _ => direction (encode i) = .hostToBlock ∧ bits (encode i) = 40
  | .setFec _ => direction (encode i) = .hostToBlock ∧ bits (encode i) = 40
  | .setPullup _ => direction (encode i) = .hostToBlock ∧ bits (encode i) = 40
  | .setIoMode _ => direction (encode i) = .hostToBlock ∧ bits (encode i) = 40
  | .setSped _ => direction (encode i) = .hostToBlock ∧ bits (encode i) = 40
  | .setOption _ => direction (encode i) = .hostToBlock ∧ bits (encode i) = 40
  | .getConfigRaw => direction (encode i) = .hostToBlock ∧ bits (encode i) = 40
  | .readConfig => direction (encode i) = .hostToBlock ∧ bits (encode i) = 40
  | .readVersion => direction (encode i) = .hostToBlock ∧ bits (encode i) = 40
  | .readRssi => direction (encode i) = .hostToBlock ∧ bits (encode i) = 40
  | .resetModule => direction (encode i) = .hostToBlock ∧ bits (encode i) = 40
  | .writePersistent => direction (encode i) = .hostToBlock ∧ bits (encode i) = 40
  | .writeVolatile => direction (encode i) = .hostToBlock ∧ bits (encode i) = 40
  | .printConfig => direction (encode i) = .hostToBlock ∧ bits (encode i) = 40

theorem reqReadConfig : Statement .reqReadConfig := ⟨rfl, rfl⟩
theorem reqReadVersion : Statement .reqReadVersion := ⟨rfl, rfl⟩
theorem reqReset : Statement .reqReset := ⟨rfl, rfl⟩
theorem reqReadRssi : Statement .reqReadRssi := ⟨rfl, rfl⟩
theorem reqWritePersistent (g : Image) : Statement (.reqWritePersistent g) := ⟨rfl, rfl⟩
theorem reqWriteVolatile (g : Image) : Statement (.reqWriteVolatile g) := ⟨rfl, rfl⟩
theorem rspCfg (g : Image) : Statement (.rspCfg g) := ⟨rfl, rfl⟩
theorem rspVer (v : Version) : Statement (.rspVer v) := ⟨rfl, rfl⟩
theorem rspRssi (r n : Byte) : Statement (.rspRssi r n) := ⟨rfl, rfl⟩
theorem begin (v : BitVec 32) : Statement (.begin v) := ⟨rfl, rfl⟩
theorem enterConfig : Statement .enterConfig := ⟨rfl, rfl⟩
theorem enterNormal : Statement .enterNormal := ⟨rfl, rfl⟩
theorem setFhsId (v : BitVec 8) : Statement (.setFhsId v) := ⟨rfl, rfl⟩
theorem setFhssNums (v : BitVec 8) : Statement (.setFhssNums v) := ⟨rfl, rfl⟩
theorem setParity (v : BitVec 2) : Statement (.setParity v) := ⟨rfl, rfl⟩
theorem setBaud (v : BitVec 3) : Statement (.setBaud v) := ⟨rfl, rfl⟩
theorem setAirRate (v : BitVec 3) : Statement (.setAirRate v) := ⟨rfl, rfl⟩
theorem setChannel (v : BitVec 8) : Statement (.setChannel v) := ⟨rfl, rfl⟩
theorem setPower (v : BitVec 2) : Statement (.setPower v) := ⟨rfl, rfl⟩
theorem setFec (v : BitVec 1) : Statement (.setFec v) := ⟨rfl, rfl⟩
theorem setPullup (v : BitVec 1) : Statement (.setPullup v) := ⟨rfl, rfl⟩
theorem setIoMode (v : BitVec 1) : Statement (.setIoMode v) := ⟨rfl, rfl⟩
theorem setSped (v : BitVec 8) : Statement (.setSped v) := ⟨rfl, rfl⟩
theorem setOption (v : BitVec 8) : Statement (.setOption v) := ⟨rfl, rfl⟩
theorem getConfigRaw : Statement .getConfigRaw := ⟨rfl, rfl⟩
theorem readConfig : Statement .readConfig := ⟨rfl, rfl⟩
theorem readVersion : Statement .readVersion := ⟨rfl, rfl⟩
theorem readRssi : Statement .readRssi := ⟨rfl, rfl⟩
theorem resetModule : Statement .resetModule := ⟨rfl, rfl⟩
theorem writePersistent : Statement .writePersistent := ⟨rfl, rfl⟩
theorem writeVolatile : Statement .writeVolatile := ⟨rfl, rfl⟩
theorem printConfig : Statement .printConfig := ⟨rfl, rfl⟩

end Sys2Proof.Laws.FrameChannel
end

