-- ==== Sys2Proof/Laws/Phases.lean ====
section
/-! SUPPORT. What every operation inside a command does in ANY environment, resets and endless floods included: it
keeps the parameters, the flood and the host's inputs, extends the trace by events of its own kinds, is cut only
into a block reset, and halts only in a drain that is fed for ever. -/

namespace Sys2Proof.Machine

/-- What an operation that emits only events of the kinds `ok` keeps of `s` in `t`. -/
structure Within (ok : Event → Bool) (s t : State) : Prop where
  config : t.config = s.config
  flood : t.flood = s.flood
  hostInputs : t.hostInputs = s.hostInputs
  status : s.status.toNat ≤ 3 → t.status.toNat ≤ 3
  trace : ∃ es, t.trace = s.trace ++ es ∧ es.all ok = true

theorem Within.refl (ok : Event → Bool) (s : State) : Within ok s s :=
  ⟨rfl, rfl, rfl, id, [], by simp⟩

theorem Within.trans {ok : Event → Bool} {s t u : State} (a : Within ok s t) (b : Within ok t u) :
    Within ok s u := by
  obtain ⟨es, ha, hoa⟩ := a.trace
  obtain ⟨fs, hb, hob⟩ := b.trace
  exact ⟨b.config.trans a.config, b.flood.trans a.flood, b.hostInputs.trans a.hostInputs, b.status ∘ a.status,
    es ++ fs, by rw [hb, ha, List.append_assoc], by rw [List.all_append, hoa, hob, Bool.and_true]⟩

theorem Within.mono {ok ok' : Event → Bool} (h : ∀ e, ok e = true → ok' e = true) {s t : State}
    (a : Within ok s t) : Within ok' s t := by
  obtain ⟨es, ha, hoa⟩ := a.trace
  refine ⟨a.config, a.flood, a.hostInputs, a.status, es, ha, ?_⟩
  rw [List.all_eq_true] at hoa ⊢
  exact fun e he => h e (hoa e he)

/-- The environment moved and events of the kinds `ok` were emitted. -/
theorem Within.moved {ok : Event → Bool} (s : State) (w : World) (t0 : Millis) {es : List Event}
    (h : es.all ok = true) : Within ok s (s.moved w t0 es) :=
  ⟨rfl, rfl, rfl, id, es, rfl, h⟩

/-- A command cut after it came from `s` to some `u`. -/
def CutWithin (ok : Event → Bool) (s t : State) : Prop := ∃ u, Within ok s u ∧ t = blockReset u

/-- The only halt: a drain with the module sending for ever (`42_command_framer.md` R151, R263). -/
def FedForEver (s : State) (r : Fault) : Prop := r = .drainNeverReturns ∧ s.flood ≠ []

/-- Everything an operation can do from `s`, with `P` of what it returns. -/
abbrev Flow.Inside {α : Type} (x : Flow α) (ok : Event → Bool) (s : State) (P : α → State → Prop) : Prop :=
  x.Sat (fun a t => Within ok s t ∧ P a t) (CutWithin ok s) (FedForEver s)

theorem Flow.Inside.of_within {α : Type} {x : Flow α} {ok : Event → Bool} {s t : State} {P : α → State → Prop}
    (h : Within ok s t) (hx : x.Inside ok t P) : x.Inside ok s P :=
  hx.mono (fun _ _ ha => ⟨h.trans ha.1, ha.2⟩) (fun _ ⟨v, hv, e⟩ => ⟨v, h.trans hv, e⟩)
    fun _ hr => ⟨hr.1, by rw [← h.flood]; exact hr.2⟩

theorem Flow.Inside.bind {α β : Type} {x : Flow α} {f : α → State → Flow β} {ok : Event → Bool} {s : State}
    {P : α → State → Prop} {Q : β → State → Prop} (hx : x.Inside ok s P)
    (hf : ∀ a t, Within ok s t → P a t → (f a t).Inside ok t Q) : (x.bind f).Inside ok s Q :=
  Flow.Sat.bind hx fun a t h => Flow.Inside.of_within h.1 (hf a t h.1 h.2)

theorem Flow.Inside.weaken {α : Type} {x : Flow α} {ok ok' : Event → Bool} {s : State} {P Q : α → State → Prop}
    (hx : x.Inside ok s P) (h : ∀ e, ok e = true → ok' e = true) (hp : ∀ a t, P a t → Q a t) :
    x.Inside ok' s Q :=
  hx.mono (fun a t ha => ⟨ha.1.mono h, hp a t ha.2⟩) (fun _ ⟨v, hv, e⟩ => ⟨v, hv.mono h, e⟩) fun _ hr => hr

/-! ## Primitives -/

/-- Everything `advance` can do, for an operation that starts with it. -/
theorem advance_inside (ok : Event → Bool) (ms : Nat) (s : State) :
    (advance ms s).Inside ok s fun _ t => t = s.moved (s.next ms) s.t0 [] := by
  rw [advance_eq]
  split
  · exact ⟨_, Within.moved s _ _ rfl, rfl⟩
  · exact ⟨Within.moved s _ _ rfl, rfl⟩

theorem Within.emit {ok : Event → Bool} {e : Event} (h : ok e = true) (s : State) :
    Within ok s (Machine.emit e s) :=
  ⟨rfl, rfl, rfl, id, [e], rfl, by simp [h]⟩

theorem driveM0_inside {ok : Event → Bool} (l : Bool) (h : ok (.m0 l) = true) (s : State) :
    (driveM0 l s).Inside ok s fun _ t => t.trace = s.trace ++ [.m0 l] :=
  (advance_inside ok 0 s).bind fun _ t _ ht =>
    ⟨⟨rfl, rfl, rfl, id, [.m0 l], rfl, by simp [h]⟩, by subst ht; simp⟩

theorem auxRead_inside {ok : Event → Bool} (h : ∀ l, ok (.aux l) = true) (s : State) :
    (auxRead s).Inside ok s fun _ _ => True :=
  (advance_inside ok 0 s).bind fun _ t _ _ => ⟨Within.emit (h _) t, trivial⟩

theorem sleep_inside {ok : Event → Bool} (n : Nat) (h : ok (.sleep n) = true) (s : State) :
    (sleep n s).Inside ok s fun _ _ => True :=
  Flow.Inside.of_within (t := { s with t0 := s.now }) ⟨rfl, rfl, rfl, id, [], by simp⟩
    ((advance_inside ok n _).bind fun _ t _ _ => ⟨Within.emit h t, trivial⟩)

theorem txByte_inside {ok : Event → Bool} (b : Byte) (h : ok (.tx b) = true) (s : State) :
    (txByte b s).Inside ok s fun _ _ => True :=
  (advance_inside ok 0 s).bind fun _ t _ _ => ⟨Within.emit h t, trivial⟩

theorem txBytes_inside {ok : Event → Bool} (h : ∀ b, ok (.tx b) = true) (bs : List Byte) (s : State) :
    (txBytes bs s).Inside ok s fun _ _ => True := by
  induction bs generalizing s with
  | nil => exact ⟨Within.refl ok s, trivial⟩
  | cons b bs ih => exact (txByte_inside b (h b) s).bind fun _ t _ _ => ih t

theorem diag_inside {ok : Event → Bool} (k : DiagKind) (l : Label) (h : ok (.diag k l) = true) (s : State) :
    (diag k l s).Inside ok s fun _ _ => True :=
  (advance_inside ok 0 s).bind fun _ t _ _ => ⟨Within.emit h t, trivial⟩

/-- The count is of bytes that are there, and it is the last event. -/
theorem rxAvail_inside {ok : Event → Bool} (h : ∀ n, ok (.avail n) = true) (s : State) :
    (rxAvail s).Inside ok s fun n t => n ≤ t.rx.length ∧ t.trace = s.trace ++ [.avail n] ∧
      t.rx = s.rx ++ s.arrivals ∧ t.script = s.script.tail :=
  (advance_inside ok 0 s).bind fun _ t _ ht =>
    ⟨Within.emit (h _) t, Nat.min_le_left _ _, by subst ht; simp, by subst ht; rfl, by subst ht; rfl⟩

/-- A read of what is there never faults, and takes one byte. -/
theorem rxRead_inside {ok : Event → Bool} (h : ∀ b, ok (.rx b) = true) {s : State} (hs : s.rx ≠ []) :
    (rxRead s).Inside ok s fun _ t => t.rx.length + 1 = s.rx.length + s.arrivals.length ∧
      t.script = s.script.tail :=
  (advance_inside ok 0 s).bind fun _ t _ ht => by
    subst ht
    cases hrx : s.rx with
    | nil => exact absurd hrx hs
    | cons b bs =>
      have : (s.moved (s.next 0) s.t0 []).rx = b :: (bs ++ s.arrivals) := by simp [State.next, hrx]
      rw [this]
      refine ⟨⟨rfl, rfl, rfl, id, [.rx b], rfl, by simp [h]⟩, ?_, rfl⟩
      simp only [emit_rx, List.length_append, List.length_cons]
      omega

/-! ## Sub-sequences -/

/-- The events of WAIT_AUX. -/
def Event.ofWait : Event → Bool
  | .aux _ => true
  | .diag .timeout _ => true
  | _ => false

theorem auxTimeout_inside (l : Label) (s : State) :
    (auxTimeout l s).Inside Event.ofWait s fun _ _ => True :=
  (diag_inside .timeout l rfl s).bind fun _ _ _ _ => ⟨⟨rfl, rfl, rfl, id, [], by simp⟩, trivial⟩

theorem pollAux_inside (l : Label) (n : Nat) (s : State) :
    (pollAux l n s).Inside Event.ofWait s fun _ _ => True := by
  induction n generalizing s with
  | zero =>
    refine (auxRead_inside (fun _ => rfl) s).bind fun v t _ _ => ?_
    split
    · exact ⟨Within.refl _ t, trivial⟩
    · let u : State := { t with now := t.now + BitVec.ofNat 64 (t.config.auxTimeoutMs - elapsed t) }
      have hu : Within Event.ofWait t u := ⟨rfl, rfl, rfl, id, [], by simp [u], rfl⟩
      exact Flow.Inside.of_within hu (auxTimeout_inside l u)
  | succ n ih =>
    refine (auxRead_inside (fun _ => rfl) s).bind fun v t _ _ => ?_
    split
    · exact ⟨Within.refl _ t, trivial⟩
    · split
      · exact auxTimeout_inside l t
      · exact ih t

/-- The events of a mode transition after its M0 drive. -/
def Event.ofSettle : Event → Bool
  | .sleep _ => true
  | .aux _ => true
  | .diag .timeout _ => true
  | _ => false

theorem Event.ofSettle_ofWait (e : Event) (h : e.ofWait = true) : e.ofSettle = true := by
  cases e with
  | diag k l => cases k <;> first | rfl | cases h
  | aux l => rfl
  | _ => cases h

/-- The events of a mode transition. -/
def Event.ofMode (level : Bool) : Event → Bool
  | .m0 l => l == level
  | e => e.ofSettle

theorem Event.ofMode_ofSettle (level : Bool) (e : Event) (h : e.ofSettle = true) : e.ofMode level = true := by
  cases e <;> first | exact h | cases h

/-- A mode transition drives M0 first and only once. -/
theorem modeSwitch_inside (level : Bool) (l : Label) (s : State) :
    ((driveM0 level s).bind fun _ s =>
        (sleep s.config.modeSettleMs s).bind fun _ s => waitAux l s).Inside (Event.ofMode level) s
      fun _ t => ∃ es, t.trace = s.trace ++ .m0 level :: es ∧ es.all Event.ofSettle = true := by
  refine (driveM0_inside level (by simp [Event.ofMode]) s).bind fun _ t _ ht => ?_
  have hw : (waitAux l : State → Flow Unit) = fun s => pollAux l s.script.length { s with t0 := s.now } := rfl
  have hrest : ((sleep t.config.modeSettleMs t).bind fun _ s => waitAux l s).Inside Event.ofSettle t
      fun _ _ => True := by
    refine (sleep_inside t.config.modeSettleMs rfl t).bind fun _ u _ _ => ?_
    rw [hw]
    refine Flow.Inside.of_within (t := { u with t0 := u.now }) ⟨rfl, rfl, rfl, id, [], by simp⟩ ?_
    exact (pollAux_inside l _ _).weaken Event.ofSettle_ofWait fun _ _ h => h
  refine hrest.mono (fun a u hu => ⟨hu.1.mono (Event.ofMode_ofSettle level), ?_⟩)
    (fun u hu => ?_) fun r hr => hr
  · obtain ⟨es, he, hok⟩ := hu.1.trace
    exact ⟨es, by rw [he, ht, List.append_assoc]; rfl, hok⟩
  · obtain ⟨v, hv, e⟩ := hu
    exact ⟨v, hv.mono (Event.ofMode_ofSettle level), e⟩

/-- The events of DRAIN. -/
def Event.ofDrain : Event → Bool
  | .avail _ => true
  | .rx _ => true
  | _ => false

/-- DRAIN returns right after a count of 0, and with a flood of nothing its fuel is never short. -/
theorem drainLoop_inside (fuel : Nat) (s : State)
    (hn : s.flood = [] → s.rx.length + scriptBytes s.script < fuel) :
    (drainLoop fuel s).Inside Event.ofDrain s fun _ t => ∃ tr, t.trace = tr ++ [.avail 0] := by
  induction fuel generalizing s with
  | zero => exact ⟨rfl, fun h => absurd (hn h) (Nat.not_lt_zero _)⟩
  | succ fuel ih =>
    refine (rxAvail_inside (fun _ => rfl) s).bind fun n t hw ht => ?_
    obtain ⟨hle, htr, hrx, hsc⟩ := ht
    split
    · rename_i h0
      subst h0
      exact ⟨Within.refl _ t, s.trace, htr⟩
    · rename_i h0
      have hne : t.rx ≠ [] := by
        intro he
        rw [he] at hle
        simp at hle
        exact h0 hle
      refine (rxRead_inside (fun _ => rfl) hne).bind fun _ u hwu hu => ih u fun hf => ?_
      have hft : t.flood = [] := hwu.flood ▸ hf
      have hfs : s.flood = [] := hw.flood ▸ hft
      have e1 := State.arrivals_scriptBytes hfs
      have e2 := State.arrivals_scriptBytes hft
      have e3 := hn hfs
      have e4 := congrArg List.length hrx
      rw [List.length_append] at e4
      rw [hu.2]
      rw [hsc] at e2 ⊢
      omega

theorem drain_inside (s : State) :
    (drain s).Inside Event.ofDrain s fun _ t => ∃ tr, t.trace = tr ++ [.avail 0] :=
  drainLoop_inside _ s fun _ => Nat.lt_succ_self _

/-- The events of a phase ParseResponse or Compare. -/
def Event.ofParse : Event → Bool
  | .avail _ => true
  | .rx _ => true
  | .diag _ _ => true
  | _ => false

/-- One more read while the count promised `n + 1` bytes. -/
theorem rxRead_inside_of_count {n : Nat} {s : State} (hn : n < s.rx.length) :
    (rxRead s).Inside Event.ofParse s fun _ t => n ≤ t.rx.length := by
  have hne : s.rx ≠ [] := by
    intro h
    simp [h] at hn
  exact (rxRead_inside (fun _ => rfl) hne).mono (fun _ _ h => ⟨h.1, by have := h.2.1; omega⟩)
    (fun _ h => h) fun _ h => h

theorem parse_inside (k : Reply) (s : State) : (parse k s).Inside Event.ofParse s fun _ _ => True := by
  cases k with
  | cfg =>
    refine (rxAvail_inside (fun _ => rfl) s).bind fun n t _ ht => ?_
    split
    · exact ⟨Within.refl _ t, trivial⟩
    · refine (rxRead_inside_of_count (n := 5) (by omega)).bind fun h t _ ht => ?_
      split
      · exact ⟨Within.refl _ t, trivial⟩
      · refine (rxRead_inside_of_count (n := 4) (by omega)).bind fun _ t _ ht => ?_
        refine (rxRead_inside_of_count (n := 3) (by omega)).bind fun _ t _ ht => ?_
        refine (rxRead_inside_of_count (n := 2) (by omega)).bind fun _ t _ ht => ?_
        refine (rxRead_inside_of_count (n := 1) (by omega)).bind fun _ t _ ht => ?_
        refine (rxRead_inside_of_count (n := 0) (by omega)).bind fun _ t _ _ => ?_
        exact ⟨⟨rfl, rfl, rfl, id, [], by simp⟩, trivial⟩
  | ver =>
    refine (rxAvail_inside (fun _ => rfl) s).bind fun n t _ ht => ?_
    split
    · exact ⟨Within.refl _ t, trivial⟩
    · refine (rxRead_inside_of_count (n := 3) (by omega)).bind fun _ t _ ht => ?_
      refine (rxRead_inside_of_count (n := 2) (by omega)).bind fun _ t _ ht => ?_
      refine (rxRead_inside_of_count (n := 1) (by omega)).bind fun _ t _ ht => ?_
      refine (rxRead_inside_of_count (n := 0) (by omega)).bind fun _ t _ _ => ?_
      exact ⟨⟨rfl, rfl, rfl, id, [], by simp⟩, trivial⟩
  | rssi =>
    refine (rxAvail_inside (fun _ => rfl) s).bind fun n t _ ht => ?_
    split
    · exact ⟨Within.refl _ t, trivial⟩
    · refine (rxRead_inside_of_count (n := 2) (by omega)).bind fun h t _ ht => ?_
      split
      · exact ⟨Within.refl _ t, trivial⟩
      · refine (rxRead_inside_of_count (n := 1) (by omega)).bind fun _ t _ ht => ?_
        refine (rxRead_inside_of_count (n := 0) (by omega)).bind fun _ t _ _ => ?_
        exact ⟨⟨rfl, rfl, rfl, id, [], by simp⟩, trivial⟩

theorem settleOutcome_inside (r : CmdResult) (l : Option Label) (s : State) :
    (settleOutcome r l s).Inside Event.ofParse s fun _ _ => True := by
  have h : Within Event.ofParse s { s with outcome := r } := ⟨rfl, rfl, rfl, id, [], by simp⟩
  unfold settleOutcome
  split
  · exact Flow.Inside.of_within h (diag_inside _ _ rfl _)
  · exact ⟨h, trivial⟩

/-! ## Phases -/

/-- The events a phase can emit. -/
def Phase.emits : Phase → Event → Bool
  | .localStep _, e => match e with | .begin _ => true | .print _ => true | _ => false
  | .configEnter, e => e.ofMode true
  | .drainPre, e => e.ofDrain
  | .send _, e => match e with | .tx _ => true | _ => false
  | .delay _, e => match e with | .sleep _ => true | _ => false
  | .normalBarrier, e => e.ofMode false
  | .parseResponse _ _, e => e.ofParse
  | .drainPost, e => e.ofDrain
  | .compare _, e => e.ofParse
  | .normalExit, e => e.ofMode false
  | .done, e => match e with | .done _ => true | _ => false

/-- How the events of a phase that returned end. -/
def Phase.ends (p : Phase) (s t : State) : Prop :=
  match p with
  | .configEnter => ∃ es, t.trace = s.trace ++ .m0 true :: es ∧ es.all Event.ofSettle = true
  | .drainPre => ∃ tr, t.trace = tr ++ [.avail 0]
  | _ => True

theorem CmdResult.code_le (r : CmdResult) : r.code.toNat ≤ 3 := by
  cases r <;> decide

/-- Everything a phase can do, in any environment. -/
theorem runPhase_inside (p : Phase) (s : State) :
    (runPhase p s).Inside p.emits s fun _ t => p.ends s t := by
  cases p with
  | localStep op =>
    refine (advance_inside _ 0 s).bind fun _ t _ _ => ⟨?_, trivial⟩
    cases op <;> first
      | exact ⟨rfl, rfl, rfl, id, [_], rfl, rfl⟩
      | exact ⟨rfl, rfl, rfl, id, [], by simp [localEffect], rfl⟩
  | configEnter => exact modeSwitch_inside true .config s
  | drainPre => exact drain_inside s
  | send r =>
    cases r with
    | triple op => exact txBytes_inside (fun _ => rfl) _ s
    | write op => exact txBytes_inside (fun _ => rfl) _ s
  | delay d => exact sleep_inside _ rfl s
  | normalBarrier => exact (modeSwitch_inside false .normal s).weaken (fun _ h => h) fun _ _ _ => trivial
  | parseResponse k l =>
    exact (parse_inside k s).bind fun r t _ _ => settleOutcome_inside r l t
  | drainPost => exact (drain_inside s).weaken (fun _ h => h) fun _ _ _ => trivial
  | compare l => exact settleOutcome_inside _ _ s
  | normalExit => exact (modeSwitch_inside false .normal s).weaken (fun _ h => h) fun _ _ _ => trivial
  | done =>
    exact (advance_inside _ 0 s).bind fun _ t _ _ =>
      ⟨⟨rfl, rfl, rfl, fun _ => CmdResult.code_le _, [.done t.outcome], rfl, rfl⟩, trivial⟩

/-- Everything the sequencer can do, in any environment: it ends in Idle. -/
theorem runSeq_inside (ps : List Phase) (s : State) :
    (runSeq ps s).Inside (fun _ => true) s fun _ t => t.seq = [] ∧ t.op = none := by
  induction ps generalizing s with
  | nil => exact ⟨⟨rfl, rfl, rfl, id, [], by simp⟩, rfl, rfl⟩
  | cons p ps ih =>
    refine Flow.Inside.of_within (t := { s with seq := p :: ps }) ⟨rfl, rfl, rfl, id, [], by simp⟩ ?_
    exact ((runPhase_inside p _).weaken (fun _ _ => rfl) fun _ _ h => h).bind fun _ t _ _ => ih t

/-- A command in any environment: a next state, Idle with nothing in progress, or an endless drain. -/
theorem runSeq_outcome (ps : List Phase) (s : State) :
    (∃ t, (runSeq ps s).toOutcome = .next t ∧ t.seq = [] ∧ t.op = none ∧ t.config = s.config ∧
      t.flood = s.flood ∧ t.hostInputs = s.hostInputs) ∨
    ∃ r, (runSeq ps s).toOutcome = .fault r ∧ FedForEver s r := by
  refine Flow.Sat.toOutcome ((runSeq_inside ps s).mono (fun _ t h => ?_) (fun t h => ?_) fun _ h => h)
  · exact ⟨h.2.1, h.2.2, h.1.config, h.1.flood, h.1.hostInputs⟩
  · obtain ⟨u, hu, rfl⟩ := h
    exact ⟨rfl, rfl, hu.config, hu.flood, hu.hostInputs⟩

end Sys2Proof.Machine
end

