-- ==== Sys2Proof/Laws/Step.lean ====
section
/-! SUPPORT. What an instruction and a step can do in any environment, and which of them a step is. -/

namespace Sys2Proof.Machine

/-! ## What a step is -/

/-- A presented word that is a command of the block is run, with the word taken from the port. -/
theorem step_run {s : State} {w : HostWord} {rest : List HostInput} {i : Instr} (hs : s.seq = [])
    (hp : s.hostInputs = .word w :: rest) (hd : decodeHost s.config w = some i) :
    step s = exec i { s with hostInputs := rest } := by
  unfold step fetch
  simp only [hs, hp, hd]

/-- Any other presented word is refused. -/
theorem step_refuse {s : State} {w : HostWord} {rest : List HostInput} (hs : s.seq = [])
    (hp : s.hostInputs = .word w :: rest) (hd : decodeHost s.config w = none) :
    step s = .next (refuseWord { s with hostInputs := rest }) := by
  unfold step fetch
  simp only [hs, hp, hd]

theorem step_reset {s : State} {rest : List HostInput} (hs : s.seq = [])
    (hp : s.hostInputs = .reset :: rest) : step s = .next (blockReset { s with hostInputs := rest }) := by
  unfold step fetch
  simp only [hs, hp]

theorem step_idle {s : State} (hs : s.seq = []) (hp : s.hostInputs = []) : step s = (advance 0 s).toOutcome := by
  unfold step fetch
  simp only [hs, hp]
  rfl

theorem step_busy {s : State} (hs : s.seq ≠ []) : step s = (runSeq s.seq s).toOutcome := by
  unfold step fetch
  cases h : s.seq with
  | nil => exact absurd h hs
  | cons p ps => simp only [resumeStep, h]

/-! ## What they do -/

/-- What holds of a next state, whatever was run from `s` in whatever environment. -/
def Settles (s t : State) : Prop := t.seq = [] ∧ t.config = s.config ∧ t.flood = s.flood

theorem runSeq_settles (ps : List Phase) (s : State) :
    (∃ t, (runSeq ps s).toOutcome = .next t ∧ Settles s t) ∨
      ∃ r, (runSeq ps s).toOutcome = .fault r ∧ FedForEver s r := by
  obtain ⟨t, e, h1, -, h2, h3, -⟩ | h := runSeq_outcome ps s
  · exact .inl ⟨t, e, h1, h2, h3⟩
  · exact .inr h

theorem runCommand_settles (i : Instr) (ps : List Phase) (s : State) :
    (∃ t, runCommand i ps s = .next t ∧ Settles s t) ∨ ∃ r, runCommand i ps s = .fault r ∧ FedForEver s r :=
  runSeq_settles ps (accept i s)

theorem runWriteFrame_settles (op : WriteOp) (g : Image) (s : State) :
    (∃ t, runWriteFrame op g s = .next t ∧ Settles s t) ∨ ∃ r, runWriteFrame op g s = .fault r ∧ FedForEver s r := by
  have h : (sendWrite op g { s with seq := [.send (.write op)] }).Inside (fun _ => true) s fun _ _ => True :=
    Flow.Inside.of_within (t := { s with seq := [.send (.write op)] }) ⟨rfl, rfl, rfl, id, [], by simp⟩
      (txBytes_inside (fun _ => rfl) _ _)
  refine Flow.Sat.toOutcome (Flow.Sat.bind (P := fun _ t => Within (fun _ => true) s t) ?_ fun _ t h => ?_)
  · exact h.mono (fun _ _ h => h.1) (fun t ⟨u, hu, e⟩ => by subst e; exact ⟨rfl, hu.config, hu.flood⟩) fun _ h => h
  · exact ⟨rfl, h.config, h.flood⟩

/-- Every instruction, in any environment, from a state that is not in the middle of a command. -/
theorem exec_settles (i : Instr) {s : State} (hs : s.seq = []) :
    (∃ t, exec i s = .next t ∧ Settles s t) ∨ ∃ r, exec i s = .fault r ∧ FedForEver s r := by
  cases i with
  | reqWritePersistent g => exact runWriteFrame_settles _ _ _
  | reqWriteVolatile g => exact runWriteFrame_settles _ _ _
  | printConfig =>
    show (∃ t, execPrintConfig s = .next t ∧ _) ∨ ∃ r, execPrintConfig s = .fault r ∧ _
    unfold execPrintConfig
    split
    · exact runCommand_settles _ _ s
    · exact .inl ⟨_, rfl, hs, rfl, rfl⟩
  | begin b =>
    show (∃ t, execBegin b s = .next t ∧ _) ∨ ∃ r, execBegin b s = .fault r ∧ _
    unfold execBegin
    split
    · exact runCommand_settles _ _ s
    · exact .inl ⟨_, rfl, hs, rfl, rfl⟩
  | reqReadConfig | reqReadVersion | reqReset | reqReadRssi => exact runSeq_settles _ s
  | rspCfg g => exact runSeq_settles _ { s with rx := _ }
  | rspVer v => exact runSeq_settles _ { s with rx := _ }
  | rspRssi r n => exact runSeq_settles _ { s with rx := _ }
  | writePersistent | writeVolatile => exact runCommand_settles _ _ (snapshot s)
  | _ =>
    simp only [exec, execEnterConfig, execEnterNormal, execSetFhsId, execSetFhssNums, execSetParity,
      execSetBaud, execSetAirRate, execSetChannel, execSetPower, execSetFec, execSetPullup, execSetIoMode,
      execSetSped, execSetOption, execGetConfigRaw, execReadConfig, execReadVersion, execReadRssi,
      execResetModule]
    exact runCommand_settles _ _ s

/-- Every step, from any state, in any environment. -/
theorem step_settles (s : State) :
    (∃ t, step s = .next t ∧ Settles s t) ∨ ∃ r, step s = .fault r ∧ FedForEver s r := by
  by_cases hs : s.seq = []
  · cases hp : s.hostInputs with
    | nil =>
      rw [step_idle hs hp]
      refine Flow.Sat.toOutcome ((advance_inside (fun _ => true) 0 s).mono (fun _ t h => ?_) (fun t h => ?_) fun _ h => h)
      · exact ⟨by rw [h.2]; exact hs, h.1.config, h.1.flood⟩
      · obtain ⟨u, hu, rfl⟩ := h
        exact ⟨rfl, hu.config, hu.flood⟩
    | cons h rest =>
      cases h with
      | reset => exact .inl ⟨_, step_reset hs hp, rfl, rfl, rfl⟩
      | word w =>
        cases hd : decodeHost s.config w with
        | none => exact .inl ⟨_, step_refuse hs hp hd, hs, rfl, rfl⟩
        | some i =>
          rw [step_run hs hp hd]
          exact exec_settles i (s := { s with hostInputs := rest }) hs
  · rw [step_busy hs]
    exact runSeq_settles _ s

end Sys2Proof.Machine
end

