-- ==== Sys2Proof/Laws/Trace.lean ====
section
/-! SUPPORT. The scans of a trace that the discipline of the wire is stated by: how they go through one trace after
another, and what events without a byte or without an M0 drive leave alone. -/

namespace Sys2Proof.Machine

/-- Whether a byte may come next after a trace (`txAfterDrain`'s flag). -/
def lastReady : Bool → List Event → Bool
  | ready, [] => ready
  | _, .tx _ :: es => lastReady true es
  | _, .avail n :: es => lastReady (n == 0) es
  | _, _ :: es => lastReady false es

theorem lastLevel_append (l : Bool) (a b : List Event) :
    lastLevel l (a ++ b) = lastLevel (lastLevel l a) b := by
  induction a generalizing l with
  | nil => rfl
  | cons e es ih => cases e <;> exact ih _

theorem lastReady_append (l : Bool) (a b : List Event) :
    lastReady l (a ++ b) = lastReady (lastReady l a) b := by
  induction a generalizing l with
  | nil => rfl
  | cons e es ih => cases e <;> exact ih _

theorem txInConfig_append (l : Bool) (a b : List Event) :
    txInConfig l (a ++ b) = (txInConfig l a && txInConfig (lastLevel l a) b) := by
  induction a generalizing l with
  | nil => simp [txInConfig, lastLevel]
  | cons e es ih => cases e <;> simp [txInConfig, lastLevel, ih, Bool.and_assoc]

theorem txAfterDrain_append (l : Bool) (a b : List Event) :
    txAfterDrain l (a ++ b) = (txAfterDrain l a && txAfterDrain (lastReady l a) b) := by
  induction a generalizing l with
  | nil => simp [txAfterDrain, lastReady]
  | cons e es ih => cases e <;> simp [txAfterDrain, lastReady, ih, Bool.and_assoc]

/-- How many reads may come next after a trace (`rxCounted`'s number). -/
def lastCount : Nat → List Event → Nat
  | k, [] => k
  | _, .avail n :: es => lastCount n es
  | k, .rx _ :: es => lastCount (k - 1) es
  | k, _ :: es => lastCount k es

theorem rxCounted_append (k : Nat) (a b : List Event) :
    rxCounted k (a ++ b) = (rxCounted k a && rxCounted (lastCount k a) b) := by
  induction a generalizing k with
  | nil => simp [rxCounted, lastCount]
  | cons e es ih => cases e <;> simp [rxCounted, lastCount, ih, Bool.and_assoc]

/-- A higher count allows what a lower one does. -/
theorem rxCounted_mono {k k' : Nat} (hk : k ≤ k') {es : List Event} (h : rxCounted k es = true) :
    rxCounted k' es = true := by
  induction es generalizing k k' with
  | nil => rfl
  | cons e es ih =>
    cases e with
    | avail n => exact h
    | rx b =>
      simp only [rxCounted, Bool.and_eq_true, bne_iff_ne] at h ⊢
      exact ⟨by omega, ih (by omega) h.2⟩
    | _ => exact ih hk h

/-- A part that is covered by its own counts is covered behind any other. -/
theorem rxCounted_append_of_zero {a b : List Event} {k : Nat} (ha : rxCounted k a = true)
    (hb : rxCounted 0 b = true) : rxCounted k (a ++ b) = true := by
  rw [rxCounted_append, ha, Bool.true_and]
  exact rxCounted_mono (Nat.zero_le _) hb

/-- A byte read off the RX queue. -/
def Event.isRx : Event → Bool
  | .rx _ => true
  | _ => false

theorem rxCounted_of_noRx (k : Nat) {es : List Event} (h : es.all (fun e => !e.isRx) = true) :
    rxCounted k es = true := by
  induction es generalizing k with
  | nil => rfl
  | cons e es ih =>
    rw [List.all_cons, Bool.and_eq_true] at h
    cases e <;> first | exact ih _ h.2 | cases h.1

/-- A byte on the TX stream. -/
def Event.isTx : Event → Bool
  | .tx _ => true
  | _ => false

/-- A drive of M0. -/
def Event.isM0 : Event → Bool
  | .m0 _ => true
  | _ => false

theorem txInConfig_of_noTx (l : Bool) {es : List Event} (h : es.all (fun e => !e.isTx) = true) :
    txInConfig l es = true := by
  induction es generalizing l with
  | nil => rfl
  | cons e es ih =>
    rw [List.all_cons, Bool.and_eq_true] at h
    cases e <;> first | exact ih _ h.2 | cases h.1

theorem txAfterDrain_of_noTx (l : Bool) {es : List Event} (h : es.all (fun e => !e.isTx) = true) :
    txAfterDrain l es = true := by
  induction es generalizing l with
  | nil => rfl
  | cons e es ih =>
    rw [List.all_cons, Bool.and_eq_true] at h
    cases e <;> first | exact ih _ h.2 | cases h.1

theorem lastLevel_of_noM0 (l : Bool) {es : List Event} (h : es.all (fun e => !e.isM0) = true) :
    lastLevel l es = l := by
  induction es generalizing l with
  | nil => rfl
  | cons e es ih =>
    rw [List.all_cons, Bool.and_eq_true] at h
    cases e <;> first | exact ih _ h.2 | cases h.1

/-- Bytes that may come keep both scans as they are. -/
theorem scans_of_tx {es : List Event} (h : es.all Event.isTx = true) :
    txInConfig true es = true ∧ txAfterDrain true es = true ∧ lastLevel true es = true ∧
      lastReady true es = true := by
  induction es with
  | nil => exact ⟨rfl, rfl, rfl, rfl⟩
  | cons e es ih =>
    rw [List.all_cons, Bool.and_eq_true] at h
    cases e <;> first | exact ih h.2 | cases h.1

end Sys2Proof.Machine
end

