-- ==== Sys2Proof/Tests/Slice0.lean ====
section
/-! SUPPORT. The model's own tests: ill-formed terms refused, a written-out word for every constructor, one or two
steps per instruction with results from `95_test_vectors.md`, and a witness for the hypotheses of every statement. -/

namespace Sys2Proof.Tests

open Sys2Proof Sys2Proof.Machine

/-! ## Helpers -/

/-- A value read off the next state. -/
def after {α : Type} (o : Host.Outcome State Fault Refusal) (f : State → α) : Option α :=
  match o with
  | .next t => some (f t)
  | .fault _ => none
  | .refused _ => none

/-- AUX ready, one millisecond, nothing sent. -/
def readyTick : Tick := ⟨1, true, [], false⟩

/-- A tick during which the module sends. -/
def sendTick (bs : List Byte) : Tick := ⟨1, true, bs, false⟩

/-- A reset. -/
def resetTick : Tick := ⟨1, true, [], true⟩

/-- After reset, AUX high, an image loaded, and the module answering at primitive `n`. -/
def answering (g : Image) (n : Nat) (bs : List Byte) : State :=
  { State.reset with cfg := g, aux := true, script := List.replicate n readyTick ++ [sendTick bs] }

/-- A state in which BEGIN was issued (R254). -/
def afterBegin (s : State) : State := { s with baud := 9600, trace := [.begin 9600] }

/-- The image of the source's example, 01 0A 1A 10 05. -/
def sample : Image := ⟨0x01, 0x0A, 0x1A, 0x10, 0x05⟩

/-- The image 11 22 33 44 55 of the vectors V-RC. -/
def elevens : Image := ⟨0x11, 0x22, 0x33, 0x44, 0x55⟩

/-- The frame C0 01 0A 1A 10 05. -/
def sampleFrame : List Byte := [0xC0, 0x01, 0x0A, 0x1A, 0x10, 0x05]

/-- `[EC]` of the vectors. -/
def enterEvents : List Event := [.m0 true, .sleep 50, .aux true]

/-- `[EN] DONE(r)` of the vectors. -/
def exitEvents (r : CmdResult) : List Event := [.m0 false, .sleep 50, .aux true, .done r]

/-- A vector's trace: `[EC]`, what stands between, `[EN] DONE(r)`. -/
def exchange (es : List Event) (r : CmdResult) : List Event := enterEvents ++ (es ++ exitEvents r)

/-! ## Well-formedness -/

theorem test_wf_printConfig_absent :
    Instr.wellFormed { Config.reference with hasDiagDecode := false } .printConfig = false := by decide

theorem test_wf_reference : Config.reference.wf = true := by decide

theorem test_wf_timeout_low : Config.wf { Config.reference with auxTimeoutMs := 299 } = false := by decide

theorem test_wf_timeout_high : Config.wf { Config.reference with auxTimeoutMs := 1001 } = false := by decide

theorem test_wf_settle_order : Config.wf { Config.reference with writeSettleVMs := 500 } = false := by decide

theorem test_wf_baud_width : Config.wf { Config.reference with baudW := 33 } = false := by decide

/-- A block whose BEGIN takes 17 bits. -/
def narrowBaud : Config := { Config.reference with baudW := 17 }

theorem test_wf_begin_too_wide :
    Instr.wellFormed narrowBaud (.begin 0x20000) = false ∧ Instr.wellFormed narrowBaud (.begin 0x1FFFF) = true := by
  decide

theorem test_wf_count_width : Config.wf { Config.reference with rxCountW := 2 } = false := by decide

/-! ## Words, from the "encoding" of `spec/opcode_table.json` -/

theorem test_word_reqReadConfig :
    decodeTableWord 24 0b110000011100000111000001 = some .reqReadConfig := by decide

theorem test_word_reqReadVersion :
    decodeTableWord 24 0b110000111100001111000011 = some .reqReadVersion := by decide

theorem test_word_reqReset :
    decodeTableWord 24 0b110001001100010011000100 = some .reqReset := by decide

theorem test_word_reqReadRssi :
    decodeTableWord 24 0b110001011100010111000101 = some .reqReadRssi := by decide

theorem test_word_reqWritePersistent :
    decodeTableWord 48 0b110000000000000100001010000110100001000000000101 =
      some (.reqWritePersistent ⟨0x01, 0x0A, 0x1A, 0x10, 0x05⟩) := by decide

theorem test_word_reqWriteVolatile :
    decodeTableWord 48 0b110000100000000100001010000110100001000000000101 =
      some (.reqWriteVolatile ⟨0x01, 0x0A, 0x1A, 0x10, 0x05⟩) := by decide

theorem test_word_rspVer :
    decodeTableWord 32 0b11000011001100100010110100010100 = some (.rspVer ⟨0xC3, 0x32, 0x2D, 0x14⟩) := by decide

theorem test_word_rspRssi :
    decodeTableWord 24 0b110001010101101000100000 = some (.rspRssi 0x5A 0x20) := by decide

theorem test_word_begin :
    decodeTableWord 40 0b0000000100000000000000000010010110000000 = some (.begin 9600) := by decide

theorem test_word_enterConfig :
    decodeTableWord 40 0b0000001000000000000000000000000000000000 = some .enterConfig := by decide

theorem test_word_enterNormal :
    decodeTableWord 40 0b0000001100000000000000000000000000000000 = some .enterNormal := by decide

theorem test_word_getConfigRaw :
    decodeTableWord 40 0b0001110000000000000000000000000000000000 = some .getConfigRaw := by decide

theorem test_word_readConfig :
    decodeTableWord 40 0b0010000000000000000000000000000000000000 = some .readConfig := by decide

theorem test_word_readVersion :
    decodeTableWord 40 0b0010000100000000000000000000000000000000 = some .readVersion := by decide

theorem test_word_readRssi :
    decodeTableWord 40 0b0010001000000000000000000000000000000000 = some .readRssi := by decide

theorem test_word_resetModule :
    decodeTableWord 40 0b0010001100000000000000000000000000000000 = some .resetModule := by decide

theorem test_word_writePersistent :
    decodeTableWord 40 0b0010010000000000000000000000000000000000 = some .writePersistent := by decide

theorem test_word_writeVolatile :
    decodeTableWord 40 0b0010010100000000000000000000000000000000 = some .writeVolatile := by decide

theorem test_word_printConfig :
    decodeTableWord 40 0b0011000000000000000000000000000000000000 = some .printConfig := by decide

theorem test_word_setFhsId :
    decodeTableWord 40 0b0001000000000000000000000000000000000001 = some (.setFhsId 1) := by decide

theorem test_word_setFhssNums :
    decodeTableWord 40 0b0001000100000000000000000000000000001010 = some (.setFhssNums 0xa) := by decide

theorem test_word_setParity :
    decodeTableWord 40 0b0001001000000000000000000000000000000011 = some (.setParity 3) := by decide

theorem test_word_setBaud :
    decodeTableWord 40 0b0001001100000000000000000000000000000111 = some (.setBaud 7) := by decide

theorem test_word_setAirRate :
    decodeTableWord 40 0b0001010000000000000000000000000000000111 = some (.setAirRate 7) := by decide

theorem test_word_setChannel :
    decodeTableWord 40 0b0001010100000000000000000000000011111111 = some (.setChannel 0xff) := by decide

theorem test_word_setPower :
    decodeTableWord 40 0b0001011000000000000000000000000000000001 = some (.setPower 1) := by decide

theorem test_word_setFec :
    decodeTableWord 40 0b0001011100000000000000000000000000000001 = some (.setFec 1) := by decide

theorem test_word_setPullup :
    decodeTableWord 40 0b0001100000000000000000000000000000000001 = some (.setPullup 1) := by decide

theorem test_word_setIoMode :
    decodeTableWord 40 0b0001100100000000000000000000000000000001 = some (.setIoMode 1) := by decide

theorem test_word_setSped :
    decodeTableWord 40 0b0001101000000000000000000000000000011010 = some (.setSped 0x1a) := by decide

theorem test_word_setOption :
    decodeTableWord 40 0b0001101100000000000000000000000010011000 = some (.setOption 0x98) := by decide

theorem test_word_rspCfg :
    decode .reference (.response [0b11000000#8, 0b00000001#8, 0b00001010#8,
      0b00011010#8, 0b00010000#8, 0b00000101#8]) =
      some (.rspCfg ⟨0x01, 0x0A, 0x1A, 0x10, 0x05⟩) := by decide

/-- R90 (b): SET_PARITY with a bit above its operand (V-RA24). -/
theorem test_word_operand_too_wide : decodeTableWord 40 0x1200000004 = none := by decide

/-- R90 (a): an unassigned code (V-RA25). -/
theorem test_word_unassigned : decodeTableWord 40 0x1D00000000 = none := by decide

/-- R83: a six-byte response with another header has no meaning. -/
theorem test_word_wrong_header : decode .reference (.response [0xC1, 0x01, 0x0A, 0x1A, 0x10, 0x05]) = none := by
  decide

/-- The three bytes of a triple request are equal. -/
theorem test_word_unequal_triple : decodeTableWord 24 0xC1C1C3 = none := by decide

/-! ## Wire frames -/

/-- V-RC8's drain of the residue AA BB C0 and the request after it. -/
theorem test_reqReadConfig :
    after (exec .reqReadConfig { State.reset with rx := [0xAA, 0xBB, 0xC0] }) (fun t => (t.trace, t.rx)) =
      some ([.avail 3, .rx 0xAA, .avail 2, .rx 0xBB, .avail 1, .rx 0xC0, .avail 0, .tx 0xC1, .tx 0xC1, .tx 0xC1],
        []) := by decide

theorem test_reqReadVersion :
    after (exec .reqReadVersion State.reset) (·.trace) = some [.avail 0, .tx 0xC3, .tx 0xC3, .tx 0xC3] := by decide

theorem test_reqReset :
    after (exec .reqReset State.reset) (·.trace) = some [.avail 0, .tx 0xC4, .tx 0xC4, .tx 0xC4] := by decide

theorem test_reqReadRssi :
    after (exec .reqReadRssi State.reset) (·.trace) = some [.avail 0, .tx 0xC5, .tx 0xC5, .tx 0xC5] := by decide

theorem test_reqWritePersistent :
    after (exec (.reqWritePersistent sample) State.reset) (·.trace) =
      some [.tx 0xC0, .tx 0x01, .tx 0x0A, .tx 0x1A, .tx 0x10, .tx 0x05] := by decide

theorem test_reqWriteVolatile :
    after (exec (.reqWriteVolatile sample) State.reset) (·.trace) =
      some [.tx 0xC2, .tx 0x01, .tx 0x0A, .tx 0x1A, .tx 0x10, .tx 0x05] := by decide

/-- V-RC1's parse, with a byte behind the frame that stays queued (V-RC4). -/
theorem test_rspCfg :
    after (exec (.rspCfg sample) { State.reset with rx := [0x77] }) (fun t => (t.cfg, t.rx)) =
      some (sample, [0x77]) := by decide

/-- V-RV2: no header check. -/
theorem test_rspVer :
    after (exec (.rspVer ⟨0x00, 0x11, 0x22, 0x33⟩) State.reset) (·.ver) = some ⟨0x00, 0x11, 0x22, 0x33⟩ := by decide

/-- V-RS1's parse. -/
theorem test_rspRssi :
    after (exec (.rspRssi 0x5A 0x20) State.reset) (fun t => (t.rssi, t.noise)) = some (0x5A, 0x20) := by decide

/-! ## Register accessors (vectors V-RA) -/

/-- The image after one accessor on an image with the given SPED and OPTION. -/
def accessor (i : Instr) (sped option : Byte) : Option (Byte × Byte) :=
  after (exec i { State.reset with cfg := ⟨0, 0, sped, 0, option⟩ }) fun t => (t.cfg.sped, t.cfg.option)

theorem test_setFhsId :
    after (exec (.setFhsId 0x01) State.reset) (fun t => (t.cfg, t.trace)) =
      some (⟨0x01, 0, 0, 0, 0⟩, [.done .ok]) := by decide

theorem test_setFhssNums :
    after (exec (.setFhssNums 0x0A) { State.reset with cfg := ⟨0x01, 0, 0, 0, 0⟩ }) (·.cfg) =
      some ⟨0x01, 0x0A, 0, 0, 0⟩ := by decide

theorem test_setParity_clears : accessor (.setParity 0) 0xFF 0 = some (0x3F, 0) := by decide

theorem test_setParity_preserves : accessor (.setParity 2) 0x1A 0 = some (0x9A, 0) := by decide

theorem test_setBaud_clears : accessor (.setBaud 0) 0xFF 0 = some (0xC7, 0) := by decide

theorem test_setBaud_sets : accessor (.setBaud 7) 0xC7 0 = some (0xFF, 0) := by decide

theorem test_setAirRate : accessor (.setAirRate 2) 0x18 0 = some (0x1A, 0) := by decide

theorem test_setAirRate_undefined_index : accessor (.setAirRate 7) 0xF8 0 = some (0xFF, 0) := by decide

theorem test_setChannel_out_of_range :
    after (exec (.setChannel 0xFF) State.reset) (·.cfg) = some ⟨0, 0, 0, 0xFF, 0⟩ := by decide

theorem test_setPower : accessor (.setPower 1) 0 0x04 = some (0, 0x05) := by decide

theorem test_setPower_preserves : accessor (.setPower 0) 0 0xFF = some (0, 0xFC) := by decide

theorem test_setFec : accessor (.setFec 1) 0 0x01 = some (0, 0x05) := by decide

theorem test_setFec_clears : accessor (.setFec 0) 0 0xFF = some (0, 0xFB) := by decide

theorem test_setPullup : accessor (.setPullup 1) 0 0x05 = some (0, 0x25) := by decide

theorem test_setPullup_clears : accessor (.setPullup 0) 0 0xFF = some (0, 0xDF) := by decide

theorem test_setIoMode : accessor (.setIoMode 1) 0 0x05 = some (0, 0x45) := by decide

theorem test_setIoMode_clears : accessor (.setIoMode 0) 0 0xFF = some (0, 0xBF) := by decide

theorem test_setSped : accessor (.setSped 0x1A) 0xFF 0 = some (0x1A, 0) := by decide

theorem test_setOption : accessor (.setOption 0x98) 0 0 = some (0, 0x98) := by decide

/-- V-RA23. -/
theorem test_getConfigRaw :
    after (exec .getConfigRaw { State.reset with cfg := sample }) State.cfgImage = some 0x05101A0A01 := by decide

/-- V-RA24 through the port: refused, CFG and STATUS unchanged. -/
theorem test_refused_word :
    after (step { State.reset with cfg := sample, status := 2, hostInputs := [.word 0x1200000004] })
      (fun t => (t.cfg, t.resultValid, response State.reset t)) = some (sample, false, some ⟨2, false, true⟩) := by
  decide

/-! ## Mode control (vectors V-MC) -/

/-- V-MC1. -/
theorem test_enterConfig_ready :
    after (exec .enterConfig { State.reset with aux := true }) (fun t => (t.trace, t.m0, t.tmo, t.status)) =
      some ([.m0 true, .sleep 50, .aux true, .done .ok], true, false, 0) := by decide

/-- V-MC2: AUX low for ever; at least 50 + 1000 ms have passed. -/
theorem test_enterConfig_timeout :
    after (exec .enterConfig State.reset) (fun t => (t.trace, t.m0, t.tmo, t.status, t.now)) =
      some ([.m0 true, .sleep 50, .aux false, .diag .timeout .config, .done .ok], true, true, 0, 1050) := by decide

/-- V-MC5: AUX goes high 300 ms after the sleep. -/
theorem test_enterNormal_late :
    after (exec .enterNormal { State.reset with script :=
        [⟨0, false, [], false⟩, ⟨50, false, [], false⟩, ⟨299, false, [], false⟩, ⟨1, true, [], false⟩] })
      (fun t => (t.trace, t.m0, t.tmo)) =
      some ([.m0 false, .sleep 50, .aux false, .aux true, .done .ok], false, false) := by decide

/-- V-MC7: TMO is cleared at acceptance. -/
theorem test_enterNormal_clears_timeout :
    after (exec .enterNormal { State.reset with aux := true, tmo := true, m0 := true })
      (fun t => (t.tmo, t.m0)) = some (false, false) := by decide

/-! ## Command framer (vectors V-RC, V-RV, V-RS, V-RM) -/

/-- V-RC4: a surplus byte is drained. -/
theorem test_readConfig_surplus :
    after (exec .readConfig (answering elevens 7 (sampleFrame ++ [0x77]))) (fun t => (t.trace, t.cfg, t.status)) =
      some (exchange [.avail 0, .tx 0xC1, .tx 0xC1, .tx 0xC1, .sleep 100, .avail 7, .rx 0xC0, .rx 0x01,
        .rx 0x0A, .rx 0x1A, .rx 0x10, .rx 0x05, .avail 1, .rx 0x77, .avail 0] .ok, sample, 0) := by
  decide

/-- V-RC6: one byte C1 is InsufficientData, not ProtocolMismatch. -/
theorem test_readConfig_short :
    after (exec .readConfig (answering elevens 7 [0xC1])) (fun t => (t.trace, t.cfg, t.status)) =
      some (exchange [.avail 0, .tx 0xC1, .tx 0xC1, .tx 0xC1, .sleep 100, .avail 1,
        .diag .insufficientData .readConfig, .avail 1, .rx 0xC1, .avail 0] .insufficientData,
        elevens, 1) := by decide

/-- V-RV1. -/
theorem test_readVersion :
    after (exec .readVersion (answering .zero 7 [0xC3, 0x32, 0x2D, 0x14])) (fun t => (t.trace, t.ver, t.status)) =
      some (exchange [.avail 0, .tx 0xC3, .tx 0xC3, .tx 0xC3, .sleep 100, .avail 4, .rx 0xC3, .rx 0x32,
        .rx 0x2D, .rx 0x14, .avail 0] .ok, ⟨0xC3, 0x32, 0x2D, 0x14⟩, 0) := by decide

/-- V-RV3. -/
theorem test_readVersion_short :
    after (exec .readVersion { answering .zero 7 [0xC3, 0x32, 0x2D] with ver := ⟨0xC3, 0x32, 0x2D, 0x14⟩ })
      (fun t => (t.ver, t.status)) = some (⟨0xC3, 0x32, 0x2D, 0x14⟩, 1) := by decide

/-- V-RS2. -/
theorem test_readRssi_mismatch :
    after (exec .readRssi { answering .zero 7 [0xC0, 0x5A, 0x20] with rssi := 0x5A, noise := 0x20 })
      (fun t => (t.trace, t.rssi, t.noise, t.status)) =
      some (exchange [.avail 0, .tx 0xC5, .tx 0xC5, .tx 0xC5, .sleep 100, .avail 3, .rx 0xC0,
        .diag .protocolMismatch .readRssi, .avail 2, .rx 0x5A, .avail 1, .rx 0x20, .avail 0] .protocolMismatch, 0x5A, 0x20, 2) := by decide

/-- AUX low for ever: one poll, the bound, the diagnostic; eight primitives of drain and request; the answer. -/
def neverReady : List Tick :=
  [⟨0, false, [], false⟩, ⟨0, false, [], false⟩, ⟨1000, false, [], false⟩, ⟨0, false, [], false⟩] ++
    List.replicate 8 ⟨0, false, [], false⟩ ++ [⟨0, false, [0xC5, 0x5A, 0x20, 0xFF], false⟩]

/-- P3: stale bytes, AUX never ready, a surplus byte. -/
theorem test_readRssi_never_ready :
    after (exec .readRssi { State.reset with rx := [0xAA, 0xBB], script := neverReady })
      (fun t => ((t.rssi, t.noise, t.status), t.tmo, t.m0, t.rx)) = some ((0x5A, 0x20, 0), true, false, []) := by
  decide

/-- V-RM2: what the module emits after the request is discarded. -/
theorem test_resetModule :
    after (exec .resetModule (answering sample 7 [0x4F, 0x4B])) (fun t => (t.trace, t.cfg, t.status)) =
      some (exchange [.avail 0, .tx 0xC4, .tx 0xC4, .tx 0xC4, .sleep 0, .avail 2, .rx 0x4F, .avail 1,
        .rx 0x4B, .avail 0] .ok, sample, 0) := by decide

/-! ## Write-verify (vectors V-WV, programs P1, P2) -/

/-- V-WV3: a pull-up bit set on the module's side alone breaks the verify. -/
theorem test_writePersistent_mismatch :
    after (exec .writePersistent (answering sample 18 [0xC0, 0x01, 0x0A, 0x1A, 0x10, 0x25]))
      (fun t => (txStream t.trace, m0Events t.trace, t.cfg, t.intended, t.status)) =
      some (sampleFrame ++ [0xC1, 0xC1, 0xC1], [true, true, false], ⟨0x01, 0x0A, 0x1A, 0x10, 0x25⟩, sample, 3) := by
  decide

/-- The module echoes the write frame in the write's settle sleep, and answers the read. -/
def echoAndAnswer : List Tick :=
  List.replicate 10 readyTick ++ [sendTick sampleFrame] ++ List.replicate 19 readyTick ++ [sendTick sampleFrame]

/-- P1: the echo that arrives in the write's settle sleep is drained, and the read-back verifies. -/
theorem test_writePersistent_verified :
    after (exec .writePersistent { State.reset with cfg := sample, aux := true, script := echoAndAnswer })
      (fun t => (t.cfg, t.status, diagnostics t.trace, t.rx)) = some (sample, 0, [], []) := by decide

/-- P2's first write: the read-back has another channel. -/
theorem test_writeVolatile_mismatch :
    after (exec .writeVolatile (answering sample 21 [0xC0, 0x01, 0x0A, 0x1A, 0x11, 0x05]))
      (fun t => (t.trace, t.cfg, t.status)) =
      some (exchange [.avail 0, .tx 0xC2, .tx 0x01, .tx 0x0A, .tx 0x1A, .tx 0x10, .tx 0x05, .sleep 100,
        .m0 false, .sleep 50, .aux true, .m0 true, .sleep 50, .aux true, .avail 0, .tx 0xC1, .tx 0xC1, .tx 0xC1, .sleep 100,
        .avail 6, .rx 0xC0, .rx 0x01, .rx 0x0A, .rx 0x1A, .rx 0x11, .rx 0x05, .avail 0,
        .diag .verificationMismatch .writeVolatile] .verificationMismatch,
        ⟨0x01, 0x0A, 0x1A, 0x11, 0x05⟩, 3) := by decide

/-- V-WV5's case on the volatile path: no answer is ReadFailed. -/
theorem test_writeVolatile_no_answer :
    after (exec .writeVolatile { State.reset with cfg := sample, aux := true })
      (fun t => (t.cfg, t.status, diagnostics t.trace)) =
      some (sample, 1, [(.insufficientData, .writeVolatile)]) := by decide

/-! ## Lifecycle and decode (V-LC, section 2.5) -/

/-- V-LC1. -/
theorem test_begin :
    after (exec (.begin 9600) State.reset) (fun t => (t.trace, t.baud, t.m0)) =
      some ([.begin 9600, .done .ok], 9600, false) := by decide

/-- R90 (b): a rate with a bit above BAUD_W is refused. -/
theorem test_begin_too_wide :
    after (exec (.begin 0x20000) { State.reset with config := narrowBaud }) (fun t => (t.trace, t.baud)) =
      some ([.refused], 0) := by decide

/-- V-LC3: 0 is forwarded unchecked. -/
theorem test_begin_zero :
    after (exec (.begin 0) State.reset) (·.trace) = some [.begin 0, .done .ok] := by decide

/-- The decode of 01 0A 1A 10 05. -/
theorem test_printConfig :
    after (exec .printConfig { State.reset with cfg := sample }) (·.trace) =
      some [.print ⟨.p8N1, 9600, some 64, 433000, 27, true, false, false⟩, .done .ok] := by decide

/-- The decode of SPED = 0xC0. -/
theorem test_printConfig_reserved_parity :
    after (exec .printConfig { State.reset with cfg := ⟨0, 0, 0xC0, 0x33, 0⟩ }) (·.trace) =
      some [.print ⟨.p8N1, 1200, some 16, 450500, 30, false, false, false⟩, .done .ok] := by decide

/-! ## Reset (R28, R252) and the fetch -/

/-- Section 2.6: what the host sees after reset. -/
theorem test_reset_outputs :
    (State.reset.cfgImage, State.reset.m0, State.reset.cmdReady, State.reset.status, State.reset.verBuf) =
      (0, false, true, 0, 0) := by decide

/-- A reset at the sixth primitive. -/
def resetAtFive : List Tick := List.replicate 5 readyTick ++ [resetTick]

/-- R252: a reset after the first byte of the request abandons the command. -/
theorem test_reset_mid_command :
    after (exec .readConfig { State.reset with cfg := sample, aux := true, script := resetAtFive }) (fun t => (t.cfg, t.m0, txStream t.trace, t.cmdReady)) =
      some (.zero, false, [0xC1], true) := by decide

/-- R252: a reset 1 ms into the 50 ms settle sleep of ENTER_CONFIG, 6 ms after its start. -/
theorem test_reset_in_sleep :
    after (exec .enterConfig { State.reset with script := [⟨5, true, [], false⟩, ⟨1, true, [], true⟩] })
      (fun t => (t.now, t.m0, t.trace)) = some (6, false, [.m0 true]) := by decide

/-- R252: a reset on Done of BEGIN, after its pulse: no completion, no response, BAUD at its reset value. -/
theorem test_reset_on_done :
    after (exec (.begin 9600) { State.reset with script := [readyTick, resetTick] })
      (fun t => (t.trace, t.baud, response State.reset t)) = some ([.begin 9600], 0, none) := by decide

/-- R42, R250: after a completed command, an idle step and a reset give no `rsp_valid` pulse. -/
theorem test_no_pulse_after_idle_or_reset :
    after (step { State.reset with trace := [.done .ok] }) (fun t => response { State.reset with trace := [.done .ok] } t) =
      some none ∧
    after (step { State.reset with trace := [.done .ok], hostInputs := [.reset] })
      (fun t => response { State.reset with trace := [.done .ok] } t) = some none := by decide

/-- R151, R263: DRAIN fed for ever. -/
theorem test_drain_fed_for_ever :
    (match exec .readRssi { State.reset with flood := [0x00] } with
      | .fault r => some r
      | _ => none) = some .drainNeverReturns := by decide

/-- A command word placed where the step fetches is run by it. -/
theorem test_fetch_word :
    after (step (State.reset.withFetchWord 40 0x0100002580)) (·.baud) = some 9600 := by decide

/-- A request placed where the step fetches is sent by it. -/
theorem test_fetch_request :
    after (step (State.reset.withFetchWord 24 0xC3C3C3)) (fun t => txStream t.trace) = some [0xC3, 0xC3, 0xC3] := by
  decide

/-- A response placed where the step fetches is parsed by it. -/
theorem test_fetch_response :
    after (step (State.reset.withFetchWord 24 0xC55A20)) (fun t => (t.rssi, t.noise)) = some (0x5A, 0x20) := by
  decide

/-! ## Witnesses: states and operands that meet the hypotheses of the statements

Each is named after its statement; where a statement has clauses, one witness per clause, at the boundary. -/

/-- An idle block with a word at the port. -/
def presenting (w : HostWord) : State := { State.reset with hostInputs := [.word w] }

theorem witness_StepRunsPresentedCommand :
    (presenting 0x0200000000).seq = [] ∧ (presenting 0x0200000000).hostInputs = .word 0x0200000000 :: [] ∧
      decode (presenting 0x0200000000).config (.host 0x0200000000) = some .enterConfig := by decide

theorem witness_StepSendsRequestAtSequencer :
    (State.reset.withFetchWord 24 0xC1C1C1).seq = [.drainPre, .send (.triple .readConfig)] ∧
    (State.reset.withFetchWord 24 0xC3C3C3).seq = [.drainPre, .send (.triple .readVersion)] ∧
    (State.reset.withFetchWord 24 0xC4C4C4).seq = [.drainPre, .send (.triple .reset)] ∧
    (State.reset.withFetchWord 24 0xC5C5C5).seq = [.drainPre, .send (.triple .readRssi)] ∧
    ((State.reset.withFetchWord 48 0xC0010A1A1005).seq = [.send (.write .persistent)] ∧
      (State.reset.withFetchWord 48 0xC0010A1A1005).intended = sample) ∧
    ((State.reset.withFetchWord 48 0xC2010A1A1005).seq = [.send (.write .volatile)] ∧
      (State.reset.withFetchWord 48 0xC2010A1A1005).intended = sample) := by decide

/-- A busy block at a parse, with bytes in the queue. -/
def parsing (k : Reply) (rx : List Byte) : State := { State.reset with seq := [.parseResponse k none], rx := rx }

theorem witness_StepParsesResponseAtQueueHead_cfg :
    decode (parsing .cfg (sampleFrame ++ [0x77])).config (.response sampleFrame) = some (.rspCfg sample) ∧
      (parsing .cfg (sampleFrame ++ [0x77])).rx = sampleFrame ++ [0x77] ∧
      (parsing .cfg (sampleFrame ++ [0x77])).seq = [.parseResponse .cfg none] ∧ sampleFrame.length = 6 := by decide

theorem witness_StepParsesResponseAtQueueHead_ver :
    decode (parsing .ver [0, 1, 2, 3]).config (.response [0, 1, 2, 3]) = some (.rspVer ⟨0, 1, 2, 3⟩) ∧
      (parsing .ver [0, 1, 2, 3]).rx = [0, 1, 2, 3] ++ [] ∧
      (parsing .ver [0, 1, 2, 3]).seq = [.parseResponse .ver none] := by decide

theorem witness_StepParsesResponseAtQueueHead_rssi :
    decode (parsing .rssi [0xC5, 1, 2]).config (.response [0xC5, 1, 2]) = some (.rspRssi 1 2) ∧
      (parsing .rssi [0xC5, 1, 2]).rx = [0xC5, 1, 2] ++ [] ∧
      (parsing .rssi [0xC5, 1, 2]).seq = [.parseResponse .rssi none] := by decide

/-- No instruction has the unassigned code 0x1D. -/
theorem witness_RefusedWordChangesNothing :
    (presenting 0x1D00000000).seq = [] ∧ (presenting 0x1D00000000).hostInputs = .word 0x1D00000000 :: [] ∧
      ∀ i, encode i = .host 0x1D00000000 → i.wellFormed (presenting 0x1D00000000).config = false := by
  refine ⟨rfl, rfl, fun i h => ?_⟩
  cases i <;> simp only [encode, Frame.host.injEq, reduceCtorEq] at h <;>
    exact absurd (congrArg codeOf h) (by rw [codeOf_hostWord]; decide)

/-- A block that does not have PRINT_CONFIG. -/
def withoutPrint : State :=
  { presenting 0x3000000000 with config := { Config.reference with hasDiagDecode := false } }

/-- PRINT_CONFIG's word in a block without it. -/
theorem witness_RefusedWordChangesNothing_absent_row :
    withoutPrint.seq = [] ∧ withoutPrint.hostInputs = .word 0x3000000000 :: [] ∧
      ∀ i, encode i = .host 0x3000000000 → i.wellFormed withoutPrint.config = false := by
  refine ⟨rfl, rfl, fun i h => ?_⟩
  cases i <;> simp only [encode, Frame.host.injEq, reduceCtorEq] at h <;> first
    | rfl
    | exact absurd (congrArg codeOf h) (by rw [codeOf_hostWord]; decide)

theorem witness_BusyBlockTakesNoWord :
    (afterBegin (parsing .cfg [])).seq ≠ [] ∧ (afterBegin (parsing .cfg [])).flood = [] ∧
      (afterBegin (parsing .cfg [])).booted = true := by decide

/-- A busy block that does not reach the transport again needs no BEGIN. -/
theorem witness_BusyBlockTakesNoWord_without_begin :
    { State.reset with seq := [.normalExit, .done] }.seq ≠ [] ∧ State.reset.flood = [] ∧
      { State.reset with seq := [.normalExit, .done] }.booted = true := by decide

theorem witness_IdleBlockHoldsRegisters :
    State.reset.seq = [] ∧ State.reset.hostInputs = [] ∧ State.reset.noReset = true := by decide

theorem witness_ParametersAreNeverWritten : ∃ t, step State.reset = .next t := ⟨_, rfl⟩

theorem witness_EveryStepCompletesUnlessFedForEver :
    (State.reset.flood = [] ∧ State.reset.booted = true) ∧
    ((presenting 0x0100002580).flood = [] ∧ (presenting 0x0100002580).booted = true) ∧
    ((afterBegin (presenting 0x2400000000)).flood = [] ∧ (afterBegin (presenting 0x2400000000)).booted = true ∧
      (presenting 0x2400000000).booted = false) ∧
    (afterBegin (parsing .cfg [0])).flood = [] ∧ (afterBegin (parsing .cfg [0])).booted = true := by decide

/-- A drain in progress, fed for ever. -/
def fedForEver : State := { State.reset with seq := [.drainPost], flood := [0x00] }

theorem witness_OnlyAnEndlessDrainStops :
    ((afterBegin fedForEver).booted = true ∧ step (afterBegin fedForEver) = .fault .drainNeverReturns ∧
      (afterBegin fedForEver).flood ≠ []) ∧
    State.reset.booted = true ∧ ∃ t, step State.reset = .next t :=
  ⟨⟨by decide, rfl, by decide⟩, by decide, _, rfl⟩

theorem witness_NoStepReadsAnEmptyQueue :
    (afterBegin (parsing .cfg sampleFrame)).booted = true ∧ (parsing .cfg sampleFrame).booted = false ∧
      State.reset.booted = true := by decide

/-- Six counted reads of a parse, before BEGIN. -/
theorem witness_EveryReadFollowsItsCount :
    after (step (parsing .cfg sampleFrame)) (fun t => rxStream (newEvents (parsing .cfg sampleFrame) t)) =
      some sampleFrame := by decide

theorem witness_DrainFedForEverNeverReturns :
    (afterBegin { fedForEver with seq := [] }).begun = true ∧ (afterBegin { fedForEver with seq := [] }).script = [] ∧
      (afterBegin { fedForEver with seq := [] }).flood ≠ [] ∧
      1 ≤ (afterBegin { fedForEver with seq := [] }).config.rxCountW := by decide

/-- The host asserts `rst`. -/
def resetting : State := { State.reset with cfg := sample, status := 3, hostInputs := [.reset] }

theorem witness_ResetLeavesTheStatedValues :
    resetting.seq = [] ∧ resetting.hostInputs = .reset :: [] := by decide

/-- The environment's ticks up to a reset after `n` of them. -/
def resetAfter (n : Nat) : State :=
  afterBegin { State.reset with aux := true, script := List.replicate n readyTick ++ resetTick :: [] }

/-- A reset at the first primitive, and at the eighth. -/
theorem witness_ResetAbandonsReadConfig :
    ∀ n, n = 0 ∨ n = 7 → (resetAfter n).begun = true ∧ (resetAfter n).rx = [] ∧
      (resetAfter n).script = List.replicate n readyTick ++ resetTick :: [] ∧
      (List.replicate n readyTick).length ≤ 7 ∧ (List.replicate n readyTick).all Tick.ready = true ∧
      resetTick.rst = true := by
  rintro n (rfl | rfl) <;> decide

/-- Cut on Done, for a command without the transport; cut in the request, for one with it; ended before the reset. -/
theorem witness_ResetAbandonsEveryInstruction :
    ((resetAfter 1).script = [readyTick] ++ resetTick :: [] ∧ usesTransport (.begin 9600) = false ∧
      after (exec (.begin 9600) (resetAfter 1)) (·.trace) = some [.begin 9600, .begin 9600]) ∧
    ((resetAfter 5).script = List.replicate 5 readyTick ++ resetTick :: [] ∧ (resetAfter 5).begun = true ∧
      after (exec .writeVolatile (resetAfter 5)) (fun t => (t.script, txStream t.trace)) = some ([], [0xC2])) ∧
    ((resetAfter 3).script = List.replicate 3 readyTick ++ resetTick :: [] ∧
      after (exec (.setFec 1) (resetAfter 3)) (·.script) = some ((List.replicate 3 readyTick).drop 2 ++ resetTick :: []) ∧
      (List.replicate 3 readyTick).all (fun t => !t.rst) = true) := by decide

theorem witness_ResetCutsASleepAtOnce :
    (resetAfter 1).begun = true ∧ usesTransport .enterConfig = false ∧
      (resetAfter 1).script = readyTick :: resetTick :: [] ∧ readyTick.rst = false ∧ resetTick.rst = true ∧
      resetTick.dt < (resetAfter 1).config.modeSettleMs := by decide

theorem witness_ResetCutsTheRunShort :
    (resetAfter 5).begun = true ∧
    (resetAfter 5).script = List.replicate 5 readyTick ++ resetTick :: [] ∧
    (List.replicate 5 readyTick).all (fun t => !t.rst) = true ∧
    (∃ t, exec .resetModule (resetAfter 5) = .next t) ∧
    ∃ u, exec .resetModule { resetAfter 5 with
      script := List.replicate 5 readyTick ++ { resetTick with rst := false } :: [] } = .next u :=
  ⟨rfl, rfl, by decide, ⟨_, rfl⟩, _, rfl⟩

/-- Its clause on a cut: in a request, and on Done of an accessor, which has emitted nothing. -/
theorem witness_ResetCutsTheRunShort_cut :
    after (exec .resetModule (resetAfter 5)) (fun t => (t.script, newEvents (resetAfter 5) t)) =
      some ([], [.m0 true, .sleep 50, .aux true, .avail 0, .tx 0xC4]) ∧
    after (exec (.setFec 1) (resetAfter 1)) (fun t => (t.script, newEvents (resetAfter 1) t)) = some ([], []) := by
  decide

/-- The premise of the statements on the accessors. -/
theorem witness_accessors_complete :
    { State.reset with script := [readyTick] }.noReset = true ∧ (State.reset.noReset = true) := by decide

theorem witness_FieldSettersPreserveSiblings :
    setterOf (.setFhsId 0xFF) = some (.fhsId, 0xFF) ∧ setterOf (.setFhssNums 0xFF) = some (.fhssNums, 0xFF) ∧
    setterOf (.setParity 3) = some (.parity, 3) ∧ setterOf (.setBaud 7) = some (.baudIndex, 7) ∧
    setterOf (.setAirRate 7) = some (.airRate, 7) ∧ setterOf (.setChannel 0xFF) = some (.channel, 0xFF) ∧
    setterOf (.setPower 3) = some (.power, 3) ∧ setterOf (.setFec 1) = some (.fec, 1) ∧
    setterOf (.setPullup 1) = some (.pullup, 1) ∧ setterOf (.setIoMode 1) = some (.ioMode, 1) := by decide

theorem witness_FieldSettersPreserveSiblings_unnamed_bits :
    State.reset.noReset = true ∧ ∃ t, exec (.setOption 0x98) State.reset = .next t ∧
      t.cfg.option &&& 0x98 ≠ State.reset.cfg.option &&& 0x98 := ⟨by decide, _, rfl, by decide⟩

theorem witness_SettersOfDifferentFieldsCommute :
    State.reset.noReset = true ∧ setterOf (.setParity 3) = some (.parity, 3) ∧
      setterOf (.setAirRate 7) = some (.airRate, 7) ∧ (Field.parity ≠ Field.airRate) := by decide

theorem witness_LastValueOfAFieldStands :
    State.reset.noReset = true ∧ setterOf (.setBaud 0) = some (.baudIndex, 0) ∧ setterOf (.setBaud 7) = some (.baudIndex, 7) := by decide

theorem witness_SettingTheCurrentValueChangesNothing :
    State.reset.noReset = true ∧ setterOf (.setAirRate 2) = some (.airRate, 2) ∧
      fieldGet { State.reset with cfg := sample }.cfg .airRate = 2 := by decide

/-- The widest rate that fits 17 bits, and the narrowest that does not; every rate fits 32 bits. -/
theorem witness_BeginForwardsTheBaudRate :
    { State.reset with config := narrowBaud }.noReset = true ∧ (0x1FFFF : BitVec 32).toNat < 2 ^ narrowBaud.baudW ∧
      2 ^ narrowBaud.baudW ≤ (0x20000 : BitVec 32).toNat ∧
      (0xFFFFFFFF : BitVec 32).toNat < 2 ^ Config.reference.baudW := by decide

theorem witness_PrintConfigEmitsTheDecode :
    State.reset.noReset = true ∧ withoutPrint.noReset = true ∧ State.reset.config.hasDiagDecode = true ∧ withoutPrint.config.hasDiagDecode = false := by decide

/-- The four values of the parity field. -/
theorem witness_DecodeFollowsTheTables :
    (0x3F : Byte).extractLsb' 6 2 = 0 ∧ (0xC0 : Byte).extractLsb' 6 2 = 3 ∧ (0x7F : Byte).extractLsb' 6 2 = 1 ∧
      (0xBF : Byte).extractLsb' 6 2 = 2 := by decide

theorem witness_RateDecodeFollowsTheTables :
    (0xC7 : Byte).extractLsb' 3 3 = 0 ∧ (0x18 : Byte).extractLsb' 3 3 = 3 ∧ (0x3F : Byte).extractLsb' 3 3 = 7 := by
  decide

theorem witness_EnterConfigDrivesSettlesAndWaits : State.reset.noReset = true := by decide

theorem witness_EnterNormalDrivesSettlesAndWaits :
    { State.reset with m0 := true, script := [readyTick] }.noReset = true := by decide

/-- The third tick is the first poll. -/
def readyAtOnce : State :=
  { State.reset with script := [⟨0, false, [], false⟩, ⟨60, false, [0x01], false⟩, ⟨2000, true, [], false⟩] }

theorem witness_ReadyAtTheFirstPollEndsTheWait :
    readyAtOnce.script =
        ⟨0, false, [], false⟩ :: ⟨60, false, [0x01], false⟩ :: ⟨2000, true, [], false⟩ :: [] ∧
      readyAtOnce.noReset = true ∧ Tick.aux ⟨2000, true, [], false⟩ = true := by decide

theorem witness_AuxStuckLowTimesOutAndGoesOn :
    { State.reset with script := [⟨1, false, [], false⟩] }.noReset = true ∧
      { State.reset with script := [⟨1, false, [], false⟩] }.aux = false ∧
      { State.reset with script := [⟨1, false, [], false⟩] }.script.all (fun t => !t.aux) = true := by decide

/-- A wait that times out. -/
theorem witness_TimeoutComesNoEarlierThanTheBound :
    State.reset.noReset = true ∧ State.reset.config.auxTimeoutMs < 2 ^ 64 ∧
      ∃ t, waitAux .config State.reset = .ret () t ∧ t.tmo = true := ⟨by decide, by decide, _, rfl, by decide⟩

/-- A wait that finds AUX ready. -/
theorem witness_TimeoutComesNoEarlierThanTheBound_ready :
    { State.reset with aux := true }.noReset = true ∧ { State.reset with aux := true }.config.auxTimeoutMs < 2 ^ 64 ∧
      ∃ t, waitAux .normal { State.reset with aux := true } = .ret () t ∧ t.tmo = false :=
  ⟨by decide, by decide, _, rfl, by decide⟩

theorem witness_TripleRequestsDrainThenSendThreeBytes :
    (afterBegin { State.reset with rx := [0xAA] }).begun = true ∧
      (afterBegin { State.reset with rx := [0xAA] }).undisturbed = true ∧ 1 ≤ (afterBegin { State.reset with rx := [0xAA] }).config.rxCountW := by
  decide

theorem witness_WriteRequestsSendOneContiguousBlock :
    (afterBegin { State.reset with flood := [0x00] }).begun = true ∧
      (afterBegin { State.reset with flood := [0x00] }).noReset = true := by decide

theorem witness_ConfigResponseBecomesTheImage :
    (afterBegin { State.reset with rx := [0x77] }).begun = true ∧
      (afterBegin { State.reset with rx := [0x77] }).noReset = true ∧ 3 ≤ (afterBegin { State.reset with rx := [0x77] }).config.rxCountW := by
  decide

theorem witness_VersionAndRssiResponsesAreStored :
    (afterBegin State.reset).begun = true ∧
      (afterBegin State.reset).noReset = true ∧ 3 ≤ (afterBegin State.reset).config.rxCountW := by decide

/-- For READ_CONFIG, READ_VERSION, READ_RSSI, RESET_MODULE and both write-verify commands. -/
theorem witness_protocol_commands_complete :
    ((afterBegin (answering sample 7 sampleFrame)).begun = true ∧
      (afterBegin (answering sample 7 sampleFrame)).undisturbed = true) ∧
    (afterBegin State.reset).begun = true ∧ (afterBegin State.reset).undisturbed = true := by decide

/-- After BEGIN, with the module answering at primitive `n`. -/
def begunAnswering (g : Image) (n : Nat) (bs : List Byte) : State := afterBegin (answering g n bs)

/-- The two premises of the statements by the module's answer. -/
def Answered (s : State) (n : Nat) (bs : List Byte) : Prop :=
  s.begun = true ∧ s.answeredAfter (n + 2 * s.rx.length) bs

theorem begunAnswering_answered (g : Image) (n : Nat) (bs : List Byte)
    (h : (List.replicate n readyTick).all Tick.ready = true) :
    Answered (begunAnswering g n bs) n bs :=
  ⟨rfl, rfl, List.replicate n readyTick, sendTick bs, [], rfl, List.length_replicate, h, rfl, rfl, rfl⟩

/-- The same with the residue AA BB C0 queued at acceptance, which takes six primitives to drain. -/
def residueAnswering (g : Image) (n : Nat) (bs : List Byte) : State :=
  { begunAnswering g (n + 6) bs with rx := [0xAA, 0xBB, 0xC0] }

/-- For the four statements by the module's answer, and RESET_MODULE's clause on its last drain. -/
theorem witness_answers_behind_residue :
    ∀ n, n = 7 ∨ n = 18 ∨ n = 21 → Answered (residueAnswering sample n sampleFrame) n sampleFrame := by
  rintro n (rfl | rfl | rfl) <;>
    exact ⟨rfl, rfl, List.replicate _ readyTick, sendTick sampleFrame, [], rfl, List.length_replicate, rfl, rfl, rfl,
      rfl⟩

/-- V-RC8: residue discarded even when it looks like a header. -/
theorem test_readConfig_residue :
    after (exec .readConfig (residueAnswering elevens 7 sampleFrame)) (fun t => (t.cfg, t.status, t.rx)) =
      some (sample, 0, []) := by decide

/-- The clauses' boundaries: five bytes, six with a wrong header, exactly a frame. -/
theorem witness_ReadConfigFollowsTheAnswer :
    (Answered (begunAnswering elevens 7 [0xC0, 1, 2, 3, 4]) 7 [0xC0, 1, 2, 3, 4] ∧
      [0xC0, 1, 2, 3, 4].length < 6) ∧
    (Answered (begunAnswering elevens 7 [0xC1, 1, 2, 3, 4, 5]) 7 [0xC1, 1, 2, 3, 4, 5] ∧
      5 ≤ [1, 2, 3, 4, 5].length ∧ (0xC1 : Byte) ≠ 0xC0) ∧
    (Answered (begunAnswering elevens 7 sampleFrame) 7 sampleFrame ∧ sampleFrame = 0xC0 :: sample.bytes ++ [] ∧
      3 ≤ (begunAnswering elevens 7 sampleFrame).config.rxCountW) :=
  ⟨⟨begunAnswering_answered _ 7 _ rfl, by decide⟩, ⟨begunAnswering_answered _ 7 _ rfl, by decide, by decide⟩,
    begunAnswering_answered _ 7 _ rfl, rfl, by decide⟩

theorem witness_ReadVersionFollowsTheAnswer :
    (Answered (begunAnswering .zero 7 [1, 2, 3]) 7 [1, 2, 3] ∧ [1, 2, 3].length < 4) ∧
    (Answered (begunAnswering .zero 7 [1, 2, 3, 4]) 7 [1, 2, 3, 4] ∧
      [1, 2, 3, 4] = Version.bytes ⟨1, 2, 3, 4⟩ ++ [] ∧
      3 ≤ (begunAnswering .zero 7 [1, 2, 3, 4]).config.rxCountW) :=
  ⟨⟨begunAnswering_answered _ 7 _ rfl, by decide⟩, begunAnswering_answered _ 7 _ rfl, rfl, by decide⟩

theorem witness_ReadRssiFollowsTheAnswer :
    (Answered (begunAnswering .zero 7 [0xC5, 1]) 7 [0xC5, 1] ∧ [0xC5, 1].length < 3) ∧
    (Answered (begunAnswering .zero 7 [0xC0, 1, 2]) 7 [0xC0, 1, 2] ∧ 2 ≤ [1, 2].length ∧ (0xC0 : Byte) ≠ 0xC5) ∧
    (Answered (begunAnswering .zero 7 [0xC5, 1, 2]) 7 [0xC5, 1, 2] ∧ [0xC5, 1, 2] = 0xC5 :: 1 :: 2 :: [] ∧
      3 ≤ (begunAnswering .zero 7 [0xC5, 1, 2]).config.rxCountW) :=
  ⟨⟨begunAnswering_answered _ 7 _ rfl, by decide⟩, ⟨begunAnswering_answered _ 7 _ rfl, by decide, by decide⟩,
    begunAnswering_answered _ 7 _ rfl, rfl, by decide⟩

/-- Verified, a differing byte, a wrong header and a short answer, for both commands. -/
theorem witness_WriteVerifyReportsTheReadBack :
    (∀ n, n = 18 ∨ n = 21 →
      Answered (begunAnswering sample n sampleFrame) n sampleFrame ∧
      Answered (begunAnswering sample n (0xC0 :: elevens.bytes)) n (0xC0 :: elevens.bytes) ∧
      Answered (begunAnswering sample n [0xC1, 1, 2, 3, 4, 5]) n [0xC1, 1, 2, 3, 4, 5] ∧
      Answered (begunAnswering sample n [0xC0, 1, 2, 3, 4]) n [0xC0, 1, 2, 3, 4]) ∧
    3 ≤ (begunAnswering sample 18 sampleFrame).config.rxCountW := by
  refine ⟨?_, by decide⟩
  rintro n (rfl | rfl) <;> exact ⟨begunAnswering_answered _ _ _ rfl, begunAnswering_answered _ _ _ rfl,
    begunAnswering_answered _ _ _ rfl, begunAnswering_answered _ _ _ rfl⟩

theorem witness_EveryHostCommandCompletes :
    isHostCommand .printConfig = true ∧ Instr.wellFormed State.reset.config .printConfig = true ∧
      usesTransport .printConfig = false ∧ isHostCommand .writeVolatile = true ∧ (afterBegin State.reset).begun = true ∧
      State.reset.undisturbed = true ∧ (afterBegin State.reset).undisturbed = true := by decide

theorem witness_OnlyTheNamedCommandsWriteTheImage :
    State.reset.noReset = true ∧ ∃ t, exec (.rspCfg sample) State.reset = .next t ∧ t.cfg ≠ State.reset.cfg :=
  ⟨by decide, _, rfl, by decide⟩

theorem witness_OnlyTheNamedCommandsWriteARegister :
    State.reset.noReset = true ∧
    (∃ t, exec (.begin 9600) State.reset = .next t ∧ t.baud ≠ State.reset.baud) ∧
    (∃ t, exec (.rspVer ⟨1, 2, 3, 4⟩) State.reset = .next t ∧ t.ver ≠ State.reset.ver) ∧
    (∃ t, exec (.rspRssi 0 1) State.reset = .next t ∧ t.noise ≠ State.reset.noise) ∧
    (∃ t, exec .writePersistent { State.reset with cfg := sample } = .next t ∧ t.intended ≠ State.reset.intended) ∧
    (∃ t, exec .enterConfig State.reset = .next t ∧ t.m0 ≠ State.reset.m0) :=
  ⟨by decide, ⟨_, rfl, by decide⟩, ⟨_, rfl, by decide⟩, ⟨_, rfl, by decide⟩, ⟨_, rfl, by decide⟩, _, rfl, by decide⟩

theorem witness_ModeLineFollowsItsEvents :
    State.reset.noReset = true ∧ ∃ t, exec .writeVolatile State.reset = .next t := ⟨by decide, _, rfl⟩

theorem witness_InvariantIsKeptByEveryStep :
    (presenting 0x2500000000).inv = true ∧ ∃ t, step (presenting 0x2500000000) = .next t := ⟨by decide, _, rfl⟩

end Sys2Proof.Tests
end

section
/-! PROOFS. O1, O9, O27, and the protocol commands that nothing disturbs: O40 to O43, O47, O48. -/

namespace Sys2Proof.Machine

/-- Settles O1: each word is decoded by evaluation. -/
theorem writtenOutWordsDecode : Obligations.WrittenOutWordsDecode := by
  unfold Obligations.WrittenOutWordsDecode
  decide

/-- Settles O9: whatever a step did, its next state has settled. -/
theorem parametersAreNeverWritten : Obligations.ParametersAreNeverWritten := by
  unfold Obligations.ParametersAreNeverWritten
  intro s t h
  obtain ⟨u, hu, -, hconfig, -⟩ | ⟨r, hr, -⟩ := step_settles s
  · cases hu.symm.trans h
    exact hconfig
  · cases hr.symm.trans h

/-- An operand has BAUD_W bits exactly when it is below 2^BAUD_W. -/
theorem baudFits_iff (c : Config) (b : BitVec 32) : baudFits c b = true ↔ b.toNat < 2 ^ c.baudW := by
  rw [baudFits, beq_iff_eq, ← BitVec.toNat_inj, BitVec.toNat_ushiftRight, Nat.shiftRight_eq_div_pow]
  simp [Nat.div_eq_zero_iff]

theorem decode_beginWord (c : Config) (b : BitVec 32) :
    decode c (.host (0x01#8 ++ b)) = if baudFits c b then some (.begin b) else none := by
  change decodeHost c (hostWord 0x01 b) = _
  simp [decodeHost, beginOperand]

/-- Settles O27, by whether the operand fits BAUD_W. -/
theorem beginForwardsTheBaudRate : Obligations.BeginForwardsTheBaudRate := by
  unfold Obligations.BeginForwardsTheBaudRate
  intro s b hs
  have hexec : exec (.begin b) s = execBegin b s := rfl
  refine ⟨fun hb => ?_, fun hb => ?_⟩
  · have hfit : baudFits s.config b = true := (baudFits_iff _ _).mpr hb
    obtain ⟨w, hrx, -, hrun⟩ := runCommand_local hs
    refine ⟨by rw [decode_beginWord, if_pos hfit], w, ?_, hrx⟩
    rw [hexec, execBegin, if_pos hfit, hrun]
    rfl
  · have hfit : ¬ baudFits s.config b = true := fun h => absurd ((baudFits_iff _ _).mp h) (by omega)
    refine ⟨by rw [decode_beginWord, if_neg hfit], s.resultValid, ?_⟩
    rw [hexec, execBegin, if_neg hfit]
    rfl

/-! ## Protocol commands that nothing disturbs -/

/-- A triple-byte request with its settle sleep (`42_command_framer.md` R154): ENTER_CONFIG, the drain, the three
bytes, the sleep. -/
theorem runSeq_exchange (op : TripleOp) (dl : Delay) (ps : List Phase) {s : State} (h : s.undisturbed = true) :
    ∃ t w t0 b q es,
      runSeq (.configEnter :: .drainPre :: .send (.triple op) :: .delay dl :: ps) s = runSeq ps t ∧
      t = { s.moved w t0 es with m0 := true, tmo := s.tmo || b, seq := q } ∧ t.undisturbed = true ∧
      Views es [.m0 true, .sleep s.config.modeSettleMs, .tx op.code, .tx op.code, .tx op.code,
        .sleep (dl.millis s.config)] [] b := by
  obtain ⟨t1, w1, c1, b, q1, es1, e1, rfl, u1, v1⟩ :=
    runSeq_enter_drain (.send (.triple op) :: .delay dl :: ps) h
  obtain ⟨t2, w2, c2, q2, es2, e2, rfl, u2, v2⟩ := runSeq_send_delay op dl ps u1
  refine ⟨_, w2, c2, b, q2, es1 ++ es2, e1.trans e2, ?_, u2, ?_⟩
  · simp [State.moved]
  · simpa using v1.append v2

/-- A write request with its settle sleep (`43_write_verify.md` R180, S2 to S5). -/
theorem runSeq_write (op : WriteOp) (dl : Delay) (ps : List Phase) {s : State} (h : s.undisturbed = true) :
    ∃ t w t0 b q es,
      runSeq (.configEnter :: .drainPre :: .send (.write op) :: .delay dl :: ps) s = runSeq ps t ∧
      t = { s.moved w t0 es with m0 := true, tmo := s.tmo || b, seq := q } ∧ t.undisturbed = true ∧
      Views es ([.m0 true, .sleep s.config.modeSettleMs] ++ (op.code :: s.intended.bytes).map .tx ++
        [.sleep (dl.millis s.config)]) [] b := by
  obtain ⟨t1, w1, c1, b, q1, es1, e1, rfl, u1, v1⟩ :=
    runSeq_enter_drain (.send (.write op) :: .delay dl :: ps) h
  obtain ⟨t2, w2, c2, q2, es2, e2, rfl, u2, v2⟩ := runSeq_write_delay op dl ps u1
  refine ⟨_, w2, c2, b, q2, es1 ++ es2, e1.trans e2, ?_, u2, ?_⟩
  · simp [State.moved]
  · simpa using v1.append v2

/-- The epilogue of a protocol command after its parse (`42_command_framer.md` R154): the drain,
ENTER_NORMAL, Done. -/
theorem runSeq_epilogue {s : State} (h : s.undisturbed = true) :
    ∃ w t0 b es, runSeq [.drainPost, .normalExit, .done] s =
        .ret () { s.moved w t0 es with
          m0 := false, seq := [], op := none, status := s.outcome.code, tmo := s.tmo || b, resultValid := true } ∧
      Views es [.m0 false, .sleep s.config.modeSettleMs, .done s.outcome] [] b := by
  obtain ⟨t1, w1, q1, es1, e1, rfl, u1, v1⟩ := runSeq_drainPost [.normalExit, .done] h
  obtain ⟨w2, c2, b, es2, e2, v2⟩ := runSeq_exit (State.undisturbed_noReset u1)
  refine ⟨w2, c2, b, es1 ++ es2, (e1.trans e2).trans ?_, ?_⟩
  · simp [State.moved]
  · simpa using v1.append v2

/-- Settles O40: the exchange, PARSE_CFG and the epilogue, one after another. -/
theorem readConfigCompletes : Obligations.ReadConfigCompletes := by
  unfold Obligations.ReadConfigCompletes
  intro s _ h
  obtain ⟨t1, w1, c1, b1, q1, es1, e1, rfl, u1, v1⟩ := runSeq_exchange .readConfig .response
    [.parseResponse .cfg (some .readConfig), .drainPost, .normalExit, .done] (s := accept .readConfig s) h
  obtain ⟨t2, w2, q2, es2, r, g, e2, rfl, u2, hr, v2⟩ :=
    runSeq_parseCfg .readConfig [.drainPost, .normalExit, .done] u1
  obtain ⟨w3, c3, b3, es3, e3, v3⟩ := runSeq_epilogue u2
  obtain ⟨hdriven, hfail, htmo⟩ := (v1.append v2).append v3
  refine ⟨w3, c3, es1 ++ es2 ++ es3, r, g, ?_, hr, hdriven, by simpa using hfail⟩
  show (runSeq _ (accept .readConfig s)).toOutcome = _
  rw [e1, e2, e3, htmo]
  simp [State.moved, accept]

/-- Settles O41: as O40, with PARSE_VER. -/
theorem readVersionCompletes : Obligations.ReadVersionCompletes := by
  unfold Obligations.ReadVersionCompletes
  intro s _ h
  obtain ⟨t1, w1, c1, b1, q1, es1, e1, rfl, u1, v1⟩ := runSeq_exchange .readVersion .response
    [.parseResponse .ver (some .readVersion), .drainPost, .normalExit, .done] (s := accept .readVersion s) h
  obtain ⟨t2, w2, q2, es2, r, v, e2, rfl, u2, hr, v2⟩ :=
    runSeq_parseVer .readVersion [.drainPost, .normalExit, .done] u1
  obtain ⟨w3, c3, b3, es3, e3, v3⟩ := runSeq_epilogue u2
  obtain ⟨hdriven, hfail, htmo⟩ := (v1.append v2).append v3
  refine ⟨w3, c3, es1 ++ es2 ++ es3, r, v, ?_, hr, hdriven, by simpa using hfail⟩
  show (runSeq _ (accept .readVersion s)).toOutcome = _
  rw [e1, e2, e3, htmo]
  simp [State.moved, accept]

/-- Settles O42: as O40, with PARSE_RSSI. -/
theorem readRssiCompletes : Obligations.ReadRssiCompletes := by
  unfold Obligations.ReadRssiCompletes
  intro s _ h
  obtain ⟨t1, w1, c1, b1, q1, es1, e1, rfl, u1, v1⟩ := runSeq_exchange .readRssi .response
    [.parseResponse .rssi (some .readRssi), .drainPost, .normalExit, .done] (s := accept .readRssi s) h
  obtain ⟨t2, w2, q2, es2, r, p, n, e2, rfl, u2, hr, v2⟩ :=
    runSeq_parseRssi .readRssi [.drainPost, .normalExit, .done] u1
  obtain ⟨w3, c3, b3, es3, e3, v3⟩ := runSeq_epilogue u2
  obtain ⟨hdriven, hfail, htmo⟩ := (v1.append v2).append v3
  refine ⟨w3, c3, es1 ++ es2 ++ es3, r, p, n, ?_, hr, hdriven, by simpa using hfail⟩
  show (runSeq _ (accept .readRssi s)).toOutcome = _
  rw [e1, e2, e3, htmo]
  simp [State.moved, accept]

/-- What the module emits in the reset settle sleep is gone at the end (`42_command_framer.md` R166): the last drain
finds it, and nothing comes after. -/
theorem resetModule_rx_nil {s : State} {emitted : List Byte}
    (h : s.answeredAfter (7 + 2 * s.rx.length) emitted) (hw : 1 ≤ s.config.rxCountW) :
    ∃ t, exec .resetModule s = .next t ∧ t.rx = [] := by
  obtain ⟨w1, c1, q1, es1, e1, -, hq⟩ := runSeq_exchange_answered .reset .reset
    [.drainPost, .normalExit, .done] (s := accept .resetModule s) h hw
  obtain ⟨w2, c2, es2, b, e2, hrx⟩ := runSeq_epilogue_quiet hq hw
  have hexec : exec .resetModule s = (runSeq [.drainPost, .normalExit, .done] _).toOutcome :=
    congrArg Flow.toOutcome e1
  rw [e2] at hexec
  exact ⟨_, hexec, hrx⟩

/-- Settles O43: the exchange, then the epilogue with no parse between. -/
theorem resetModuleSendsAndAssumesSuccess : Obligations.ResetModuleSendsAndAssumesSuccess := by
  unfold Obligations.ResetModuleSendsAndAssumesSuccess
  intro s _ h
  obtain ⟨t1, w1, c1, b1, q1, es1, e1, rfl, u1, v1⟩ := runSeq_exchange .reset .reset
    [.drainPost, .normalExit, .done] (s := accept .resetModule s) h
  obtain ⟨w2, c2, b2, es2, e2, v2⟩ := runSeq_epilogue u1
  obtain ⟨hdriven, hfail, htmo⟩ := v1.append v2
  have hexec : exec .resetModule s = .next { s.moved w2 c2 (es1 ++ es2) with
      m0 := false, seq := [], op := none, outcome := .ok, status := 0, tmo := hasTimeout (es1 ++ es2)
      resultValid := true } := by
    show (runSeq _ (accept .resetModule s)).toOutcome = _
    rw [e1, e2, htmo]
    simp [State.moved, accept, CmdResult.code]
  refine ⟨w2, c2, es1 ++ es2, hexec, hdriven, hfail, fun emitted he hw => ?_⟩
  obtain ⟨t, ht, hrx⟩ := resetModule_rx_nil he hw
  cases hexec.symm.trans ht
  exact hrx

/-- The read-back of a write-verify (`43_write_verify.md` R180, S7 to S14): the exchange of READ_CONFIG, then the
comparison and the way out. -/
theorem runSeq_verify (l : Label) {s : State} (h : s.undisturbed = true) (hi : s.intended = s.cfg) :
    ∃ w t0 es r g b, runSeq [.configEnter, .drainPre, .send (.triple .readConfig), .delay .response,
          .parseResponse .cfg none, .drainPost, .compare l, .normalExit, .done] s =
        .ret () { s.moved w t0 es with
          cfg := g, outcome := r, m0 := false, seq := [], op := none, status := r.code, tmo := s.tmo || b
          resultValid := true } ∧
      (r = .verificationMismatch ∧ g ≠ s.cfg ∨ r ≠ .verificationMismatch ∧ g = s.cfg) ∧
      Views es [.m0 true, .sleep s.config.modeSettleMs, .tx 0xC1, .tx 0xC1, .tx 0xC1,
        .sleep s.config.respSettleMs, .m0 false, .sleep s.config.modeSettleMs, .done r] (reportOf r l) b := by
  obtain ⟨t1, w1, c1, b1, q1, es1, e1, rfl, u1, v1⟩ := runSeq_exchange .readConfig .response
    [.parseResponse .cfg none, .drainPost, .compare l, .normalExit, .done] h
  obtain ⟨w2, c2, es2, r, g, b2, e2, hr, v2⟩ := runSeq_readBack l u1 hi
  refine ⟨w2, c2, es1 ++ es2, r, g, b1 || b2, (e1.trans e2).trans ?_, hr, v1.append v2⟩
  simp [State.moved, Bool.or_assoc]

/-- Settles O47: the write of the snapshot, then the read-back. -/
theorem writePersistentCompletes : Obligations.WritePersistentCompletes := by
  unfold Obligations.WritePersistentCompletes
  intro s _ h
  obtain ⟨t1, w1, c1, b1, q1, es1, e1, rfl, u1, v1⟩ := runSeq_write .persistent .writePersistent
    [.configEnter, .drainPre, .send (.triple .readConfig), .delay .response, .parseResponse .cfg none,
      .drainPost, .compare .writePersistent, .normalExit, .done] (s := accept .writePersistent (snapshot s)) h
  obtain ⟨w2, c2, es2, r, g, b2, e2, hr, v2⟩ := runSeq_verify .writePersistent u1 rfl
  obtain ⟨hdriven, hfail, htmo⟩ := v1.append v2
  refine ⟨w2, c2, es1 ++ es2, r, g, ?_, hr, hdriven, hfail⟩
  show (runSeq _ (accept .writePersistent (snapshot s))).toOutcome = _
  rw [e1, e2, htmo]
  simp [State.moved, accept, snapshot]

/-- Settles O48: as O47, with the normal-mode barrier S6 between (R183). -/
theorem writeVolatileCompletes : Obligations.WriteVolatileCompletes := by
  unfold Obligations.WriteVolatileCompletes
  intro s _ h
  obtain ⟨t1, w1, c1, b1, q1, es1, e1, rfl, u1, v1⟩ := runSeq_write .volatile .writeVolatile
    [.normalBarrier, .configEnter, .drainPre, .send (.triple .readConfig), .delay .response,
      .parseResponse .cfg none, .drainPost, .compare .writeVolatile, .normalExit, .done]
    (s := accept .writeVolatile (snapshot s)) h
  obtain ⟨t2, w2, c2, b2, q2, es2, e2, rfl, u2, v2⟩ := runSeq_normalBarrier
    [.configEnter, .drainPre, .send (.triple .readConfig), .delay .response, .parseResponse .cfg none,
      .drainPost, .compare .writeVolatile, .normalExit, .done] u1
  obtain ⟨w3, c3, es3, r, g, b3, e3, hr, v3⟩ := runSeq_verify .writeVolatile u2 rfl
  obtain ⟨hdriven, hfail, htmo⟩ := (v1.append v2).append v3
  refine ⟨w3, c3, es1 ++ es2 ++ es3, r, g, ?_, hr, hdriven, hfail⟩
  show (runSeq _ (accept .writeVolatile (snapshot s))).toOutcome = _
  rw [e1, e2, e3, htmo]
  simp [State.moved, accept, snapshot]

end Sys2Proof.Machine
end

section
/-! PROOFS. O58: an operation emits one event for each tick it takes, and its run up to a reset is the beginning of its
run without that reset. Both are proved together, of every operation that its parts are composed of. -/

namespace Sys2Proof.Machine

/-! ## The run in which the first reset does not come -/

/-- The script with its first reset taken out, everything else of that tick left as it is. -/
def spare : List Tick → List Tick
  | [] => []
  | t :: ts => if t.rst then { t with rst := false } :: ts else t :: spare ts

/-- The state whose environment does not bring its first reset. -/
def State.spared (s : State) : State := { s with script := spare s.script }

theorem spare_append {pre : List Tick} (mid : Tick) (post : List Tick) (hpre : pre.all (fun t => !t.rst) = true)
    (hmid : mid.rst = true) : spare (pre ++ mid :: post) = pre ++ { mid with rst := false } :: post := by
  induction pre with
  | nil => simp [spare, hmid]
  | cons t ts ih =>
    simp only [List.all_cons, Bool.and_eq_true, Bool.not_eq_true'] at hpre
    simp [spare, hpre.1, ih hpre.2]

@[simp] theorem spare_length (ts : List Tick) : (spare ts).length = ts.length := by
  induction ts with
  | nil => rfl
  | cons t ts ih => cases hr : t.rst <;> simp [spare, hr, ih]

@[simp] theorem scriptBytes_spare (ts : List Tick) : scriptBytes (spare ts) = scriptBytes ts := by
  induction ts with
  | nil => rfl
  | cons t ts ih => cases hr : t.rst <;> simp_all [spare, scriptBytes]

/-! ## Runs that begin alike -/

/-- The trace of `s` stands at the beginning of every trace `x` leads to. -/
def Flow.Grows {α : Type} (x : Flow α) (s : State) : Prop :=
  x.Sat (fun _ t => s.trace <+: t.trace) (fun t => s.trace <+: t.trace) fun _ => True

/-- `y` is `x` with its first reset spared: it goes the same way while `x` is not cut, and has at least the events of
`x` when `x` is. -/
def Flow.Begins {α : Type} (x y : Flow α) : Prop :=
  match x with
  | .ret a t => y = .ret a t.spared
  | .cut t => y.Grows t
  | .halt _ => True

theorem Flow.Grows.bind {α β : Type} {x : Flow α} {f : α → State → Flow β} {s : State} (hx : x.Grows s)
    (hf : ∀ a t, (f a t).Grows t) : (x.bind f).Grows s :=
  Flow.Sat.bind hx fun a t h => (hf a t).mono (fun _ _ h' => h.trans h') (fun _ h' => h.trans h') fun _ h' => h'

theorem Flow.Begins.bind {α β : Type} {x y : Flow α} {f : α → State → Flow β} (hx : x.Begins y)
    (hf : ∀ a t, (f a t).Begins (f a t.spared)) (hg : ∀ a t, (f a t).Grows t) :
    (x.bind f).Begins (y.bind f) := by
  cases x with
  | ret a t =>
    have hy : y = .ret a t.spared := hx
    rw [hy]
    exact hf a t
  | cut t => exact Flow.Grows.bind hx hg
  | halt r => trivial

/-! ## One event for each tick -/

/-- `t` is reached from `s` over one event for each tick of the script, none of them a reset; past the script an event
takes no tick. -/
def Reaches (s t : State) : Prop :=
  ∃ es, t.trace = s.trace ++ es ∧ t.script = s.script.drop es.length ∧
    (s.script.take es.length).all (fun t => !t.rst) = true

/-- A reset cut the run at the first tick of a state that was reached from `s`. -/
def CutAfter (s t : State) : Prop :=
  ∃ u, Reaches s u ∧ u.script ≠ [] ∧ t.trace = u.trace ∧ t.script = u.script.tail

theorem Reaches.refl (s : State) : Reaches s s := ⟨[], by simp, rfl, rfl⟩

theorem Reaches.trans {s t u : State} (a : Reaches s t) (b : Reaches t u) : Reaches s u := by
  obtain ⟨es, ha, hsa, hra⟩ := a
  obtain ⟨fs, hb, hsb, hrb⟩ := b
  refine ⟨es ++ fs, by rw [hb, ha, List.append_assoc], by rw [hsb, hsa, List.drop_drop, List.length_append], ?_⟩
  rw [List.length_append, List.take_add, List.all_append, hra, ← hsa, hrb, Bool.and_true]

theorem Reaches.trace_isPrefix {s t : State} (h : Reaches s t) : s.trace <+: t.trace := by
  obtain ⟨es, he, -⟩ := h
  exact ⟨es, he.symm⟩

/-- `x` emits one event for each tick it takes, until a reset cuts it. -/
def Flow.Paced {α : Type} (x : Flow α) (s : State) : Prop :=
  x.Sat (fun _ t => Reaches s t) (CutAfter s) fun _ => True

theorem Flow.Paced.of_reaches {α : Type} {x : Flow α} {s t : State} (h : Reaches s t) (hx : x.Paced t) :
    x.Paced s :=
  hx.mono (fun _ _ h' => h.trans h') (fun _ ⟨u, hu, h'⟩ => ⟨u, h.trans hu, h'⟩) fun _ h' => h'

theorem Flow.Paced.grows {α : Type} {x : Flow α} {s : State} (hx : x.Paced s) : x.Grows s :=
  hx.mono (fun _ _ h => h.trace_isPrefix) (fun _ ⟨_, hu, _, ht, _⟩ => by rw [ht]; exact hu.trace_isPrefix)
    fun _ _ => trivial

/-! ## Operations -/

/-- An operation that emits one event for each tick, and whose run up to a reset is the beginning of its run without
it. -/
def Steady {α : Type} (f : State → Flow α) : Prop := ∀ s, (f s).Paced s ∧ (f s).Begins (f s.spared)

theorem Steady.bind {α β : Type} {x : State → Flow α} {f : α → State → Flow β} (hx : Steady x)
    (hf : ∀ a, Steady (f a)) : Steady fun s => (x s).bind f := fun s =>
  ⟨Flow.Sat.bind (hx s).1 fun a t h => Flow.Paced.of_reaches h (hf a t).1,
    (hx s).2.bind (fun a t => (hf a t).2) fun a t => (hf a t).1.grows⟩

/-- An update that takes no tick and emits nothing, whatever resets are to come. -/
def Untimed (g : State → State) : Prop :=
  ∀ s, (g s).trace = s.trace ∧ (g s).script = s.script ∧ g s.spared = (g s).spared

theorem Untimed.reaches {g : State → State} (hg : Untimed g) (s : State) : Reaches s (g s) :=
  have ⟨htrace, hscript, _⟩ := hg s
  ⟨[], by simp [htrace], hscript, rfl⟩

theorem steady_ret {α : Type} (a : α) (g : State → State)
    (hg : Untimed g := by exact fun _ => ⟨rfl, rfl, rfl⟩) : Steady fun s => .ret a (g s) :=
  fun s => ⟨hg.reaches s, congrArg (Flow.ret a) (hg s).2.2⟩

/-- A value, with the state as it is. -/
theorem steady_pure {α : Type} (a : α) : Steady fun s => .ret a s := steady_ret a id

theorem Steady.after {α : Type} {f : State → Flow α} (hf : Steady f) (g : State → State)
    (hg : Untimed g := by exact fun _ => ⟨rfl, rfl, rfl⟩) : Steady fun s => f (g s) := fun s =>
  ⟨.of_reaches (hg.reaches s) (hf (g s)).1, by
    show (f (g s)).Begins (f (g s.spared))
    rw [(hg s).2.2]
    exact (hf (g s)).2⟩

theorem steady_halt {α : Type} (r : Fault) : Steady fun _ => (.halt r : Flow α) := fun _ => ⟨trivial, trivial⟩

/-- An operation that looks at the state, but not at the resets to come, to find what it does. -/
theorem Steady.choose {α β : Type} {f : β → State → Flow α} (p : State → β) (hf : ∀ b, Steady (f b))
    (hp : ∀ s, p s.spared = p s) : Steady fun s => f (p s) s := fun s =>
  ⟨(hf (p s) s).1, by
    show (f (p s) s).Begins (f (p s.spared) s.spared)
    rw [hp]
    exact (hf (p s) s).2⟩

theorem advance_begins (ms : Nat) (s : State) : (advance ms s).Begins (advance ms s.spared) := by
  cases h : s.script with
  | nil => simp [advance, State.spared, h, spare, Flow.Begins, settleAux]
  | cons t ts =>
    cases hr : t.rst with
    | true => simp [advance, State.spared, h, hr, spare, Flow.Begins, Flow.Grows, Flow.Sat, spend]
    | false => simp [advance, State.spared, h, hr, spare, Flow.Begins, spend, settleAux]

/-- The tick of a primitive that is not cut is no reset. -/
theorem take_one_noReset {s : State} (h : s.cutNext = false) : (s.script.take 1).all (fun t => !t.rst) = true := by
  cases hs : s.script with
  | nil => rfl
  | cons t ts => simpa [State.cutNext, hs] using h

theorem script_ne_nil_of_cutNext {s : State} (h : s.cutNext = true) : s.script ≠ [] := by
  intro hs
  simp [State.cutNext, hs] at h

/-- A primitive: one tick, then one event, or a fault. -/
theorem steady_primitive {α : Type} (ms : Nat) {h : State → Flow α}
    (hone : ∀ s, (h s).Sat (fun _ t => t.script = s.script ∧ ∃ e, t.trace = s.trace ++ [e]) (fun _ => False)
      fun _ => True)
    (hb : ∀ s, (h s).Begins (h s.spared)) : Steady fun s => (advance ms s).bind fun _ s => h s := by
  refine fun s => ⟨?_, (advance_begins ms s).bind (fun _ => hb) fun _ t => ?_⟩
  · show ((advance ms s).bind fun _ s => h s).Paced s
    rw [advance_eq]
    split
    · rename_i hc
      exact ⟨s, .refl s, script_ne_nil_of_cutNext hc, by simp, rfl⟩
    · rename_i hc
      refine (hone _).mono (fun _ t ⟨hs, e, he⟩ => ?_) (fun _ h => h.elim) fun _ h => h
      exact ⟨[e], by simpa using he, by simpa [State.next] using hs, take_one_noReset (by simpa using hc)⟩
  · exact (hone t).mono (fun _ u ⟨_, e, he⟩ => ⟨[e], he.symm⟩) (fun _ h => h.elim) fun _ h => h

theorem driveM0_steady (l : Bool) : Steady (driveM0 l) :=
  steady_primitive 0 (fun _ => ⟨rfl, _, rfl⟩) fun _ => rfl

theorem auxRead_steady : Steady auxRead :=
  steady_primitive 0 (fun _ => ⟨rfl, _, rfl⟩) fun _ => rfl

theorem sleep_steady (n : Nat) : Steady (sleep n) :=
  (steady_primitive n (h := fun s => .ret () (emit (.sleep n) s)) (fun _ => ⟨rfl, _, rfl⟩) fun _ => rfl).after
    (fun s => { s with t0 := s.now })

theorem txByte_steady (b : Byte) : Steady (txByte b) :=
  steady_primitive 0 (fun _ => ⟨rfl, _, rfl⟩) fun _ => rfl

theorem rxAvail_steady : Steady rxAvail :=
  steady_primitive 0 (fun _ => ⟨rfl, _, rfl⟩) fun _ => rfl

theorem diag_steady (k : DiagKind) (l : Label) : Steady (diag k l) :=
  steady_primitive 0 (fun _ => ⟨rfl, _, rfl⟩) fun _ => rfl

theorem rxRead_steady : Steady rxRead := by
  refine steady_primitive 0 (fun s => ?_) fun s => ?_
  · cases s.rx with
    | nil => trivial
    | cons b bs => exact ⟨rfl, _, rfl⟩
  · have hrx : s.spared.rx = s.rx := rfl
    rw [hrx]
    cases s.rx with
    | nil => trivial
    | cons b bs => rfl

theorem txBytes_steady (bs : List Byte) : Steady (txBytes bs) := by
  induction bs with
  | nil => exact steady_pure ()
  | cons b bs ih => exact (txByte_steady b).bind fun _ => ih

/-! ## Sub-sequences -/

theorem Steady.ite {α : Type} {f g : State → Flow α} {c : State → Prop} [DecidablePred c] (hf : Steady f)
    (hg : Steady g) (hc : ∀ s, c s.spared ↔ c s := by exact fun _ => Iff.rfl) :
    Steady fun s => if c s then f s else g s := by
  intro s
  show (if c s then f s else g s).Paced s ∧ (if c s then f s else g s).Begins (if c s.spared then _ else _)
  simp only [hc]
  split
  · exact hf s
  · exact hg s

theorem auxTimeout_steady (l : Label) : Steady (auxTimeout l) :=
  (diag_steady .timeout l).bind fun _ => steady_ret () (fun s => { s with tmo := true })

theorem pollAux_steady (l : Label) (n : Nat) : Steady (pollAux l n) := by
  induction n with
  | zero =>
    refine auxRead_steady.bind fun v => (steady_pure ()).ite ?_
    exact (auxTimeout_steady l).after
      (fun s => { s with now := s.now + BitVec.ofNat 64 (s.config.auxTimeoutMs - elapsed s) })
  | succ n ih =>
    exact auxRead_steady.bind fun v => (steady_pure ()).ite ((auxTimeout_steady l).ite ih)

theorem waitAux_steady (l : Label) : Steady (waitAux l) :=
  have hpoll : ∀ n, Steady fun s => pollAux l n { s with t0 := s.now } := fun n =>
    (pollAux_steady l n).after fun s => { s with t0 := s.now }
  Steady.choose (fun s => s.script.length) hpoll fun s => spare_length s.script

theorem modeSwitch_steady (level : Bool) (l : Label) : Steady fun s =>
    (driveM0 level s).bind fun _ s => (sleep s.config.modeSettleMs s).bind fun _ s => waitAux l s :=
  (driveM0_steady level).bind fun _ =>
    (Steady.choose (f := sleep) (fun s => s.config.modeSettleMs) sleep_steady fun _ => rfl).bind fun _ =>
      waitAux_steady l

theorem drainLoop_steady (fuel : Nat) : Steady (drainLoop fuel) := by
  induction fuel with
  | zero => exact steady_halt _
  | succ fuel ih =>
    exact rxAvail_steady.bind fun n => (steady_pure ()).ite (rxRead_steady.bind fun _ => ih)

theorem drain_steady : Steady drain :=
  Steady.choose (f := drainLoop) (fun s => s.rx.length + scriptBytes s.script + 1) drainLoop_steady fun s => by
    simp [State.spared]

theorem parse_steady (k : Reply) : Steady (parse k) := by
  cases k with
  | cfg =>
    refine rxAvail_steady.bind fun n => (steady_pure _).ite ?_
    refine rxRead_steady.bind fun h => (steady_pure _).ite ?_
    refine rxRead_steady.bind fun b1 => rxRead_steady.bind fun b2 => rxRead_steady.bind fun b3 =>
      rxRead_steady.bind fun b4 => rxRead_steady.bind fun b5 => ?_
    exact steady_ret CmdResult.ok (fun s => { s with cfg := ⟨b1, b2, b3, b4, b5⟩ })
  | ver =>
    refine rxAvail_steady.bind fun n => (steady_pure _).ite ?_
    refine rxRead_steady.bind fun b0 => rxRead_steady.bind fun b1 => rxRead_steady.bind fun b2 =>
      rxRead_steady.bind fun b3 => ?_
    exact steady_ret CmdResult.ok (fun s => { s with ver := ⟨b0, b1, b2, b3⟩ })
  | rssi =>
    refine rxAvail_steady.bind fun n => (steady_pure _).ite ?_
    refine rxRead_steady.bind fun h => (steady_pure _).ite ?_
    refine rxRead_steady.bind fun r => rxRead_steady.bind fun n => ?_
    exact steady_ret CmdResult.ok (fun s => { s with rssi := r, noise := n })

theorem settleOutcome_steady (r : CmdResult) (l : Option Label) : Steady (settleOutcome r l) := by
  have hret : Steady fun s => .ret () { s with outcome := r } :=
    steady_ret () (fun s => { s with outcome := r })
  have hdiag : ∀ k l, Steady fun s => diag k l { s with outcome := r } := fun k l =>
    (diag_steady k l).after (fun s => { s with outcome := r })
  cases l with
  | none => cases r <;> exact hret
  | some l =>
    cases r with
    | ok => exact hret
    | insufficientData | protocolMismatch | verificationMismatch => exact hdiag _ l

/-! ## Phases and commands -/

/-- The step of Local of a register accessor, which emits nothing (`40_register_accessors.md` R100). -/
def LocalOp.silent : LocalOp → Bool
  | .setField _ _ | .setByte _ _ | .readRaw => true
  | .transportBegin _ | .printConfig => false

/-- A phase that takes a tick and emits nothing. -/
def Phase.silent : Phase → Bool
  | .localStep op => op.silent
  | .configEnter | .drainPre | .send _ | .delay _ | .normalBarrier | .parseResponse _ _ | .drainPost | .compare _
  | .normalExit | .done => false

theorem runPhase_steady {p : Phase} (hp : p.silent = false) : Steady (runPhase p) := by
  cases p with
  | localStep op =>
    cases op with
    | transportBegin b => exact steady_primitive 0 (fun _ => ⟨rfl, _, rfl⟩) fun _ => rfl
    | printConfig => exact steady_primitive 0 (fun _ => ⟨rfl, _, rfl⟩) fun _ => rfl
    | _ => cases hp
  | configEnter => exact modeSwitch_steady true .config
  | drainPre => exact drain_steady
  | send r =>
    cases r with
    | triple op => exact txBytes_steady _
    | write op =>
      exact Steady.choose (f := txBytes) (fun s => op.code :: s.intended.bytes) txBytes_steady fun _ => rfl
  | delay d => exact Steady.choose (f := sleep) (fun s => d.millis s.config) sleep_steady fun _ => rfl
  | normalBarrier => exact modeSwitch_steady false .normal
  | parseResponse k l => exact (parse_steady k).bind fun r => settleOutcome_steady r l
  | drainPost => exact drain_steady
  | compare l =>
    exact Steady.choose (f := fun r => settleOutcome r (some l)) compareOutcome
      (fun r => settleOutcome_steady r (some l)) fun _ => rfl
  | normalExit => exact modeSwitch_steady false .normal
  | done => exact steady_primitive 0 (fun _ => ⟨rfl, _, rfl⟩) fun _ => rfl

theorem runSeq_steady {ps : List Phase} (hps : ps.all (fun p => !p.silent) = true) : Steady (runSeq ps) := by
  induction ps with
  | nil => exact steady_ret () toIdle
  | cons p ps ih =>
    simp only [List.all_cons, Bool.and_eq_true, Bool.not_eq_true'] at hps
    have hp : Steady fun s => runPhase p { s with seq := p :: ps } :=
      (runPhase_steady hps.1).after (fun s => { s with seq := p :: ps })
    exact hp.bind fun _ => ih hps.2

/-! ## From the end of a run to the obligation -/

theorem Flow.Sat.next {x : Flow Unit} {P C : State → Prop} {H : Fault → Prop} (hx : x.Sat (fun _ t => P t) C H)
    {t : State} (ht : x.toOutcome = .next t) : P t ∨ C t := by
  cases x with
  | ret a u => cases ht; exact .inl hx
  | cut u => cases ht; exact .inr hx
  | halt r => cases ht

theorem Flow.Grows.next {x : Flow Unit} {s t : State} (hx : x.Grows s) (ht : x.toOutcome = .next t) :
    s.trace <+: t.trace := (Flow.Sat.next hx ht).elim id id

theorem Flow.Begins.next {x y : Flow Unit} (h : x.Begins y) {t u : State} (ht : x.toOutcome = .next t)
    (hu : y.toOutcome = .next u) : t.trace <+: u.trace := by
  cases x with
  | ret a v =>
    cases ht
    rw [show y = .ret a t.spared from h] at hu
    cases hu
    exact List.prefix_refl _
  | cut v => cases ht; exact Flow.Grows.next h hu
  | halt r => cases ht

/-- A reset is never a tick like any other: what a run reached without a cut still has it to come. -/
theorem Reaches.script_ne {s t : State} {pre : List Tick} {mid : Tick} {post : List Tick}
    (hs : s.script = pre ++ mid :: post) (hmid : mid.rst = true) (h : Reaches s t) : t.script ≠ post := by
  obtain ⟨es, -, hscript, hall⟩ := h
  intro hpost
  have hlen : pre.length < es.length := by
    have := congrArg List.length (hpost.symm.trans hscript)
    simp only [hs, List.length_drop, List.length_append, List.length_cons] at this
    omega
  have hmem : mid ∈ s.script.take es.length := by
    rw [hs, List.take_append]
    refine List.mem_append_right _ ?_
    rw [List.take_cons (by omega)]
    exact List.mem_cons_self
  have := List.all_eq_true.mp hall mid hmem
  simp [hmid] at this

/-- A run that is cut has one event for each tick before the one that cut it. -/
theorem CutAfter.length_newEvents {s t : State} {pre : List Tick} {mid : Tick} {post : List Tick}
    (hs : s.script = pre ++ mid :: post) (h : CutAfter s t) (hpost : t.script = post) :
    (newEvents s t).length = pre.length := by
  obtain ⟨u, ⟨es, htrace, hscript, -⟩, hne, htu, htail⟩ := h
  have hnew : newEvents s t = es := by simp [newEvents, htu, htrace]
  have hpos := List.length_pos_iff.mpr hne
  have hlen := congrArg List.length (hpost.symm.trans htail)
  simp only [List.length_tail, hscript, hs, List.length_drop, List.length_append, List.length_cons] at hlen hpos
  rw [hnew]
  omega

/-- What O58 says of a meaning `m`; `quiet` says that a cut leaves no event. -/
def CutsShort (quiet : Bool) (m : State → Host.Outcome State Fault Refusal) : Prop :=
  ∀ (s t : State) (pre : List Tick) (mid : Tick) (post : List Tick), s.script = pre ++ mid :: post →
    pre.all (fun t => !t.rst) = true → mid.rst = true → m s = .next t →
    s.trace <+: t.trace ∧
    (t.script = post → (newEvents s t).length = if quiet then 0 else pre.length) ∧
    ∀ u, m { s with script := pre ++ { mid with rst := false } :: post } = .next u → t.trace <+: u.trace

theorem State.spared_eq {s : State} {pre : List Tick} {mid : Tick} {post : List Tick}
    (hs : s.script = pre ++ mid :: post) (hpre : pre.all (fun t => !t.rst) = true) (hmid : mid.rst = true) :
    s.spared = { s with script := pre ++ { mid with rst := false } :: post } := by
  rw [State.spared, hs, spare_append mid post hpre hmid]

theorem Steady.cutsShort {f : State → Flow Unit} (hf : Steady f) : CutsShort false fun s => (f s).toOutcome := by
  intro s t pre mid post hs hpre hmid ht
  obtain ⟨hpaced, hbegins⟩ := hf s
  refine ⟨hpaced.grows.next ht, fun hpost => ?_, fun u hu => ?_⟩
  · obtain h | h := Flow.Sat.next hpaced ht
    · exact absurd hpost (h.script_ne hs hmid)
    · exact h.length_newEvents hs hpost
  · rw [← State.spared_eq hs hpre hmid] at hu
    exact hbegins.next ht hu

theorem CutsShort.ite {quiet : Bool} {m n : State → Host.Outcome State Fault Refusal} (c : Config → Bool)
    (hm : CutsShort quiet m) (hn : CutsShort quiet n) :
    CutsShort quiet fun s => if c s.config then m s else n s := by
  intro s t pre mid post hs hpre hmid ht
  by_cases hc : c s.config = true
  · simp only [hc, if_true] at ht ⊢
    exact hm s t pre mid post hs hpre hmid ht
  · simp only [hc] at ht ⊢
    exact hn s t pre mid post hs hpre hmid ht

/-- A refused word takes no tick, so no reset cuts it. -/
theorem refuseWord_cutsShort (quiet : Bool) : CutsShort quiet fun s => .next (refuseWord s) := by
  intro s t pre mid post hs _ _ ht
  cases ht
  refine ⟨⟨[.refused], rfl⟩, fun hpost => ?_, fun u hu => ?_⟩
  · have := congrArg List.length (hs.symm.trans hpost)
    simp at this
    omega
  · cases hu
    exact List.prefix_refl _

/-! ## Instructions -/

theorem runPart_cutsShort {ps : List Phase} (hps : ps.all (fun p => !p.silent) = true) :
    CutsShort false (runPart ps) := (runSeq_steady hps).cutsShort

theorem runCommand_cutsShort (i : Instr) {ps : List Phase} (hps : ps.all (fun p => !p.silent) = true) :
    CutsShort false (runCommand i ps) := ((runSeq_steady hps).after (accept i)).cutsShort

theorem runWriteVerify_cutsShort (i : Instr) {ps : List Phase} (hps : ps.all (fun p => !p.silent) = true) :
    CutsShort false fun s => runCommand i ps (snapshot s) :=
  ((runSeq_steady hps).after (fun s => accept i (snapshot s))).cutsShort

theorem runWriteFrame_cutsShort (op : WriteOp) (g : Image) : CutsShort false (runWriteFrame op g) :=
  (((txBytes_steady (op.code :: g.bytes)).after (fun s => { s with seq := [.send (.write op)] })).bind
    fun _ => steady_ret () toIdle).cutsShort

theorem runResponse_cutsShort (k : Reply) (bytes : List Byte) : CutsShort false (runResponse k bytes) :=
  ((runSeq_steady (ps := [.parseResponse k none]) rfl).after fun s => { s with rx := bytes ++ s.rx }).cutsShort

theorem localEffect_script (o : LocalOp) (s : State) : (localEffect o s).script = s.script := by
  cases o <;> rfl

theorem localEffect_trace_of_silent {o : LocalOp} (ho : o.silent = true) (s : State) :
    (localEffect o s).trace = s.trace := by
  cases o with
  | setField f v | setByte i v | readRaw => rfl
  | transportBegin b | printConfig => cases ho

/-- A reset that falls on Done leaves no event of it. -/
theorem runSeq_done_sat (s : State) :
    (runSeq [.done] s).Sat (fun _ t => Reaches s t) (fun t => t.trace = s.trace) fun _ => True := by
  rw [runSeq_cons, runPhase, advance_eq]
  split
  · simp [Flow.Sat]
  · rename_i hc
    exact ⟨[.done s.outcome], by simp, by simp [State.next], take_one_noReset ((Bool.not_eq_true _).mp hc)⟩

/-- The two ticks of a register accessor, of which the first emits nothing: a cut leaves no event, and a run that
is not cut ends before the reset. -/
theorem accessor_sat {o : LocalOp} (ho : o.silent = true) {s : State} {pre : List Tick} {mid : Tick}
    {post : List Tick} (hs : s.script = pre ++ mid :: post) (hmid : mid.rst = true) :
    (runSeq [.localStep o, .done] s).Sat (fun _ t => s.trace <+: t.trace ∧ t.script ≠ post)
      (fun t => t.trace = s.trace) fun _ => True := by
  rw [runSeq_cons, runPhase, advance_eq]
  split
  · simp [Flow.Sat]
  · rename_i hc
    cases pre with
    | nil => simp [State.cutNext, hs, hmid] at hc
    | cons x pre =>
      refine (runSeq_done_sat _).mono (fun _ t h => ⟨?_, h.script_ne (pre := pre) ?_ hmid⟩) (fun t h => ?_)
        fun _ h => h
      · simpa [localEffect_trace_of_silent ho] using h.trace_isPrefix
      · simp [localEffect_script, State.next, hs]
      · simpa [localEffect_trace_of_silent ho] using h

theorem accessor_begins (o : LocalOp) (s : State) :
    (runSeq [.localStep o, .done] s).Begins (runSeq [.localStep o, .done] s.spared) := by
  have hdone : Steady (runSeq [.done]) := runSeq_steady rfl
  refine Flow.Begins.bind ((advance_begins 0 _).bind (fun _ t => ?_) fun _ t => ?_) (fun _ t => (hdone t).2)
    fun _ t => (hdone t).1.grows
  · cases o <;> rfl
  · cases o <;> simp [localEffect, Flow.Grows, Flow.Sat]

theorem accessor_cutsShort (i : Instr) {o : LocalOp} (ho : o.silent = true) :
    CutsShort true (runCommand i [.localStep o, .done]) := by
  intro s t pre mid post hs hpre hmid ht
  have hend : (s.trace <+: t.trace ∧ t.script ≠ post) ∨ t.trace = s.trace :=
    Flow.Sat.next (accessor_sat ho (s := accept i s) hs hmid) ht
  refine ⟨?_, fun hpost => ?_, fun u hu => ?_⟩
  · obtain ⟨hgrows, -⟩ | hcut := hend
    · exact hgrows
    · rw [hcut]
  · obtain ⟨-, hne⟩ | hcut := hend
    · exact absurd hpost hne
    · simp [newEvents, hcut]
  · rw [← State.spared_eq hs hpre hmid] at hu
    exact (accessor_begins o (accept i s)).next ht hu

theorem exec_cutsShort (i : Instr) : CutsShort (isAccessor i) (exec i) := by
  cases i with
  | reqReadConfig | reqReadVersion | reqReset | reqReadRssi => exact runPart_cutsShort rfl
  | reqWritePersistent g => exact runWriteFrame_cutsShort _ _
  | reqWriteVolatile g => exact runWriteFrame_cutsShort _ _
  | rspCfg g => exact runResponse_cutsShort _ _
  | rspVer v => exact runResponse_cutsShort _ _
  | rspRssi r n => exact runResponse_cutsShort _ _
  | begin b => exact (runCommand_cutsShort _ rfl).ite (fun c => baudFits c b) (refuseWord_cutsShort false)
  | printConfig => exact (runCommand_cutsShort _ rfl).ite Config.hasDiagDecode (refuseWord_cutsShort false)
  | enterConfig | enterNormal | readConfig | readVersion | readRssi | resetModule =>
    exact runCommand_cutsShort _ rfl
  | writePersistent | writeVolatile => exact runWriteVerify_cutsShort _ rfl
  | setFhsId v | setFhssNums v | setParity v | setBaud v | setAirRate v | setChannel v | setPower v | setFec v
  | setPullup v | setIoMode v | setSped v | setOption v | getConfigRaw => exact accessor_cutsShort _ rfl

/-- Settles O58: every row is cut short by its first reset, whether or not BEGIN was issued. -/
theorem resetCutsTheRunShort : Obligations.ResetCutsTheRunShort := by
  unfold Obligations.ResetCutsTheRunShort
  intro i s t pre mid post _ hs hpre hmid ht
  exact exec_cutsShort i s t pre mid post hs hpre hmid ht

end Sys2Proof.Machine
end

section
/-! PROOFS. What an instruction is made of: the phases of its pseudocode, and the state they start from. -/

namespace Sys2Proof.Machine

/-- The phases of an instruction, in the order of its pseudocode. -/
def phasesOf : Instr → List Phase
  | .reqReadConfig => [.drainPre, .send (.triple .readConfig)]
  | .reqReadVersion => [.drainPre, .send (.triple .readVersion)]
  | .reqReset => [.drainPre, .send (.triple .reset)]
  | .reqReadRssi => [.drainPre, .send (.triple .readRssi)]
  | .reqWritePersistent _ => [.send (.write .persistent)]
  | .reqWriteVolatile _ => [.send (.write .volatile)]
  | .rspCfg _ => [.parseResponse .cfg none]
  | .rspVer _ => [.parseResponse .ver none]
  | .rspRssi _ _ => [.parseResponse .rssi none]
  | .begin b => [.localStep (.transportBegin b), .done]
  | .enterConfig => [.configEnter, .done]
  | .enterNormal => [.normalExit, .done]
  | .setFhsId v => [.localStep (.setField .fhsId v), .done]
  | .setFhssNums v => [.localStep (.setField .fhssNums v), .done]
  | .setParity v => [.localStep (.setField .parity (v.setWidth 8)), .done]
  | .setBaud v => [.localStep (.setField .baudIndex (v.setWidth 8)), .done]
  | .setAirRate v => [.localStep (.setField .airRate (v.setWidth 8)), .done]
  | .setChannel v => [.localStep (.setField .channel v), .done]
  | .setPower v => [.localStep (.setField .power (v.setWidth 8)), .done]
  | .setFec v => [.localStep (.setField .fec (v.setWidth 8)), .done]
  | .setPullup v => [.localStep (.setField .pullup (v.setWidth 8)), .done]
  | .setIoMode v => [.localStep (.setField .ioMode (v.setWidth 8)), .done]
  | .setSped v => [.localStep (.setByte .sped v), .done]
  | .setOption v => [.localStep (.setByte .option v), .done]
  | .getConfigRaw => [.localStep .readRaw, .done]
  | .readConfig =>
    [.configEnter, .drainPre, .send (.triple .readConfig), .delay .response,
      .parseResponse .cfg (some .readConfig), .drainPost, .normalExit, .done]
  | .readVersion =>
    [.configEnter, .drainPre, .send (.triple .readVersion), .delay .response,
      .parseResponse .ver (some .readVersion), .drainPost, .normalExit, .done]
  | .readRssi =>
    [.configEnter, .drainPre, .send (.triple .readRssi), .delay .response,
      .parseResponse .rssi (some .readRssi), .drainPost, .normalExit, .done]
  | .resetModule =>
    [.configEnter, .drainPre, .send (.triple .reset), .delay .reset, .drainPost, .normalExit, .done]
  | .writePersistent =>
    [.configEnter, .drainPre, .send (.write .persistent), .delay .writePersistent,
      .configEnter, .drainPre, .send (.triple .readConfig), .delay .response,
      .parseResponse .cfg none, .drainPost, .compare .writePersistent, .normalExit, .done]
  | .writeVolatile =>
    [.configEnter, .drainPre, .send (.write .volatile), .delay .writeVolatile, .normalBarrier,
      .configEnter, .drainPre, .send (.triple .readConfig), .delay .response,
      .parseResponse .cfg none, .drainPost, .compare .writeVolatile, .normalExit, .done]
  | .printConfig => [.localStep .printConfig, .done]

/-- The commands that take the snapshot S1 (`43_write_verify.md` R182). -/
def takesSnapshot : Instr → Bool
  | .writePersistent | .writeVolatile => true
  | _ => false

/-- The state in which a host command is accepted. -/
def startOf (i : Instr) (s : State) : State := if takesSnapshot i then snapshot s else s

@[simp] theorem startOf_status (i : Instr) (s : State) : (startOf i s).status = s.status := by
  unfold startOf
  split <;> rfl

@[simp] theorem startOf_trace (i : Instr) (s : State) : (startOf i s).trace = s.trace := by
  unfold startOf
  split <;> rfl

@[simp] theorem startOf_undisturbed (i : Instr) (s : State) : (startOf i s).undisturbed = s.undisturbed := by
  unfold startOf
  split <;> rfl

/-- A host command the block has is accepted and runs its phases. -/
theorem exec_host {i : Instr} {s : State} (hi : isHostCommand i = true) (hw : i.wellFormed s.config = true) :
    exec i s = runCommand i (phasesOf i) (startOf i s) := by
  cases i with
  | reqReadConfig | reqReadVersion | reqReset | reqReadRssi | reqWritePersistent _ | reqWriteVolatile _
  | rspCfg _ | rspVer _ | rspRssi _ _ => cases hi
  | begin b => exact if_pos hw
  | printConfig => exact if_pos hw
  | _ => rfl

/-- A host command the block does not have is refused (`30_encoding.md` R90). -/
theorem exec_host_refused {i : Instr} {s : State} (hw : i.wellFormed s.config = false) :
    exec i s = .next (refuseWord s) := by
  cases i with
  | begin b => exact if_neg (ne_true_of_eq_false hw)
  | printConfig => exact if_neg (ne_true_of_eq_false hw)
  | _ => cases hw

theorem isHostCommand_of_noOperand {a : BitVec 32} {i j : Instr} (hj : isHostCommand j = true)
    (h : noOperand a j = some i) : isHostCommand i = true := by
  obtain ⟨-, rfl⟩ := (noOperand_eq_some a j i).mp h
  exact hj

theorem isHostCommand_of_operand {n : Nat} {a : BitVec 32} {f : BitVec n → Instr}
    (hf : ∀ v, isHostCommand (f v) = true) {i : Instr} (h : (operand n a).map f = some i) :
    isHostCommand i = true := by
  obtain ⟨v, -, rfl⟩ := Option.map_eq_some_iff.mp h
  exact hf v

/-- The decoder reads host commands from command words. -/
theorem isHostCommand_of_decodeHost {c : Config} {w : HostWord} {i : Instr} (h : decodeHost c w = some i) :
    isHostCommand i = true := by
  unfold decodeHost at h
  split at h
  case h_1 =>
    obtain ⟨-, hi⟩ := Option.ite_none_right_eq_some.mp h
    cases hi
    rfl
  case h_2 | h_3 | h_16 | h_17 | h_18 | h_19 | h_20 | h_21 | h_22 => exact isHostCommand_of_noOperand rfl h
  case h_23 =>
    obtain ⟨-, -, rfl⟩ := (printOperand_eq_some c _ i).mp h
    rfl
  case h_24 => cases h
  all_goals exact isHostCommand_of_operand (fun _ => rfl) h

end Sys2Proof.Machine
end

section
/-! PROOFS. O55, O56: the wire is disciplined because every phase that sends stands right behind a drain, in config
mode. -/

namespace Sys2Proof.Machine

/-! ## What the sequencer knows of the wire -/

/-- What is known between two phases: the wire is disciplined so far, M0 was last driven to 1 if `level` says so, and
a byte may come next if `ready` says so. -/
structure OnWire (level ready : Bool) (s : State) : Prop where
  disciplined : wireDisciplined s.trace = true
  level : level = true → lastLevel false s.trace = true
  ready : ready = true → lastReady false s.trace = true

/-- Whether M0 is known to be 1 after a phase, when it is before it. -/
def Phase.levelAfter (level : Bool) : Phase → Bool
  | .configEnter => true
  | .normalBarrier | .normalExit => false
  | _ => level

/-- Whether a byte is known to be allowed right after a phase. -/
def Phase.readyAfter : Phase → Bool
  | .drainPre => true
  | _ => false

/-- A phase that sends needs M0 = 1 and a drain right before it (`60_exceptions.md` R233, `42_command_framer.md`
R152). -/
def Phase.mayRun (level ready : Bool) : Phase → Bool
  | .send _ => level && ready
  | _ => true

/-- Every phase of a command may run where it stands. -/
def sendsSafely : Bool → Bool → List Phase → Bool
  | _, _, [] => true
  | level, ready, p :: ps => p.mayRun level ready && sendsSafely (p.levelAfter level) p.readyAfter ps

/-- Every host command's phases send only where they may. -/
theorem phasesOf_sendsSafely {i : Instr} (hi : isHostCommand i = true) :
    sendsSafely false false (phasesOf i) = true := by
  cases i with
  | reqReadConfig | reqReadVersion | reqReset | reqReadRssi | reqWritePersistent _ | reqWriteVolatile _
  | rspCfg _ | rspVer _ | rspRssi _ _ => cases hi
  | _ => rfl

/-! ## The discipline through more events -/

theorem wireDisciplined_append_noTx {tr es : List Event} (h : wireDisciplined tr = true)
    (hes : es.all (fun e => !e.isTx) = true) : wireDisciplined (tr ++ es) = true := by
  simp only [wireDisciplined, Bool.and_eq_true] at h ⊢
  simp [txInConfig_append, txAfterDrain_append, h, txInConfig_of_noTx _ hes, txAfterDrain_of_noTx _ hes]

theorem wireDisciplined_append_tx {s : State} (h : OnWire true true s) {es : List Event}
    (hes : es.all Event.isTx = true) :
    wireDisciplined (s.trace ++ es) = true := by
  obtain ⟨hconfig, hdrain, -, -⟩ := scans_of_tx hes
  have hwire := h.disciplined
  simp only [wireDisciplined, Bool.and_eq_true] at hwire ⊢
  simp [txInConfig_append, txAfterDrain_append, hwire, h.level rfl, h.ready rfl, hconfig, hdrain]

/-! ## Phases -/

theorem all_mono {p q : Event → Bool} {es : List Event} (hes : es.all p = true)
    (h : ∀ e, p e = true → q e = true) : es.all q = true :=
  List.all_eq_true.mpr fun e he => h e (List.all_eq_true.mp hes e he)

/-- M0 is 1 after a phase that ends there, or that leaves it where it was. -/
theorem Phase.lastLevel_after {p : Phase} {level : Bool} {s t : State} {es : List Event} (hends : p.ends s t)
    (ht : t.trace = s.trace ++ es) (hes : es.all p.emits = true)
    (hs : level = true → lastLevel false s.trace = true) (hl : p.levelAfter level = true) :
    lastLevel false t.trace = true := by
  cases p with
  | configEnter =>
    obtain ⟨fs, hfs, hall⟩ := hends
    rw [hfs, lastLevel_append]
    exact lastLevel_of_noM0 true (all_mono hall fun e he => by cases e with | m0 l => cases he | _ => rfl)
  | normalBarrier | normalExit => cases hl
  | _ =>
    rw [ht, lastLevel_append,
      lastLevel_of_noM0 _ (all_mono hes fun e he => by cases e with | m0 l => cases he | _ => rfl)]
    exact hs hl

/-- A byte may come right after the drain before a request. -/
theorem Phase.lastReady_after {p : Phase} {s t : State} (hends : p.ends s t) (hr : p.readyAfter = true) :
    lastReady false t.trace = true := by
  cases p with
  | drainPre =>
    obtain ⟨tr, htr⟩ := hends
    rw [htr, lastReady_append]
    rfl
  | _ => cases hr

/-- What a phase adds keeps the wire disciplined, where the phase may run. -/
theorem OnWire.append_emitted {level ready : Bool} {s : State} (h : OnWire level ready s) {p : Phase}
    (hp : p.mayRun level ready = true) {es : List Event} (hes : es.all p.emits = true) :
    wireDisciplined (s.trace ++ es) = true := by
  cases p with
  | send r =>
    obtain ⟨rfl, rfl⟩ := (Bool.and_eq_true _ _).mp hp
    exact wireDisciplined_append_tx h (all_mono hes fun e he => by cases e with | tx b => rfl | _ => cases he)
  | _ =>
    exact wireDisciplined_append_noTx h.disciplined
      (all_mono hes fun e he => by cases e with | tx b => cases he | _ => rfl)

theorem runPhase_onWire {p : Phase} {level ready : Bool} {s : State} (h : OnWire level ready s)
    (hp : p.mayRun level ready = true) :
    (runPhase p s).Sat (fun _ t => OnWire (p.levelAfter level) p.readyAfter t)
      (fun t => wireDisciplined t.trace = true) fun _ => True := by
  refine (runPhase_inside p s).mono (fun _ t ⟨hwithin, hends⟩ => ?_) (fun t ⟨u, hwithin, hcut⟩ => ?_)
    fun _ _ => trivial
  · obtain ⟨es, ht, hes⟩ := hwithin.trace
    exact ⟨ht ▸ h.append_emitted hp hes, Phase.lastLevel_after hends ht hes h.level, Phase.lastReady_after hends⟩
  · obtain ⟨es, hu, hes⟩ := hwithin.trace
    rw [hcut, blockReset_trace, hu]
    exact h.append_emitted hp hes

theorem runSeq_onWire {ps : List Phase} {level ready : Bool} {s : State} (h : OnWire level ready s)
    (hps : sendsSafely level ready ps = true) :
    (runSeq ps s).Sat (fun _ t => wireDisciplined t.trace = true) (fun t => wireDisciplined t.trace = true)
      fun _ => True := by
  induction ps generalizing level ready s with
  | nil => exact h.disciplined
  | cons p ps ih =>
    obtain ⟨hp, hrest⟩ := (Bool.and_eq_true _ _).mp hps
    exact (runPhase_onWire (s := { s with seq := p :: ps }) ⟨h.disciplined, h.level, h.ready⟩ hp).bind
      fun _ _ ht => ih ht hrest

/-! ## The invariant -/

theorem State.inv_iff (s : State) :
    s.inv = true ↔ (s.seq = [] ∧ s.op = none) ∧ s.status.toNat ≤ 3 ∧ wireDisciplined s.trace = true := by
  simp [State.inv, State.idle, and_assoc]

theorem State.inv_blockReset {s : State} (h : wireDisciplined s.trace = true) : (blockReset s).inv = true :=
  (State.inv_iff _).mpr ⟨⟨rfl, rfl⟩, Nat.zero_le _, h⟩

/-- The phases of a command that send only where they may lead to the invariant, whatever cuts them. -/
theorem runSeq_inv {ps : List Phase} (hps : sendsSafely false false ps = true) {s t : State}
    (hstatus : s.status.toNat ≤ 3) (hwire : wireDisciplined s.trace = true)
    (ht : (runSeq ps s).toOutcome = .next t) : t.inv = true := by
  have hstart : OnWire false false s := ⟨hwire, nofun, nofun⟩
  have hwire' : wireDisciplined t.trace = true := (Flow.Sat.next (runSeq_onWire hstart hps) ht).elim id id
  obtain ⟨hwithin, hidle⟩ | ⟨u, -, rfl⟩ := Flow.Sat.next (runSeq_inside ps s) ht
  · exact (State.inv_iff t).mpr ⟨hidle, hwithin.status hstatus, hwire'⟩
  · exact State.inv_blockReset hwire'

theorem refuseWord_inv {s : State} (h : s.inv = true) : (refuseWord s).inv = true := by
  obtain ⟨hidle, hstatus, hwire⟩ := (State.inv_iff s).mp h
  exact (State.inv_iff _).mpr ⟨hidle, hstatus, wireDisciplined_append_noTx hwire rfl⟩

theorem exec_inv {i : Instr} (hi : isHostCommand i = true) {s t : State} (h : s.inv = true)
    (ht : exec i s = .next t) : t.inv = true := by
  cases hw : i.wellFormed s.config with
  | false =>
    cases (exec_host_refused hw).symm.trans ht
    exact refuseWord_inv h
  | true =>
    obtain ⟨-, hstatus, hwire⟩ := (State.inv_iff s).mp h
    rw [exec_host hi hw] at ht
    exact runSeq_inv (phasesOf_sendsSafely hi) (s := accept i (startOf i s)) (by simpa using hstatus)
      (by simpa using hwire) ht

theorem advance_inv {s t : State} (h : s.inv = true) (ht : (advance 0 s).toOutcome = .next t) : t.inv = true := by
  obtain ⟨hidle, hstatus, hwire⟩ := (State.inv_iff s).mp h
  rw [advance_eq] at ht
  split at ht <;> cases ht
  · exact State.inv_blockReset (by simpa using hwire)
  · exact (State.inv_iff _).mpr ⟨hidle, hstatus, by simpa using hwire⟩

/-- Settles O55, by what the idle block finds at the command port. -/
theorem invariantIsKeptByEveryStep : Obligations.InvariantIsKeptByEveryStep := by
  unfold Obligations.InvariantIsKeptByEveryStep
  intro s t h ht
  obtain ⟨⟨hseq, -⟩, -, hwire⟩ := (State.inv_iff s).mp h
  cases hport : s.hostInputs with
  | nil => exact advance_inv h ((step_idle hseq hport).symm.trans ht)
  | cons input rest =>
    have hrest : State.inv { s with hostInputs := rest } = true := h
    cases input with
    | reset =>
      cases (step_reset hseq hport).symm.trans ht
      exact State.inv_blockReset hwire
    | word w =>
      cases hd : decodeHost s.config w with
      | none =>
        cases (step_refuse hseq hport hd).symm.trans ht
        exact refuseWord_inv hrest
      | some i => exact exec_inv (isHostCommand_of_decodeHost hd) hrest ((step_run hseq hport hd).symm.trans ht)

/-- Settles O56: nothing has happened yet. -/
theorem invariantHoldsAfterReset : Obligations.InvariantHoldsAfterReset :=
  (State.inv_iff _).mpr ⟨⟨rfl, rfl⟩, Nat.zero_le _, rfl⟩

end Sys2Proof.Machine
end

section
/-! PROOFS. O22, O51 to O54: which registers a phase may write and which M0 it leaves, when no reset cuts it; and so
of every instruction. -/

namespace Sys2Proof.Machine

/-! ## Registers and their writers -/

/-- The registers of the block that outlast a command, but for the result flags (`10_state.md` section 1). -/
inductive Register where
  | cfg
  | m0
  | intended
  | ver
  | rssi
  | noise
  | baud

/-- The register has in `t` the value it has in `s`. -/
def Register.Kept (s t : State) : Register → Prop
  | .cfg => t.cfg = s.cfg
  | .m0 => t.m0 = s.m0
  | .intended => t.intended = s.intended
  | .ver => t.ver = s.ver
  | .rssi => t.rssi = s.rssi
  | .noise => t.noise = s.noise
  | .baud => t.baud = s.baud

/-- The registers a phase may write. -/
def Phase.writes : Phase → Register → Bool
  | .localStep (.setField _ _), .cfg | .localStep (.setByte _ _), .cfg => true
  | .localStep (.transportBegin _), .baud => true
  | .configEnter, .m0 | .normalBarrier, .m0 | .normalExit, .m0 => true
  | .parseResponse .cfg _, .cfg => true
  | .parseResponse .ver _, .ver => true
  | .parseResponse .rssi _, .rssi | .parseResponse .rssi _, .noise => true
  | _, _ => false

/-- The registers an instruction may write: those its phases may, and INTENDED where it takes a snapshot. -/
def writesOf (i : Instr) (r : Register) : Bool :=
  (phasesOf i).any (fun p => p.writes r) ||
    match r with
    | .intended => takesSnapshot i
    | _ => false

/-! ## Going from one state to another -/

/-- `t` is reached from `s` along its script, with no register written but `W`, and M0 at the level it was last driven
to (`41_mode_control.md` R137). -/
structure Writes (W : Register → Bool) (s t : State) : Prop where
  script : t.script <:+ s.script
  kept : ∀ r, W r = false → r.Kept s t
  line : ∃ es, t.trace = s.trace ++ es ∧ t.m0 = lastLevel s.m0 es

theorem Register.Kept.trans {r : Register} {s t u : State} (a : r.Kept s t) (b : r.Kept t u) : r.Kept s u := by
  cases r <;> exact Eq.trans b a

theorem Writes.trans {W : Register → Bool} {s t u : State} (a : Writes W s t) (b : Writes W t u) : Writes W s u := by
  obtain ⟨es, hes, hm⟩ := a.line
  obtain ⟨fs, hfs, hm'⟩ := b.line
  exact ⟨b.script.trans a.script, fun r hr => (a.kept r hr).trans (b.kept r hr), es ++ fs,
    by rw [hfs, hes, List.append_assoc], by rw [hm', hm, lastLevel_append]⟩

theorem Writes.mono {W W' : Register → Bool} (h : ∀ r, W r = true → W' r = true) {s t : State}
    (a : Writes W s t) : Writes W' s t :=
  ⟨a.script, fun r hr => a.kept r (Bool.eq_false_of_not_eq_true fun hw => by simp [h r hw] at hr), a.line⟩

/-- The environment moved, and no event drove M0. -/
theorem Writes.moved {W : Register → Bool} {s : State} {w : World} (hw : w.script <:+ s.script) (t0 : Millis)
    {es : List Event} (hes : lastLevel s.m0 es = s.m0) : Writes W s (s.moved w t0 es) :=
  ⟨hw, fun r _ => by cases r <;> rfl, es, rfl, hes.symm⟩

/-- No register was touched and nothing happened. -/
theorem Writes.of_kept {W : Register → Bool} {s t : State} (hs : t.script = s.script) (ht : t.trace = s.trace)
    (hk : ∀ r : Register, r.Kept s t) : Writes W s t :=
  ⟨hs ▸ List.suffix_refl _, fun r _ => hk r, [], by rw [ht, List.append_nil], hk .m0⟩

theorem Writes.noReset {W : Register → Bool} {s t : State} (a : Writes W s t) (h : s.noReset = true) :
    t.noReset = true := by
  rw [State.noReset, List.all_eq_true] at h ⊢
  exact fun x hx => h x (a.script.subset hx)

/-- A register that changed was one that may be written. -/
theorem Writes.of_not_kept {W : Register → Bool} {s t : State} (a : Writes W s t) {r : Register} (h : ¬ r.Kept s t) :
    W r = true :=
  Bool.eq_true_of_not_eq_false fun hr => h (a.kept r hr)

/-- An operation that no reset cuts returns with no register written but `W`, if it returns. -/
abbrev Flow.Writing {α : Type} (x : Flow α) (W : Register → Bool) (s : State) : Prop :=
  x.Sat (fun _ t => Writes W s t) (fun _ => False) fun _ => True

theorem Flow.Writing.of_writes {α : Type} {x : Flow α} {W : Register → Bool} {s t : State} (a : Writes W s t)
    (hx : x.Writing W t) : x.Writing W s :=
  hx.mono (fun _ _ hu => a.trans hu) (fun _ h => h) fun _ h => h

theorem Flow.Writing.bind {α β : Type} {x : Flow α} {f : α → State → Flow β} {W : Register → Bool} {s : State}
    (h : s.noReset = true) (hx : x.Writing W s) (hf : ∀ a t, t.noReset = true → (f a t).Writing W t) :
    (x.bind f).Writing W s :=
  Flow.Sat.bind hx fun a t ht => Flow.Writing.of_writes ht (hf a t (ht.noReset h))

theorem Flow.Writing.next {x : Flow Unit} {W : Register → Bool} {s t : State} (hx : x.Writing W s)
    (ht : x.toOutcome = .next t) : Writes W s t :=
  (Flow.Sat.next hx ht).elim id False.elim

/-! ## The last level in the views of a trace -/

/-- The last level M0 was driven to is a view of the driven events. -/
theorem lastLevel_driven (l : Bool) (tr : List Event) : lastLevel l (driven tr) = lastLevel l tr := by
  induction tr generalizing l with
  | nil => rfl
  | cons e tr ih => cases e <;> exact ih _

theorem Views.lastLevel_eq {es d : List Event} {f : List (DiagKind × Label)} {b : Bool} (h : Views es d f b)
    (l : Bool) : lastLevel l es = lastLevel l d := by
  rw [← lastLevel_driven, h.1]

/-! ## Phases -/

theorem rxRead_writing (W : Register → Bool) {s : State} (h : s.noReset = true) : (rxRead s).Writing W s := by
  rw [rxRead, advance_ret 0 h, Flow.bind_ret]
  split
  next => trivial
  next b bs _ => exact ⟨s.next_script 0, fun r _ => by cases r <;> rfl, [.rx b], by simp, rfl⟩

/-- DRAIN writes no register, whatever the module sends and for however long. -/
theorem drainLoop_writing (W : Register → Bool) (fuel : Nat) {s : State} (h : s.noReset = true) :
    (drainLoop fuel s).Writing W s := by
  induction fuel generalizing s with
  | zero => trivial
  | succ fuel ih =>
    have hcount : (rxAvail s).Writing W s := by
      rw [rxAvail_ret h]
      exact Writes.moved (s.next_script 0) s.t0 rfl
    refine Flow.Writing.bind h hcount fun n t ht => ?_
    split
    · exact Writes.of_kept rfl rfl fun r => by cases r <;> rfl
    · exact Flow.Writing.bind ht (rxRead_writing W ht) fun _ u hu => ih hu

theorem txBytes_writing (W : Register → Bool) (bs : List Byte) {s : State} (h : s.noReset = true) :
    (txBytes bs s).Writing W s := by
  obtain ⟨w, hw, hs, -⟩ := txBytes_ret bs h
  rw [hw]
  refine Writes.moved hs s.t0 (lastLevel_of_noM0 _ ?_)
  simp [Event.isM0]

theorem parse_writing (k : Reply) (l : Option Label) {s : State} (h : s.noReset = true) :
    (parse k s).Writing (Phase.parseResponse k l).writes s := by
  cases k with
  | cfg =>
    obtain ⟨w, es, r, g, e, hs, -, hes⟩ := parseCfg_ret h
    rw [parse, e]
    exact ⟨hs, fun r hr => by cases r with | cfg => cases hr | _ => rfl, es, rfl, (hes.lastLevel_eq _).symm⟩
  | ver =>
    obtain ⟨w, es, r, v, e, hs, -, hes⟩ := parseVer_ret h
    rw [parse, e]
    exact ⟨hs, fun r hr => by cases r with | ver => cases hr | _ => rfl, es, rfl, (hes.lastLevel_eq _).symm⟩
  | rssi =>
    obtain ⟨w, es, r, p, n, e, hs, -, hes⟩ := parseRssi_ret h
    rw [parse, e]
    exact ⟨hs, fun r hr => by cases r with | rssi | noise => cases hr | _ => rfl, es, rfl,
      (hes.lastLevel_eq _).symm⟩

theorem settleOutcome_writing (W : Register → Bool) (r : CmdResult) (l : Option Label) {s : State}
    (h : s.noReset = true) : (settleOutcome r l s).Writing W s := by
  cases l with
  | none =>
    rw [settleOutcome_none]
    exact Writes.of_kept rfl rfl fun r => by cases r <;> rfl
  | some l =>
    obtain ⟨w, es, e, hs, hes⟩ := settleOutcome_ret r l h
    rw [e]
    exact ⟨hs, fun r _ => by cases r <;> rfl, es, rfl, (hes.lastLevel_eq _).symm⟩

theorem enterNormal_writing {W : Register → Bool} (hW : W .m0 = true) {s : State} (h : s.noReset = true) :
    (enterNormal s).Writing W s := by
  obtain ⟨w, t0, k, b, e, hs, -⟩ := enterNormal_ret h
  rw [e]
  exact ⟨hs, fun r hr => by cases r with | m0 => simp [hW] at hr | _ => rfl, _, rfl,
    ((modeEvents_views s.config false .normal k b).lastLevel_eq _).symm⟩

theorem enterConfig_writing {W : Register → Bool} (hW : W .m0 = true) {s : State} (h : s.noReset = true) :
    (enterConfig s).Writing W s := by
  obtain ⟨w, t0, k, b, e, hs, -⟩ := enterConfig_ret h
  rw [e]
  exact ⟨hs, fun r hr => by cases r with | m0 => simp [hW] at hr | _ => rfl, _, rfl,
    ((modeEvents_views s.config true .config k b).lastLevel_eq _).symm⟩

theorem localStep_writes (o : LocalOp) (s : State) :
    Writes (Phase.localStep o).writes s (localEffect o (s.moved (s.next 0) s.t0 [])) := by
  cases o with
  | setField _ _ | setByte _ _ =>
    exact ⟨s.next_script 0, fun r hr => by cases r with | cfg => cases hr | _ => rfl, [], rfl, rfl⟩
  | readRaw => exact Writes.moved (s.next_script 0) s.t0 rfl
  | transportBegin b =>
    exact ⟨s.next_script 0, fun r hr => by cases r with | baud => cases hr | _ => rfl, [.begin b],
      by simp [localEffect], rfl⟩
  | printConfig =>
    exact ⟨s.next_script 0, fun r _ => by cases r <;> rfl, [.print (decodeImage s.cfg)], by simp [localEffect], rfl⟩

theorem runPhase_writing (p : Phase) {s : State} (h : s.noReset = true) : (runPhase p s).Writing p.writes s := by
  cases p with
  | localStep o =>
    rw [runPhase, advance_ret 0 h]
    exact localStep_writes o s
  | configEnter => exact enterConfig_writing rfl h
  | normalBarrier | normalExit => exact enterNormal_writing rfl h
  | drainPre | drainPost => exact drainLoop_writing _ _ h
  | send r =>
    cases r with
    | triple op => exact txBytes_writing _ _ h
    | write op => exact txBytes_writing _ _ h
  | delay d =>
    rw [runPhase, sleep_ret _ h]
    exact Writes.moved (s.next_script _) s.now rfl
  | parseResponse k l =>
    exact Flow.Writing.bind h (parse_writing k l h) fun r t ht => settleOutcome_writing _ r l ht
  | compare l => exact settleOutcome_writing _ _ _ h
  | done =>
    rw [runPhase, advance_ret 0 h]
    exact ⟨s.next_script 0, fun r _ => by cases r <;> rfl, [.done s.outcome], by simp, rfl⟩

theorem runSeq_writing {W : Register → Bool} {ps : List Phase} (hW : ∀ p ∈ ps, ∀ r, p.writes r = true → W r = true)
    {s : State} (h : s.noReset = true) : (runSeq ps s).Writing W s := by
  induction ps generalizing s with
  | nil => exact Writes.of_kept rfl rfl fun r => by cases r <;> rfl
  | cons p ps ih =>
    have hstart : Writes W s { s with seq := p :: ps } :=
      Writes.of_kept rfl rfl fun r => by cases r <;> rfl
    have hphase : (runPhase p { s with seq := p :: ps }).Writing W { s with seq := p :: ps } :=
      (runPhase_writing p (s := { s with seq := p :: ps }) h).mono
        (fun _ _ ht => ht.mono (hW p List.mem_cons_self)) (fun _ h => h) fun _ h => h
    exact Flow.Writing.of_writes hstart (Flow.Writing.bind h hphase fun _ t ht =>
      ih (fun q hq => hW q (List.mem_cons_of_mem _ hq)) ht)

/-! ## Instructions -/

theorem writesOf_of_phase {i : Instr} (p : Phase) (hp : p ∈ phasesOf i) (r : Register) (hr : p.writes r = true) :
    writesOf i r = true :=
  Bool.or_eq_true_iff.mpr (.inl (List.any_eq_true.mpr ⟨p, hp, hr⟩))

/-- Acceptance, with the snapshot where there is one. -/
theorem accept_writes (i : Instr) (s : State) : Writes (writesOf i) s (accept i (startOf i s)) := by
  unfold startOf
  split
  · rename_i hi
    refine ⟨List.suffix_refl _, fun r hr => ?_, [], by simp, rfl⟩
    cases r with
    | intended => simp [writesOf, hi] at hr
    | _ => rfl
  · exact Writes.of_kept rfl rfl fun r => by cases r <;> rfl

theorem runResponse_writes (i : Instr) {k : Reply} {bytes : List Byte} (hi : phasesOf i = [.parseResponse k none])
    {s t : State} (h : s.noReset = true) (ht : runResponse k bytes s = .next t) : Writes (writesOf i) s t := by
  have hplaced : Writes (writesOf i) s { s with rx := bytes ++ s.rx } :=
    Writes.of_kept rfl rfl fun r => by cases r <;> rfl
  exact hplaced.trans ((runSeq_writing (hi ▸ writesOf_of_phase) (s := { s with rx := bytes ++ s.rx }) h).next ht)

theorem runWriteFrame_writes (W : Register → Bool) {op : WriteOp} {g : Image} {s t : State} (h : s.noReset = true)
    (ht : runWriteFrame op g s = .next t) : Writes W s t := by
  obtain ⟨w, hw, hs, -⟩ := txBytes_ret (op.code :: g.bytes) (s := { s with seq := [.send (.write op)] }) h
  rw [runWriteFrame, sendWrite, hw] at ht
  cases ht
  exact ⟨hs, fun r _ => by cases r <;> rfl, (op.code :: g.bytes).map .tx, rfl,
    (lastLevel_of_noM0 s.m0 (by simp [Event.isM0])).symm⟩

theorem exec_host_writes {i : Instr} (hi : isHostCommand i = true) {s t : State} (h : s.noReset = true)
    (ht : exec i s = .next t) : Writes (writesOf i) s t := by
  cases hw : i.wellFormed s.config with
  | false =>
    cases (exec_host_refused hw).symm.trans ht
    exact ⟨List.suffix_refl _, fun r _ => by cases r <;> rfl, [.refused], rfl, rfl⟩
  | true =>
    have haccept := accept_writes i s
    rw [exec_host hi hw] at ht
    exact haccept.trans ((runSeq_writing writesOf_of_phase (haccept.noReset h)).next ht)

/-- What an instruction that no reset cuts may write, and the level it leaves M0 at. -/
theorem exec_writes {i : Instr} {s t : State} (h : s.noReset = true) (ht : exec i s = .next t) :
    Writes (writesOf i) s t := by
  cases i with
  | reqReadConfig | reqReadVersion | reqReset | reqReadRssi => exact (runSeq_writing writesOf_of_phase h).next ht
  | reqWritePersistent g | reqWriteVolatile g => exact runWriteFrame_writes _ h ht
  | rspCfg _ | rspVer _ | rspRssi _ _ => exact runResponse_writes _ rfl h ht
  | _ => exact exec_host_writes rfl h ht

/-! ## Who writes which register -/

/-- The instructions that may write CFG (R11). -/
theorem writer_cfg {i : Instr} (h : writesOf i .cfg = true) :
    (setterOf i).isSome = true ∨ (∃ v, i = .setSped v) ∨ (∃ v, i = .setOption v) ∨ (∃ g, i = .rspCfg g) ∨
      i = .readConfig ∨ i = .writePersistent ∨ i = .writeVolatile := by
  cases i with
  | setFhsId _ | setFhssNums _ | setParity _ | setBaud _ | setAirRate _ | setChannel _ | setPower _ | setFec _
  | setPullup _ | setIoMode _ => exact .inl rfl
  | setSped _ | setOption _ | rspCfg _ | readConfig | writePersistent | writeVolatile => simp
  | _ => cases h

theorem writer_baud {i : Instr} (h : writesOf i .baud = true) : ∃ b, i = .begin b := by
  cases i with
  | begin b => exact ⟨b, rfl⟩
  | _ => cases h

theorem writer_ver {i : Instr} (h : writesOf i .ver = true) : i = .readVersion ∨ ∃ v, i = .rspVer v := by
  cases i with
  | readVersion | rspVer _ => simp
  | _ => cases h

theorem writer_rssi {i : Instr} (h : writesOf i .rssi = true ∨ writesOf i .noise = true) :
    i = .readRssi ∨ ∃ r n, i = .rspRssi r n := by
  cases i with
  | readRssi | rspRssi _ _ => simp
  | _ => rcases h with h | h <;> cases h

theorem writer_intended {i : Instr} (h : writesOf i .intended = true) : i = .writePersistent ∨ i = .writeVolatile := by
  cases i with
  | writePersistent | writeVolatile => simp
  | _ => cases h

theorem writer_m0 {i : Instr} (h : writesOf i .m0 = true) :
    i = .enterConfig ∨ i = .enterNormal ∨ i = .readConfig ∨ i = .readVersion ∨ i = .readRssi ∨ i = .resetModule ∨
      i = .writePersistent ∨ i = .writeVolatile := by
  cases i with
  | enterConfig | enterNormal | readConfig | readVersion | readRssi | resetModule | writePersistent | writeVolatile =>
    simp
  | _ => cases h

/-- Settles O52: what changed may be written, and `writer_cfg` names who may. -/
theorem onlyTheNamedCommandsWriteTheImage : Obligations.OnlyTheNamedCommandsWriteTheImage := by
  unfold Obligations.OnlyTheNamedCommandsWriteTheImage
  intro i s t hs ht hne
  exact writer_cfg ((exec_writes hs ht).of_not_kept (r := .cfg) hne)

/-- Settles O53: as O52, register by register. -/
theorem onlyTheNamedCommandsWriteARegister : Obligations.OnlyTheNamedCommandsWriteARegister := by
  unfold Obligations.OnlyTheNamedCommandsWriteARegister
  intro i s t hs ht
  have hwrites := exec_writes hs ht
  exact ⟨fun hne => writer_baud (hwrites.of_not_kept (r := .baud) hne),
    fun hne => writer_ver (hwrites.of_not_kept (r := .ver) hne),
    fun hne => writer_rssi (hne.imp (hwrites.of_not_kept (r := .rssi)) (hwrites.of_not_kept (r := .noise))),
    fun hne => writer_intended (hwrites.of_not_kept (r := .intended) hne),
    fun hne => writer_m0 (hwrites.of_not_kept (r := .m0) hne)⟩

/-- Settles O54. -/
theorem modeLineFollowsItsEvents : Obligations.ModeLineFollowsItsEvents := by
  unfold Obligations.ModeLineFollowsItsEvents
  intro i s t hs ht
  exact (exec_writes hs ht).line

end Sys2Proof.Machine
end

section
/-! PROOFS. O22: a field setter against the unnamed bits of OPTION. -/

namespace Sys2Proof.Machine

/-- The fields of OPTION (`30_encoding.md` R80) leave out the bits 7, 4 and 3. -/
theorem fieldInsert_option_unnamed {f : Field} (hf : fieldIndex f = .option) (old v : Byte) :
    fieldInsert f old v &&& 0x98 = old &&& 0x98 := by
  have hout : ∀ k < 8, fieldLo f ≤ k ∧ k < fieldLo f + fieldWidth f → (0x98 : Byte).getLsbD k = false := by
    revert hf
    cases f <;> decide
  apply BitVec.eq_of_getLsbD_eq
  intro k hk
  rw [BitVec.getLsbD_and, BitVec.getLsbD_and, fieldInsert_getLsbD]
  split
  · rename_i hin
    rw [hout k hk hin, Bool.and_false, Bool.and_false]
  · rfl

theorem fieldSet_option_unnamed (g : Image) (f : Field) (v : Byte) :
    (fieldSet g f v).option &&& 0x98 = g.option &&& 0x98 := by
  cases hf : fieldIndex f with
  | option =>
    rw [fieldSet, hf]
    exact fieldInsert_option_unnamed hf g.option v
  | _ => rw [fieldSet, hf]; rfl

/-- Settles O22: a setter writes its field by `exec_setter`; of the other writers of CFG, SET_SPED writes another
byte. -/
theorem fieldSettersPreserveSiblings : Obligations.FieldSettersPreserveSiblings := by
  unfold Obligations.FieldSettersPreserveSiblings
  refine ⟨fun i f v s hs hi => ?_, fun i s t hs ht hne => ?_⟩
  · obtain ⟨w, hrx, -, hw⟩ := exec_setter hs
    exact ⟨w, fieldSet s.cfg f v, hw hi, hrx, fieldGet_set _ f v (setterOf_lt hi),
      fun f' hf' => fieldGet_set_ne _ (Ne.symm hf') v, fieldSet_option_unnamed _ f v⟩
  · have hcfg : t.cfg ≠ s.cfg := fun h => hne (by rw [h])
    rcases writer_cfg ((exec_writes hs ht).of_not_kept (r := .cfg) hcfg) with hset | ⟨v, rfl⟩ | hrest
    · obtain ⟨⟨f, v⟩, hi⟩ := Option.isSome_iff_exists.mp hset
      obtain ⟨w, -, -, hw⟩ := exec_setter hs
      cases (hw hi).symm.trans ht
      exact absurd (fieldSet_option_unnamed s.cfg f v) hne
    · obtain ⟨w, -, -, hw⟩ := runCommand_local hs
      cases (hw (.setSped v) (.setByte .sped v)).symm.trans ht
      exact absurd rfl hne
    · exact hrest

end Sys2Proof.Machine
end

section
/-! PROOFS. O51: a command that nothing disturbs goes through its phases to Done. -/

namespace Sys2Proof.Machine

/-- A phase that nothing disturbs returns. -/
theorem runPhase_returns (p : Phase) {s : State} (h : s.undisturbed = true) :
    ∃ t, runPhase p s = .ret () t ∧ t.undisturbed = true ∧ s.trace <+: t.trace := by
  have hinside := runPhase_inside p s
  have hwriting := runPhase_writing p (State.undisturbed_noReset h)
  cases hx : runPhase p s with
  | ret a t =>
    rw [hx] at hinside hwriting
    obtain ⟨es, hes, -⟩ := hwriting.line
    exact ⟨t, rfl, State.undisturbed_of h hwriting.script hinside.1.flood, es, hes.symm⟩
  | cut t => exact (hx ▸ hwriting : (Flow.cut t).Writing p.writes s).elim
  | halt r =>
    rw [hx] at hinside
    exact absurd (State.undisturbed_flood h) hinside.2

/-- What a command leaves that ended in Done (`10_state.md` R18, R20). -/
structure Completed (s t : State) : Prop where
  resultValid : t.resultValid = true
  status : t.status.toNat ≤ 3
  idle : t.idle = true
  trace : ∃ es r, t.trace = s.trace ++ es ++ [.done r]

/-- Phases that nothing disturbs, with Done at the end, complete. -/
theorem runSeq_completes {ps : List Phase} (hlast : ps.getLast? = some .done) {s : State}
    (h : s.undisturbed = true) : ∃ t, runSeq ps s = .ret () t ∧ Completed s t := by
  induction ps generalizing s with
  | nil => cases hlast
  | cons p ps ih =>
    cases ps with
    | nil =>
      cases hlast
      exact ⟨_, runSeq_done (State.undisturbed_noReset h), rfl, CmdResult.code_le _, rfl, [], s.outcome, by simp⟩
    | cons q qs =>
      obtain ⟨u, hu, hquiet, es, hes⟩ := runPhase_returns p (s := { s with seq := p :: q :: qs }) h
      obtain ⟨t, ht, hvalid, hstatus, hidle, fs, r, hfs⟩ := ih (by simpa using hlast) hquiet
      exact ⟨t, (runSeq_ret p (q :: qs) s hu).trans ht, hvalid, hstatus, hidle, es ++ fs, r,
        by rw [hfs, ← hes]; simp⟩

/-- The pulse of a step that ended in Done (`20_memory.md` R42). -/
theorem Completed.response {s t : State} (h : Completed s t) : response s t = some ⟨t.status, t.tmo, false⟩ := by
  obtain ⟨es, r, hes⟩ := h.trace
  simp [Machine.response, newEvents, hes, List.append_assoc]

theorem phasesOf_getLast {i : Instr} (hi : isHostCommand i = true) : (phasesOf i).getLast? = some .done := by
  cases i with
  | reqReadConfig | reqReadVersion | reqReset | reqReadRssi | reqWritePersistent _ | reqWriteVolatile _
  | rspCfg _ | rspVer _ | rspRssi _ _ => cases hi
  | _ => rfl

/-- Settles O51, whether or not BEGIN was issued: every host command's last phase is Done. -/
theorem everyHostCommandCompletes : Obligations.EveryHostCommandCompletes := by
  unfold Obligations.EveryHostCommandCompletes
  intro i s _ hi hw h
  have hstart : (accept i (startOf i s)).undisturbed = true := (startOf_undisturbed i s).trans h
  obtain ⟨t, ht, hcompleted⟩ := runSeq_completes (phasesOf_getLast hi) hstart
  have hdone : Completed s t := { hcompleted with trace := by simpa using hcompleted.trace }
  refine ⟨t, ?_, hdone.resultValid, hdone.response, hdone.status, hdone.idle⟩
  rw [exec_host hi hw, runCommand, ht, Flow.toOutcome_ret]

end Sys2Proof.Machine
end

section
/-! PROOFS. O4, O5, O14, O50: what a step is where the sequencer stands at a wire row, what reset leaves, and the
codes. -/

namespace Sys2Proof.Machine

/-- Settles O4: the row is the phases SEQ holds, with INTENDED as the image of a write frame. -/
theorem stepSendsRequestAtSequencer : Obligations.StepSendsRequestAtSequencer := by
  unfold Obligations.StepSendsRequestAtSequencer
  intro s g
  have hbusy {p : Phase} {ps : List Phase} (h : s.seq = p :: ps) : step s = (runSeq (p :: ps) s).toOutcome := by
    rw [step_busy (h ▸ List.cons_ne_nil p ps), h]
  refine ⟨hbusy, hbusy, hbusy, hbusy, fun h hg => ?_, fun h hg => ?_⟩
  · subst hg
    exact hbusy h
  · subst hg
    exact hbusy h

/-- The row a response frame decodes to is the parse of that frame at the head of the queue (log entry 3). -/
theorem exec_response {frame : List Byte} {i : Instr} {k : Reply} (hd : decodeResponse frame = some i)
    (hk : k = .cfg ∧ frame.length = 6 ∨ k = .ver ∧ frame.length = 4 ∨ k = .rssi ∧ frame.length = 3) (s : State) :
    exec i s = runPart [.parseResponse k none] { s with rx := frame ++ s.rx } := by
  unfold decodeResponse at hd
  split at hd
  · obtain rfl : k = .cfg := by simpa using hk
    split at hd
    · rename_i hheader
      cases hd
      subst hheader
      rfl
    · cases hd
  · obtain rfl : k = .ver := by simpa using hk
    cases hd
    rfl
  · obtain rfl : k = .rssi := by simpa using hk
    split at hd
    · rename_i hheader
      cases hd
      subst hheader
      rfl
    · cases hd
  · cases hd

/-- Settles O5: the parse finds its frame where the row places it. -/
theorem stepParsesResponseAtQueueHead : Obligations.StepParsesResponseAtQueueHead := by
  unfold Obligations.StepParsesResponseAtQueueHead
  intro s frame rest i k hd hrx hseq hk
  rw [step_busy (by simp [hseq]), hseq, exec_response hd hk, ← hrx]
  rfl

/-- Settles O14: reset leaves the registers of `State.reset` and the trace as it was. -/
theorem resetLeavesTheStatedValues : Obligations.ResetLeavesTheStatedValues := by
  unfold Obligations.ResetLeavesTheStatedValues
  intro s rest hseq hport
  refine ⟨_, step_reset hseq hport, fun u hu => ?_, rfl, rfl, rfl, rfl, rfl, rfl, rfl, rfl, ?_⟩
  · rcases hu with rfl | rfl <;> exact ⟨rfl, rfl, rfl, rfl, rfl, rfl, rfl, rfl, rfl, rfl, rfl, rfl, rfl⟩
  · simp [response, newEvents]

/-- Codes that find their kinds in a table tell them apart. -/
theorem eq_of_code_eq {α : Type} {n : Nat} {code : α → BitVec n} {table : List α}
    (h : ∀ a, table[(code a).toNat]? = some a) {a b : α} (hab : code a = code b) : a = b :=
  Option.some.inj ((h a).symm.trans (hab ▸ h b))

theorem CmdResult.getElem_code (r : CmdResult) :
    [CmdResult.ok, .insufficientData, .protocolMismatch, .verificationMismatch][r.code.toNat]? = some r := by
  cases r <;> rfl

theorem DiagKind.getElem_code (k : DiagKind) :
    [DiagKind.timeout, .insufficientData, .protocolMismatch, .verificationMismatch][k.code.toNat]? = some k := by
  cases k <;> rfl

theorem Label.getElem_code (l : Label) :
    [Label.config, .normal, .readConfig, .readVersion, .readRssi, .writePersistent, .writeVolatile][l.code.toNat]? =
      some l := by
  cases l <;> rfl

/-- Settles O50: each code is its kind's place in the table. -/
theorem resultCodesAreDistinct : Obligations.ResultCodesAreDistinct :=
  ⟨rfl, rfl, rfl, fun _ _ => eq_of_code_eq CmdResult.getElem_code, fun _ _ => eq_of_code_eq DiagKind.getElem_code,
    fun _ _ => eq_of_code_eq Label.getElem_code⟩

end Sys2Proof.Machine
end

section
/-! PROOFS. O3, O7, O11, O21, O37: the command port, the views of the registers, and the write frames. -/

namespace Sys2Proof.Machine

/-- Settles O3: decoding a host frame is decoding its word. -/
theorem stepRunsPresentedCommand : Obligations.StepRunsPresentedCommand := by
  unfold Obligations.StepRunsPresentedCommand
  intro s w rest i hseq hport hd
  exact step_run hseq hport hd

/-- Settles O7: a busy block runs its phases to Idle, and only an endless drain stops it. -/
theorem busyBlockTakesNoWord : Obligations.BusyBlockTakesNoWord := by
  unfold Obligations.BusyBlockTakesNoWord
  intro s hseq hflood _
  rw [step_busy hseq]
  obtain ⟨t, ht, hidle, -, -, -, hport⟩ | ⟨r, -, -, hfed⟩ := runSeq_outcome s.seq s
  · exact ⟨t, ht, hport, by simp [State.cmdReady, hidle]⟩
  · exact absurd hflood hfed

/-- Settles O11: the one fault of a step is that of an endless drain. -/
theorem noStepReadsAnEmptyQueue : Obligations.NoStepReadsAnEmptyQueue := by
  unfold Obligations.NoStepReadsAnEmptyQueue
  intro s _ hstep
  obtain ⟨t, ht, -⟩ | ⟨r, hr, rfl, -⟩ := step_settles s
  · cases ht.symm.trans hstep
  · cases hr.symm.trans hstep

/-- A byte of a view stands eight bits higher in the view that has one more byte below. -/
theorem extractByte_append {n k : Nat} {hi : BitVec n} {b c : Byte} (h : hi.extractLsb' k 8 = c) :
    (hi ++ b).extractLsb' (k + 8) 8 = c := by
  rw [BitVec.extractLsb'_append_eq_of_le (by omega), Nat.add_sub_cancel, h]

/-- Settles O21: byte 0 of a view is its lowest, and each byte below another moves that one up by eight bits. -/
theorem viewsPackByteZeroLow : Obligations.ViewsPackByteZeroLow := by
  unfold Obligations.ViewsPackByteZeroLow
  intro s
  have low {n : Nat} {hi : BitVec n} {b : Byte} : (hi ++ b).extractLsb' 0 8 = b :=
    BitVec.extractLsb'_append_eq_right
  have only {b : Byte} : b.extractLsb' 0 8 = b := BitVec.extractLsb'_eq_self
  exact ⟨low, extractByte_append low, extractByte_append (extractByte_append low),
    extractByte_append (extractByte_append (extractByte_append low)),
    extractByte_append (extractByte_append (extractByte_append (extractByte_append only))),
    low, extractByte_append low, extractByte_append (extractByte_append low),
    extractByte_append (extractByte_append (extractByte_append only))⟩

/-- A write frame sends its opcode and its image and touches no register (`42_command_framer.md` R153). -/
theorem runWriteFrame_ret (op : WriteOp) (g : Image) {s : State} (h : s.noReset = true) :
    ∃ w, runWriteFrame op g s =
        .next { s.moved w s.t0 ((op.code :: g.bytes).map .tx) with seq := [], op := none } ∧ s.rx <+: w.rx := by
  obtain ⟨w, hw, -, hrx⟩ := txBytes_ret (op.code :: g.bytes) (s := { s with seq := [.send (.write op)] }) h
  refine ⟨w, ?_, hrx⟩
  rw [runWriteFrame, sendWrite, hw]
  rfl

/-- Settles O37: both rows are write frames. -/
theorem writeRequestsSendOneContiguousBlock : Obligations.WriteRequestsSendOneContiguousBlock := by
  unfold Obligations.WriteRequestsSendOneContiguousBlock
  intro s g _ hs i b hib
  simp only [List.mem_cons, List.not_mem_nil, Prod.mk.injEq, or_false] at hib
  rcases hib with ⟨rfl, rfl⟩ | ⟨rfl, rfl⟩
  · exact runWriteFrame_ret .persistent g hs
  · exact runWriteFrame_ret .volatile g hs

end Sys2Proof.Machine
end

section
/-! PROOFS. O33, O59: a mode transition whose first poll finds AUX high, and one that a reset cuts in its settle
sleep. -/

namespace Sys2Proof.Machine

/-- AUX high at a poll ends the wait, however much time has passed (`41_mode_control.md` R131). -/
theorem pollAux_ready (l : Label) (n : Nat) {s : State} (h : s.noReset = true) (ha : s.nextAux = true) :
    pollAux l n s = .ret () (s.moved (s.next 0) s.t0 [.aux true]) := by
  cases n <;> rw [pollAux, auxRead_ret h, ha, Flow.bind_ret, if_pos rfl]

/-- A mode transition takes three ticks when the third, that of the first poll, has AUX high. -/
theorem modeSwitch_ready (level : Bool) (l : Label) {s : State} {t1 t2 t3 : Tick} {ts : List Tick}
    (hs : s.script = t1 :: t2 :: t3 :: ts) (h : s.noReset = true) (ha : t3.aux = true) :
    ∃ w, ((driveM0 level s).bind fun _ s => (sleep s.config.modeSettleMs s).bind fun _ s => waitAux l s) =
        .ret () { s.moved w (s.now + BitVec.ofNat 64 t1.dt + BitVec.ofNat 64 (max s.config.modeSettleMs t2.dt))
          (modeEvents s.config level l 0 false) with m0 := level } ∧
      w.script = ts ∧ w.rx = s.rx ++ t1.rx ++ t2.rx ++ t3.rx := by
  obtain ⟨h1, h2, -⟩ : t1.rst = false ∧ t2.rst = false ∧ _ := by
    simpa [State.noReset, hs] using h
  let a : State := { s.moved (s.next 0) s.t0 [.m0 level] with m0 := level }
  have hdrive : a.noReset = true := s.noReset_moved h (s.next_script 0) s.t0 [.m0 level]
  let c : State := a.moved (a.next s.config.modeSettleMs) a.now [.sleep s.config.modeSettleMs]
  have hsleep : c.noReset = true := a.noReset_moved hdrive (a.next_script s.config.modeSettleMs) a.now _
  let d : State := { c with t0 := c.now }
  have hpoll : d.nextAux = true := by simp [State.nextAux, d, c, a, State.next, hs, ha]
  refine ⟨d.next 0, ?_, ?_, ?_⟩
  · rw [driveM0_ret level h, Flow.bind_ret]
    show (sleep s.config.modeSettleMs a).bind _ = _
    rw [sleep_ret _ hdrive, Flow.bind_ret]
    show pollAux l c.script.length d = _
    rw [pollAux_ready l _ (s := d) hsleep hpoll]
    simp [d, c, a, State.moved, State.next, State.nextDt, hs, h1, h2, modeEvents, waitEvents]
  · simp [d, c, a, State.next, hs]
  · simp [d, c, a, State.next, State.arrivals, hs]

/-- Settles O33: the mode transition takes the three ticks, and Done follows. -/
theorem readyAtTheFirstPollEndsTheWait : Obligations.ReadyAtTheFirstPollEndsTheWait := by
  unfold Obligations.ReadyAtTheFirstPollEndsTheWait
  intro s t1 t2 t3 ts hs h ha
  let a : State := { accept .enterConfig s with seq := [.configEnter, .done] }
  obtain ⟨w, hmode, hscript, hrx⟩ := modeSwitch_ready true .config (s := a) hs h ha
  let b : State := { a.moved w (s.now + BitVec.ofNat 64 t1.dt + BitVec.ofNat 64 (max s.config.modeSettleMs t2.dt))
    (modeEvents s.config true .config 0 false) with m0 := true }
  have hsuffix : w.script <:+ s.script := ⟨[t1, t2, t3], by rw [hscript, hs]; rfl⟩
  have hb : b.noReset = true := s.noReset_moved h hsuffix s.t0 []
  refine ⟨b.next 0, ?_, congrArg List.tail hscript, hrx ▸ b.next_rx 0⟩
  show (runSeq [.configEnter, .done] (accept .enterConfig s)).toOutcome = _
  rw [runSeq_ret .configEnter [.done] (accept .enterConfig s) (t := b) hmode, runSeq_done hb]
  simp [b, a, State.moved, modeEvents, waitEvents, CmdResult.code]

/-- A reset in the settle sleep of a mode transition (`70_reset_and_hazards.md` R252). -/
theorem modeSwitch_cut_in_sleep (level : Bool) (l : Label) {s : State} {t1 t2 : Tick} {post : List Tick}
    (hs : s.script = t1 :: t2 :: post) (h1 : t1.rst = false) (h2 : t2.rst = true) :
    ((driveM0 level s).bind fun _ s => (sleep s.config.modeSettleMs s).bind fun _ s => waitAux l s) =
      .cut (blockReset (s.moved ⟨s.rx ++ t1.rx ++ t2.rx, t2.aux, ⟨t2.aux, t2.aux⟩,
        s.now + BitVec.ofNat 64 t1.dt + BitVec.ofNat 64 t2.dt, post⟩ s.t0 [.m0 level])) := by
  simp [driveM0, sleep, advance, hs, h1, h2, spend, settleAux, blockReset, State.moved, emit]

/-- The phases that are a mode transition, with the level they drive M0 to. -/
def Phase.switchesTo : Phase → Option Bool
  | .configEnter => some true
  | .normalBarrier | .normalExit => some false
  | _ => none

theorem runSeq_cut_in_sleep {p : Phase} {level : Bool} (hp : p.switchesTo = some level) (ps : List Phase)
    {s : State} {t1 t2 : Tick} {post : List Tick} (hs : s.script = t1 :: t2 :: post) (h1 : t1.rst = false)
    (h2 : t2.rst = true) :
    runSeq (p :: ps) s = .cut (blockReset (s.moved ⟨s.rx ++ t1.rx ++ t2.rx, t2.aux, ⟨t2.aux, t2.aux⟩,
        s.now + BitVec.ofNat 64 t1.dt + BitVec.ofNat 64 t2.dt, post⟩ s.t0 [.m0 level])) := by
  have hcut (l : Label) := modeSwitch_cut_in_sleep level l (s := { s with seq := p :: ps }) hs h1 h2
  rw [runSeq_cons]
  cases p with
  | configEnter => cases hp; exact congrArg (Flow.bind · _) (hcut .config)
  | normalBarrier | normalExit => cases hp; exact congrArg (Flow.bind · _) (hcut .normal)
  | _ => cases hp

/-- Settles O59: each of the eight commands begins with a mode transition. -/
theorem resetCutsASleepAtOnce : Obligations.ResetCutsASleepAtOnce := by
  unfold Obligations.ResetCutsASleepAtOnce
  intro s t1 t2 post hs h1 h2 i level hi _
  obtain ⟨hhost, hwf, p, ps, hphases, hp⟩ : isHostCommand i = true ∧ i.wellFormed s.config = true ∧
      ∃ p ps, phasesOf i = p :: ps ∧ p.switchesTo = some level := by
    simp only [List.mem_cons, List.not_mem_nil, Prod.mk.injEq, or_false] at hi
    rcases hi with ⟨rfl, rfl⟩ | ⟨rfl, rfl⟩ | ⟨rfl, rfl⟩ | ⟨rfl, rfl⟩ | ⟨rfl, rfl⟩ | ⟨rfl, rfl⟩ | ⟨rfl, rfl⟩ |
      ⟨rfl, rfl⟩ <;> exact ⟨rfl, rfl, _, _, rfl, rfl⟩
  have hscript : (accept i (startOf i s)).script = t1 :: t2 :: post := by
    unfold startOf
    split <;> exact hs
  rw [exec_host hhost hwf, runCommand, hphases, runSeq_cut_in_sleep hp ps hscript h1 h2, startOf]
  split <;> rfl

end Sys2Proof.Machine
end

section
/-! PROOFS. O49: what a write-verify leaves by the answer the module gives to its read-back. -/

namespace Sys2Proof.Machine

/-- The way out in a quiet environment brings nothing into the queue. -/
theorem runSeq_exit_quiet {s : State} (h : s.quiet) :
    ∃ w t0 es b, runSeq [.normalExit, .done] s =
        .ret () { s.moved w t0 es with
          m0 := false, seq := [], op := none, status := s.outcome.code, tmo := b, resultValid := true } ∧
      w.rx = s.rx := by
  obtain ⟨w, t0, es, b, e, hrx, hq⟩ := enterNormal_quiet (s := { s with seq := [.normalExit, .done] }) h
  refine ⟨_, t0, es ++ [.done s.outcome], b, ?_, (State.quiet_next hq 0).trans hrx⟩
  rw [runSeq_ret .normalExit [.done] s e, runSeq_done (State.undisturbed_noReset (State.quiet_undisturbed hq))]
  simp [State.moved]

/-- The failure exit brings nothing into the queue of a quiet environment. -/
theorem settleOutcome_quiet_rx (r : CmdResult) (l : Option Label) {s : State} (h : s.quiet) :
    ∃ w es, settleOutcome r l s = .ret () { s.moved w s.t0 es with outcome := r } ∧ w.rx = s.rx ∧
      w.script <:+ s.script := by
  unfold settleOutcome
  split
  · exact ⟨s.next 0, [.diag _ _], diag_ret _ _ (State.undisturbed_noReset (State.quiet_undisturbed h)),
      State.quiet_next h 0, s.next_script 0⟩
  · exact ⟨s.world, [], by simp, rfl, List.suffix_refl _⟩

/-- What R191 says a write-verify of the image `sent` leaves by the module's `answer`. -/
def ReportsReadBack (sent : Image) (answer : List Byte) (t : State) : Prop :=
  t.intended = sent ∧ t.rx = [] ∧
    (∀ g extra, answer = 0xC0 :: Image.bytes g ++ extra → t.cfg = g ∧ t.status = if g = sent then 0 else 3) ∧
    (∀ h rest, answer = h :: rest → 5 ≤ rest.length → h ≠ 0xC0 → t.status = 2 ∧ t.cfg = sent) ∧
    (answer.length < 6 → t.status = 1 ∧ t.cfg = sent)

/-- S10 to S14 (`43_write_verify.md` R180) on an answer that has arrived. -/
theorem runSeq_readBack_quiet (l : Label) {s : State} (h : s.quiet) (hw : 3 ≤ s.config.rxCountW)
    (hi : s.intended = s.cfg) :
    ∃ t, runSeq [.parseResponse .cfg none, .drainPost, .compare l, .normalExit, .done] s = .ret () t ∧
      ReportsReadBack s.cfg s.rx t := by
  let a : State := { s with seq := [.parseResponse .cfg none, .drainPost, .compare l, .normalExit, .done] }
  obtain ⟨w1, es1, r, g, e1, q1, hshort, hheader, himage⟩ := parseCfg_quiet (s := a) h hw
  let b : State := { a.moved w1 a.t0 es1 with cfg := g, outcome := r }
  have hparse : runPhase (.parseResponse .cfg none) a = .ret () b := by
    show (parseCfg a).bind _ = _
    rw [e1, Flow.bind_ret, settleOutcome_none]
  let b' : State := { b with seq := [.drainPost, .compare l, .normalExit, .done] }
  obtain ⟨w2, es2, e2, hempty, q2⟩ :=
    drain_quiet (s := b') q1 (Nat.le_trans (by decide : 1 ≤ 3) hw)
  let d : State := b'.moved w2 b'.t0 es2
  let c : State := { d with seq := [.compare l, .normalExit, .done] }
  have hc : c.quiet := q2
  obtain ⟨w3, es3, e3, hrx3, hs3⟩ := settleOutcome_quiet_rx (compareOutcome c) (some l) hc
  obtain ⟨w4, t4, es4, tm, e4, hrx4⟩ := runSeq_exit_quiet
    (s := { c.moved w3 c.t0 es3 with outcome := compareOutcome c }) (State.quiet_of hc hs3 rfl)
  have hcompare : compareOutcome c = if r ≠ .ok then r else if g = s.cfg then .ok else .verificationMismatch := by
    rw [← hi]
    rfl
  refine ⟨_, (runSeq_ret _ _ s hparse).trans ((runSeq_ret .drainPost _ b e2).trans
    ((runSeq_ret (.compare l) _ d e3).trans e4)), hi, hrx4.trans (hrx3.trans hempty), fun img extra hq => ?_,
    fun x rest hq hlen hx => ?_, fun hlen => ?_⟩
  · obtain ⟨rfl, rfl⟩ := himage img extra hq
    refine ⟨rfl, ?_⟩
    show (compareOutcome c).code = _
    rw [hcompare, if_neg (by simp)]
    split <;> rfl
  · obtain ⟨rfl, rfl⟩ := hheader x rest hq hlen hx
    exact ⟨congrArg CmdResult.code hcompare, rfl⟩
  · obtain ⟨rfl, rfl⟩ := hshort hlen
    exact ⟨congrArg CmdResult.code hcompare, rfl⟩

/-- S7 to S14 of a write-verify (`43_write_verify.md` R180). -/
def verifyPhases (l : Label) : List Phase :=
  [.configEnter, .drainPre, .send (.triple .readConfig), .delay .response, .parseResponse .cfg none, .drainPost,
    .compare l, .normalExit, .done]

/-- S7 to S14, when the answer arrives in the settle sleep of the read. -/
theorem runSeq_verify_answered (l : Label) {s : State} {answer : List Byte} (h : s.answeredAfter 7 answer)
    (hrx : s.rx = []) (hw : 3 ≤ s.config.rxCountW) (hi : s.intended = s.cfg) :
    ∃ t, runSeq (verifyPhases l) s = .ret () t ∧ ReportsReadBack s.cfg answer t := by
  obtain ⟨w, t0, q, es, e, hanswer, hq⟩ := runSeq_exchange_answered .readConfig .response
    [.parseResponse .cfg none, .drainPost, .compare l, .normalExit, .done] (s := s) (answer := answer)
    (by simpa [hrx] using h) (Nat.le_trans (by decide : 1 ≤ 3) hw)
  obtain ⟨t, ht, hreport⟩ := runSeq_readBack_quiet l hq hw hi
  exact ⟨t, e.trans ht, hanswer ▸ hreport⟩

/-- WRITE_PERSISTENT: 11 primitives and the first drain before the read. -/
theorem writePersistent_reports {s : State} {answer : List Byte}
    (h : s.answeredAfter (18 + 2 * s.rx.length) answer) (hw : 3 ≤ s.config.rxCountW) :
    ∃ t, exec .writePersistent s = .next t ∧ ReportsReadBack s.cfg answer t := by
  obtain ⟨w, t0, q, es, e, hrx, hn⟩ := runSeq_write_answered .persistent .writePersistent
    (verifyPhases .writePersistent) (s := accept .writePersistent (snapshot s)) (n := 7) h
    (Nat.le_trans (by decide : 1 ≤ 3) hw)
  obtain ⟨t, ht, hreport⟩ := runSeq_verify_answered .writePersistent hn hrx hw rfl
  exact ⟨t, congrArg Flow.toOutcome (e.trans ht), hreport⟩

/-- WRITE_VOLATILE: as WRITE_PERSISTENT, with the three primitives of the barrier S6 (R183). -/
theorem writeVolatile_reports {s : State} {answer : List Byte}
    (h : s.answeredAfter (21 + 2 * s.rx.length) answer) (hw : 3 ≤ s.config.rxCountW) :
    ∃ t, exec .writeVolatile s = .next t ∧ ReportsReadBack s.cfg answer t := by
  obtain ⟨w, t0, q, es, e, hrx, hn⟩ := runSeq_write_answered .volatile .writeVolatile
    (.normalBarrier :: verifyPhases .writeVolatile) (s := accept .writeVolatile (snapshot s)) (n := 10) h
    (Nat.le_trans (by decide : 1 ≤ 3) hw)
  let b : State := { (accept .writeVolatile (snapshot s)).moved w t0 es with m0 := true, seq := q }
  obtain ⟨w1, t1, e1, hrx1, hn1⟩ :=
    modeSwitch_answered false .normal (s := { b with seq := .normalBarrier :: verifyPhases .writeVolatile }) (n := 7) hn
  obtain ⟨t, ht, hreport⟩ := runSeq_verify_answered .writeVolatile hn1 (hrx1.trans hrx) hw rfl
  exact ⟨t, congrArg Flow.toOutcome (e.trans ((runSeq_ret .normalBarrier _ b e1).trans ht)), hreport⟩

/-- Settles O49: by command. -/
theorem writeVerifyReportsTheReadBack : Obligations.WriteVerifyReportsTheReadBack := by
  unfold Obligations.WriteVerifyReportsTheReadBack
  intro s answer i n hin _ h hw
  rcases hin with ⟨rfl, rfl⟩ | ⟨rfl, rfl⟩
  · exact writePersistent_reports h hw
  · exact writeVolatile_reports h hw

end Sys2Proof.Machine
end

section
/-! PROOFS. O60: every read of an operation is covered by a count of the same operation, so the scan that counts the
reads goes through one operation after another. -/

namespace Sys2Proof.Machine

theorem lastCount_append (k : Nat) (a b : List Event) : lastCount k (a ++ b) = lastCount (lastCount k a) b := by
  induction a generalizing k with
  | nil => rfl
  | cons e es ih => cases e <;> exact ih _

/-- A higher count leaves at least as many reads. -/
theorem lastCount_mono {k k' : Nat} (hk : k ≤ k') (es : List Event) : lastCount k es ≤ lastCount k' es := by
  induction es generalizing k k' with
  | nil => exact hk
  | cons e es ih =>
    cases e with
    | avail n => exact Nat.le_refl _
    | rx b => exact ih (Nat.sub_le_sub_right hk 1)
    | _ => exact ih hk

/-- Where `k` reads may come at the start of `x`, all its reads are covered, and `left a` may come after it returned
`a`. -/
def Flow.Counted {α : Type} (x : Flow α) (s : State) (k : Nat) (left : α → Nat) : Prop :=
  x.Sat (fun a t => ∃ es, t.trace = s.trace ++ es ∧ rxCounted k es = true ∧ left a ≤ lastCount k es)
    (fun t => ∃ es, t.trace = s.trace ++ es ∧ rxCounted k es = true) fun _ => True

theorem Flow.Counted.bind {α β : Type} {x : Flow α} {f : α → State → Flow β} {s : State} {k : Nat}
    {left : α → Nat} {left' : β → Nat} (hx : x.Counted s k left)
    (hf : ∀ a t, (f a t).Counted t (left a) left') : (x.bind f).Counted s k left' := by
  refine Flow.Sat.bind hx fun a t ⟨es, hes, hcount, hleft⟩ => (hf a t).mono ?_ ?_ fun _ h => h
  · rintro b u ⟨fs, hfs, hcount', hleft'⟩
    refine ⟨es ++ fs, by rw [hfs, hes, List.append_assoc], ?_, ?_⟩
    · rw [rxCounted_append, hcount, rxCounted_mono hleft hcount', Bool.and_self]
    · rw [lastCount_append]
      exact hleft'.trans (lastCount_mono hleft fs)
  · rintro u ⟨fs, hfs, hcount'⟩
    refine ⟨es ++ fs, by rw [hfs, hes, List.append_assoc], ?_⟩
    rw [rxCounted_append, hcount, rxCounted_mono hleft hcount', Bool.and_self]

theorem Flow.Counted.ret {α : Type} (a : α) {s t : State} (h : t.trace = s.trace) (k : Nat) :
    (Flow.ret a t).Counted s k fun _ => 0 :=
  ⟨[], by simp [h], rfl, Nat.zero_le _⟩

/-- An operation that reads nothing. -/
theorem Flow.Counted.of_noRx {α : Type} {x : Flow α} {ok : Event → Bool} {s : State} {P : α → State → Prop}
    (hx : x.Inside ok s P) (hok : ∀ e, ok e = true → (!e.isRx) = true) (k : Nat) : x.Counted s k fun _ => 0 := by
  refine hx.mono (fun a t ⟨hwithin, _⟩ => ?_) (fun t ⟨u, hwithin, hcut⟩ => ?_) fun _ _ => trivial
  · obtain ⟨es, hes, hall⟩ := hwithin.trace
    exact ⟨es, hes, rxCounted_of_noRx k (all_mono hall hok), Nat.zero_le _⟩
  · obtain ⟨es, hes, hall⟩ := hwithin.trace
    exact ⟨es, by rw [hcut, blockReset_trace, hes], rxCounted_of_noRx k (all_mono hall hok)⟩

theorem rxAvail_counted (k : Nat) (s : State) : (rxAvail s).Counted s k id := by
  rw [rxAvail, advance_eq]
  split
  · exact ⟨[], by simp, rfl⟩
  · exact ⟨[.avail (rxCount (s.moved (s.next 0) s.t0 []))], by simp, rfl, Nat.le_refl _⟩

theorem rxRead_counted {j k : Nat} (h : j < k) (s : State) : (rxRead s).Counted s k fun _ => j := by
  rw [rxRead, advance_eq]
  split
  · exact ⟨[], by simp, rfl⟩
  · rw [Flow.bind_ret]
    split
    · trivial
    · rename_i b _ _
      refine ⟨[.rx b], by simp, ?_, Nat.le_sub_one_of_lt h⟩
      simp [rxCounted]
      omega

theorem drainLoop_counted (fuel : Nat) (s : State) : (drainLoop fuel s).Counted s 0 fun _ => 0 := by
  induction fuel generalizing s with
  | zero => trivial
  | succ fuel ih =>
    refine (rxAvail_counted 0 s).bind fun n t => ?_
    split
    · exact .ret () rfl _
    · rename_i hn
      exact (rxRead_counted (Nat.pos_of_ne_zero hn) t).bind fun _ u => ih u

theorem parse_counted (k : Reply) (s : State) : (parse k s).Counted s 0 fun _ => 0 := by
  cases k with
  | cfg =>
    refine (rxAvail_counted 0 s).bind fun n t => ?_
    split
    · exact .ret _ rfl _
    · refine (rxRead_counted (j := 5) (Nat.not_lt.mp ‹_›) t).bind fun h t => ?_
      split
      · exact .ret _ rfl _
      · exact (rxRead_counted (j := 4) (by omega) t).bind fun _ t => (rxRead_counted (j := 3) (by omega) t).bind
          fun _ t => (rxRead_counted (j := 2) (by omega) t).bind fun _ t =>
          (rxRead_counted (j := 1) (by omega) t).bind fun _ t => (rxRead_counted (j := 0) (by omega) t).bind
          fun _ t => .ret _ rfl _
  | ver =>
    refine (rxAvail_counted 0 s).bind fun n t => ?_
    split
    · exact .ret _ rfl _
    · exact (rxRead_counted (j := 3) (Nat.not_lt.mp ‹_›) t).bind fun _ t =>
        (rxRead_counted (j := 2) (by omega) t).bind fun _ t => (rxRead_counted (j := 1) (by omega) t).bind
        fun _ t => (rxRead_counted (j := 0) (by omega) t).bind fun _ t => .ret _ rfl _
  | rssi =>
    refine (rxAvail_counted 0 s).bind fun n t => ?_
    split
    · exact .ret _ rfl _
    · refine (rxRead_counted (j := 2) (Nat.not_lt.mp ‹_›) t).bind fun h t => ?_
      split
      · exact .ret _ rfl _
      · exact (rxRead_counted (j := 1) (by omega) t).bind fun _ t =>
          (rxRead_counted (j := 0) (by omega) t).bind fun _ t => .ret _ rfl _

theorem settleOutcome_counted (r : CmdResult) (l : Option Label) (s : State) :
    (settleOutcome r l s).Counted s 0 fun _ => 0 := by
  unfold settleOutcome
  split
  · rename_i k l _
    have hdiag := diag_inside (ok := fun e => !e.isRx) k l rfl { s with outcome := r }
    exact Flow.Counted.of_noRx (s := { s with outcome := r }) hdiag (fun _ h => h) 0
  · exact .ret () rfl 0

theorem runPhase_counted (p : Phase) (s : State) : (runPhase p s).Counted s 0 fun _ => 0 := by
  cases p with
  | drainPre | drainPost => exact drainLoop_counted _ s
  | parseResponse k l => exact (parse_counted k s).bind fun r t => settleOutcome_counted r l t
  | compare l => exact settleOutcome_counted _ _ s
  | _ => exact .of_noRx (runPhase_inside _ s) (fun e he => by cases e with | rx b => cases he | _ => rfl) 0

theorem runSeq_counted (ps : List Phase) (s : State) : (runSeq ps s).Counted s 0 fun _ => 0 := by
  induction ps generalizing s with
  | nil => exact .ret () rfl 0
  | cons p ps ih => exact (runPhase_counted p { s with seq := p :: ps }).bind fun _ t => ih t

theorem newEvents_of_append {s t : State} {es : List Event} (h : t.trace = s.trace ++ es) : newEvents s t = es := by
  simp [newEvents, h]

/-- However a run ends, its reads are covered. -/
theorem Flow.Counted.newEvents {x : Flow Unit} {s t : State} {left : Unit → Nat} (hx : x.Counted s 0 left)
    (ht : x.toOutcome = .next t) : rxCounted 0 (newEvents s t) = true := by
  have hcovered : x.Sat (fun _ t => ∃ es, t.trace = s.trace ++ es ∧ rxCounted 0 es = true)
      (fun t => ∃ es, t.trace = s.trace ++ es ∧ rxCounted 0 es = true) fun _ => True :=
    hx.mono (fun _ _ ⟨es, hes, hcount, _⟩ => ⟨es, hes, hcount⟩) (fun _ h => h) fun _ h => h
  obtain ⟨es, hes, hcount⟩ := (Flow.Sat.next hcovered ht).elim id id
  rwa [newEvents_of_append hes]

theorem exec_host_counted {i : Instr} (hi : isHostCommand i = true) {s t : State} (ht : exec i s = .next t) :
    rxCounted 0 (newEvents s t) = true := by
  cases hw : i.wellFormed s.config with
  | false =>
    cases (exec_host_refused hw).symm.trans ht
    rw [newEvents_of_append (refuseWord_trace s)]
    rfl
  | true =>
    rw [exec_host hi hw] at ht
    have hcount := (runSeq_counted (phasesOf i) (accept i (startOf i s))).newEvents ht
    rwa [newEvents, accept_trace, startOf_trace] at hcount

/-- Settles O60, by what the step finds: a command in progress, a word, a reset, or nothing. -/
theorem everyReadFollowsItsCount : Obligations.EveryReadFollowsItsCount := by
  unfold Obligations.EveryReadFollowsItsCount
  intro s t ht
  by_cases hseq : s.seq = []
  · cases hport : s.hostInputs with
    | nil =>
      rw [step_idle hseq hport] at ht
      exact (Flow.Counted.of_noRx (advance_inside (fun e => !e.isRx) 0 s) (fun _ h => h) 0).newEvents ht
    | cons input rest =>
      cases input with
      | reset =>
        cases (step_reset hseq hport).symm.trans ht
        simp [newEvents, rxCounted]
      | word w =>
        cases hd : decodeHost s.config w with
        | none =>
          cases (step_refuse hseq hport hd).symm.trans ht
          simp [newEvents, rxCounted]
        | some i =>
          exact exec_host_counted (s := { s with hostInputs := rest }) (isHostCommand_of_decodeHost hd)
            ((step_run hseq hport hd).symm.trans ht)
  · rw [step_busy hseq] at ht
    exact (runSeq_counted s.seq s).newEvents ht

end Sys2Proof.Machine
end

section
/-! PROOFS. O57: what an operation does up to the first reset its environment brings. It takes ticks off the script, and
each byte that was queued or that a tick brought is taken off the queue by an RX event or still there. -/

namespace Sys2Proof.Machine

/-! ## Going along a script that holds a reset -/

/-- An event that pulses `rsp_valid` (`20_memory.md` R42). -/
def Event.pulses : Event → Bool
  | .done _ | .refused => true
  | _ => false

/-- `t` is reached from `s` over the ticks `ts`, with no `rsp_valid` pulse and no byte lost. -/
def Took (s : State) (ts : List Tick) (t : State) : Prop :=
  s.script = ts ++ t.script ∧ ∃ es, t.trace = s.trace ++ es ∧ es.all (fun e => !e.pulses) = true ∧
    s.rx ++ ts.flatMap Tick.rx = rxStream es ++ t.rx

/-- `t` is reached from `s` before the first reset. -/
def Passes (s t : State) : Prop := ∃ ts, ts.all (fun t => !t.rst) = true ∧ Took s ts t

/-- `t` is what the first reset to come after `s` leaves. -/
def CutAtReset (s t : State) : Prop :=
  ∃ ts mid, ts.all (fun t => !t.rst) = true ∧ mid.rst = true ∧ Took s (ts ++ [mid]) t ∧ t.aux = mid.aux

/-- The script brings a reset. -/
def State.awaitsReset (s : State) : Prop := ∃ t ∈ s.script, t.rst = true

theorem Took.trans {s t u : State} {ts us : List Tick} (a : Took s ts t) (b : Took t us u) : Took s (ts ++ us) u := by
  obtain ⟨hts, es, hes, hquiet, hbytes⟩ := a
  obtain ⟨hus, fs, hfs, hquiet', hbytes'⟩ := b
  refine ⟨by rw [hts, hus, List.append_assoc], es ++ fs, by rw [hfs, hes, List.append_assoc],
    by rw [List.all_append, hquiet, hquiet', Bool.and_self], ?_⟩
  calc s.rx ++ (ts ++ us).flatMap Tick.rx
      = (s.rx ++ ts.flatMap Tick.rx) ++ us.flatMap Tick.rx := by rw [List.flatMap_append, List.append_assoc]
    _ = rxStream es ++ (t.rx ++ us.flatMap Tick.rx) := by rw [hbytes, List.append_assoc]
    _ = rxStream (es ++ fs) ++ u.rx := by simp [hbytes', rxStream]

/-- A change of registers alone. -/
theorem Took.untimed {s t : State} (hscript : t.script = s.script) (htrace : t.trace = s.trace) (hrx : t.rx = s.rx) :
    Took s [] t :=
  ⟨hscript.symm, [], by simp [htrace], rfl, by simp [hrx, rxStream]⟩

/-- An event that is neither a read nor a pulse. -/
theorem Took.event {s t : State} {e : Event} (hscript : t.script = s.script) (htrace : t.trace = s.trace ++ [e])
    (hrx : t.rx = s.rx) (hpulse : e.pulses = false) (hread : e.rxByte = []) : Took s [] t :=
  ⟨hscript.symm, [e], htrace, by simp [hpulse], by simp [hrx, rxStream, hread]⟩

theorem Took.passes {s t : State} (h : Took s [] t) : Passes s t := ⟨[], rfl, h⟩

theorem Passes.trans {s t u : State} (a : Passes s t) (b : Passes t u) : Passes s u := by
  obtain ⟨ts, hts, ha⟩ := a
  obtain ⟨us, hus, hb⟩ := b
  exact ⟨ts ++ us, by rw [List.all_append, hts, hus, Bool.and_self], ha.trans hb⟩

theorem Passes.cutAtReset {s t u : State} (a : Passes s t) (b : CutAtReset t u) : CutAtReset s u := by
  obtain ⟨ts, hts, ha⟩ := a
  obtain ⟨us, mid, hus, hmid, hb, haux⟩ := b
  exact ⟨ts ++ us, mid, by rw [List.all_append, hts, hus, Bool.and_self], hmid,
    List.append_assoc ts us [mid] ▸ ha.trans hb, haux⟩

/-- A reset that was to come still is, until it comes. -/
theorem Passes.awaitsReset {s t : State} (h : Passes s t) (hs : s.awaitsReset) : t.awaitsReset := by
  obtain ⟨ts, hts, hscript, -⟩ := h
  obtain ⟨x, hx, hrst⟩ := hs
  rw [hscript, List.mem_append] at hx
  refine ⟨x, hx.resolve_left fun hin => ?_, hrst⟩
  simpa [hrst] using List.all_eq_true.mp hts x hin

/-- The bytes that are queued or that the script still brings. -/
def State.pending (s : State) : Nat := s.rx.length + scriptBytes s.script

/-- `t` is reached from `s` before the first reset, or ends with Done before it. -/
def EndsBefore (s t : State) : Prop := ∃ ts, ts.all (fun t => !t.rst) = true ∧ s.script = ts ++ t.script

theorem Passes.endsBefore {s t : State} (h : Passes s t) : EndsBefore s t :=
  have ⟨ts, hts, hscript, _⟩ := h
  ⟨ts, hts, hscript⟩

theorem Passes.trans_endsBefore {s t u : State} (a : Passes s t) (b : EndsBefore t u) : EndsBefore s u := by
  obtain ⟨ts, hts, hscript, -⟩ := a
  obtain ⟨us, hus, hscript'⟩ := b
  exact ⟨ts ++ us, by rw [List.all_append, hts, hus, Bool.and_self], by rw [hscript, hscript', List.append_assoc]⟩

/-! ## Operations -/

/-- Where the script brings a reset, `x` returns before it or is cut there. A read of an empty queue is left to
`Flow.Inside`, which excludes it. -/
def Flow.Abandoned {α : Type} (x : Flow α) (s : State) (R : State → State → Prop) : Prop :=
  s.awaitsReset → x.Sat (fun _ t => R s t) (CutAtReset s) (· = .rxReadUnavailable)

/-- One operation after another, with what each returns given its own relation. -/
theorem Flow.Abandoned.bind_of {α β : Type} {x : Flow α} {f : α → State → Flow β} {s : State}
    {R R' : State → State → Prop} (hx : x.Abandoned s R) (hR : ∀ t, R s t → Passes s t)
    (hR' : ∀ t u, Passes s t → R' t u → R' s u) (hf : ∀ a t, R s t → (f a t).Abandoned t R') :
    (x.bind f).Abandoned s R' := fun hs =>
  Flow.Sat.bind (hx hs) fun a t ht =>
    (hf a t ht ((hR t ht).awaitsReset hs)).mono (fun _ u hu => hR' t u (hR t ht) hu)
      (fun _ hu => (hR t ht).cutAtReset hu) fun _ h => h

theorem Flow.Abandoned.bind {α β : Type} {x : Flow α} {f : α → State → Flow β} {s : State}
    (hx : x.Abandoned s Passes) (hf : ∀ a t, (f a t).Abandoned t Passes) : (x.bind f).Abandoned s Passes :=
  hx.bind_of (fun _ => id) (fun _ _ => Passes.trans) fun a t _ => hf a t

theorem Flow.Abandoned.bind_ends {α β : Type} {x : Flow α} {f : α → State → Flow β} {s : State}
    (hx : x.Abandoned s Passes) (hf : ∀ a t, (f a t).Abandoned t EndsBefore) : (x.bind f).Abandoned s EndsBefore :=
  hx.bind_of (R' := EndsBefore) (fun _ => id) (fun _ _ => Passes.trans_endsBefore) fun a t _ => hf a t

theorem Flow.Abandoned.of_took {α : Type} (a : α) {s t : State} (h : Took s [] t) :
    (Flow.ret a t).Abandoned s Passes := fun _ => h.passes

/-- The tick before a primitive. -/
theorem advance_abandoned (ms : Nat) (s : State) : (advance ms s).Abandoned s Passes := by
  rintro ⟨x, hx, -⟩
  unfold advance
  split
  · rename_i hs
    simp [hs] at hx
  · rename_i t ts hs
    have htook (ms : Nat) : Took s [t] (spend t ms s) := by
      rw [spend_eq]
      exact ⟨by simp [hs], [], by simp, rfl, by simp [rxStream]⟩
    split
    · rename_i hr
      exact ⟨[], t, rfl, hr, htook t.dt, by simp [spend_eq]⟩
    · rename_i hr
      exact ⟨[t], by simp [hr], htook _⟩

/-- A primitive that takes nothing off the queue after its tick. -/
theorem primitive_abandoned {α : Type} (ms : Nat) (s : State) {a : State → α} {g : State → State}
    (hg : ∀ t, Took t [] (g t)) : ((advance ms s).bind fun _ t => .ret (a t) (g t)).Abandoned s Passes :=
  (advance_abandoned ms s).bind fun _ t => .of_took _ (hg t)

theorem driveM0_abandoned (l : Bool) (s : State) : (driveM0 l s).Abandoned s Passes :=
  primitive_abandoned 0 s (a := fun _ => ()) fun _ => .event rfl rfl rfl rfl rfl

theorem auxRead_abandoned (s : State) : (auxRead s).Abandoned s Passes :=
  primitive_abandoned 0 s fun _ => .event rfl rfl rfl rfl rfl

theorem sleep_abandoned (n : Nat) (s : State) : (sleep n s).Abandoned s Passes :=
  primitive_abandoned n { s with t0 := s.now } (a := fun _ => ()) fun _ => .event rfl rfl rfl rfl rfl

theorem txByte_abandoned (b : Byte) (s : State) : (txByte b s).Abandoned s Passes :=
  primitive_abandoned 0 s (a := fun _ => ()) fun _ => .event rfl rfl rfl rfl rfl

theorem rxAvail_abandoned (s : State) : (rxAvail s).Abandoned s Passes :=
  primitive_abandoned 0 s fun _ => .event rfl rfl rfl rfl rfl

theorem diag_abandoned (k : DiagKind) (l : Label) (s : State) : (diag k l s).Abandoned s Passes :=
  primitive_abandoned 0 s (a := fun _ => ()) fun _ => .event rfl rfl rfl rfl rfl

/-- `t` is reached from `s` before the first reset, and has one byte less to come. -/
def PassesARead (s t : State) : Prop := Passes s t ∧ t.pending < s.pending

theorem Took.pending_le {s t : State} {ts : List Tick} (h : Took s ts t) : t.pending ≤ s.pending := by
  obtain ⟨hts, es, -, -, hbytes⟩ := h
  have hlen := congrArg List.length hbytes
  simp only [List.length_append, List.length_flatMap] at hlen
  simp only [State.pending, hts, scriptBytes, List.map_append, List.sum_append]
  omega

theorem Passes.pending_le {s t : State} (h : Passes s t) : t.pending ≤ s.pending :=
  have ⟨_, _, htook⟩ := h
  htook.pending_le

theorem rxRead_takes (s : State) : (rxRead s).Abandoned s PassesARead := by
  intro hs
  refine Flow.Sat.bind (advance_abandoned 0 s hs) fun _ t ht => ?_
  split
  · rfl
  · rename_i b bs hrx
    refine ⟨ht.trans (Took.passes ⟨rfl, [.rx b], rfl, rfl, by simp [hrx, rxStream, Event.rxByte]⟩),
      Nat.lt_of_lt_of_le ?_ ht.pending_le⟩
    simp [State.pending, hrx]

theorem rxRead_abandoned (s : State) : (rxRead s).Abandoned s Passes := fun hs =>
  (rxRead_takes s hs).mono (fun _ _ h => h.1) (fun _ h => h) fun _ h => h

theorem txBytes_abandoned (bs : List Byte) (s : State) : (txBytes bs s).Abandoned s Passes := by
  induction bs generalizing s with
  | nil => exact .of_took () (.untimed rfl rfl rfl)
  | cons b bs ih => exact (txByte_abandoned b s).bind fun _ t => ih t

/-! ## Sub-sequences -/

theorem auxTimeout_abandoned (l : Label) (s : State) : (auxTimeout l s).Abandoned s Passes :=
  (diag_abandoned .timeout l s).bind fun _ _ => .of_took () (.untimed rfl rfl rfl)

theorem pollAux_abandoned (l : Label) (n : Nat) (s : State) : (pollAux l n s).Abandoned s Passes := by
  induction n generalizing s with
  | zero =>
    refine (auxRead_abandoned s).bind fun v t => ?_
    split
    · exact .of_took () (.untimed rfl rfl rfl)
    · exact auxTimeout_abandoned l { t with now := t.now + BitVec.ofNat 64 (t.config.auxTimeoutMs - elapsed t) }
  | succ n ih =>
    refine (auxRead_abandoned s).bind fun v t => ?_
    split
    · exact .of_took () (.untimed rfl rfl rfl)
    · split
      · exact auxTimeout_abandoned l t
      · exact ih t

theorem modeSwitch_abandoned (level : Bool) (l : Label) (s : State) :
    ((driveM0 level s).bind fun _ s => (sleep s.config.modeSettleMs s).bind fun _ s => waitAux l s).Abandoned s
      Passes :=
  (driveM0_abandoned level s).bind fun _ t => (sleep_abandoned t.config.modeSettleMs t).bind fun _ u =>
    pollAux_abandoned l u.script.length { u with t0 := u.now }

/-- A drain does not run out of fuel before the reset: until then the module's flood does not begin. -/
theorem drainLoop_abandoned {fuel : Nat} {s : State} (hfuel : s.pending < fuel) :
    (drainLoop fuel s).Abandoned s Passes := by
  induction fuel generalizing s with
  | zero => cases hfuel
  | succ fuel ih =>
    refine (rxAvail_abandoned s).bind_of (fun _ => id) (fun _ _ => Passes.trans) fun n t ht => ?_
    split
    · exact .of_took () (.untimed rfl rfl rfl)
    · refine (rxRead_takes t).bind_of (fun _ => And.left) (fun _ _ => Passes.trans) fun _ u hu => ih ?_
      have hread := hu.2
      have havail := ht.pending_le
      omega

theorem drain_abandoned (s : State) : (drain s).Abandoned s Passes := drainLoop_abandoned (Nat.lt_succ_self _)

theorem parse_abandoned (k : Reply) (s : State) : (parse k s).Abandoned s Passes := by
  cases k with
  | cfg =>
    refine (rxAvail_abandoned s).bind fun n t => ?_
    split
    · exact .of_took _ (.untimed rfl rfl rfl)
    · refine (rxRead_abandoned t).bind fun h t => ?_
      split
      · exact .of_took _ (.untimed rfl rfl rfl)
      · exact (rxRead_abandoned t).bind fun _ t => (rxRead_abandoned t).bind fun _ t => (rxRead_abandoned t).bind
          fun _ t => (rxRead_abandoned t).bind fun _ t => (rxRead_abandoned t).bind
          fun _ t => .of_took _ (.untimed rfl rfl rfl)
  | ver =>
    refine (rxAvail_abandoned s).bind fun n t => ?_
    split
    · exact .of_took _ (.untimed rfl rfl rfl)
    · exact (rxRead_abandoned t).bind fun _ t => (rxRead_abandoned t).bind fun _ t => (rxRead_abandoned t).bind
        fun _ t => (rxRead_abandoned t).bind fun _ t => .of_took _ (.untimed rfl rfl rfl)
  | rssi =>
    refine (rxAvail_abandoned s).bind fun n t => ?_
    split
    · exact .of_took _ (.untimed rfl rfl rfl)
    · refine (rxRead_abandoned t).bind fun h t => ?_
      split
      · exact .of_took _ (.untimed rfl rfl rfl)
      · exact (rxRead_abandoned t).bind fun _ t => (rxRead_abandoned t).bind
          fun _ t => .of_took _ (.untimed rfl rfl rfl)

theorem settleOutcome_abandoned (r : CmdResult) (l : Option Label) (s : State) :
    (settleOutcome r l s).Abandoned s Passes := by
  unfold settleOutcome
  split
  · exact diag_abandoned _ _ { s with outcome := r }
  · exact .of_took () (.untimed rfl rfl rfl)

/-! ## Phases -/

/-- The phase whose event pulses `rsp_valid`. -/
def Phase.isDone : Phase → Bool
  | .done => true
  | _ => false

theorem runPhase_abandoned {p : Phase} (hp : p.isDone = false) (s : State) : (runPhase p s).Abandoned s Passes := by
  cases p with
  | localStep op =>
    refine primitive_abandoned 0 s (a := fun _ => ()) fun t => ?_
    cases op with
    | setField _ _ | setByte _ _ | readRaw => exact .untimed rfl rfl rfl
    | transportBegin _ | printConfig => exact .event rfl rfl rfl rfl rfl
  | configEnter => exact modeSwitch_abandoned true .config s
  | normalBarrier | normalExit => exact modeSwitch_abandoned false .normal s
  | drainPre | drainPost => exact drain_abandoned s
  | send r =>
    cases r with
    | triple op => exact txBytes_abandoned _ s
    | write op => exact txBytes_abandoned _ s
  | delay d => exact sleep_abandoned _ s
  | parseResponse k l => exact (parse_abandoned k s).bind fun r t => settleOutcome_abandoned r l t
  | compare l => exact settleOutcome_abandoned _ _ s
  | done => cases hp

/-- A last phase, whether or not it is Done. -/
theorem runSeq_last_abandoned (p : Phase) (s : State) : (runSeq [p] s).Abandoned s EndsBefore := by
  cases hp : p.isDone with
  | false =>
    exact (runPhase_abandoned hp { s with seq := [p] }).bind_ends
      fun _ _ _ => ⟨[], rfl, rfl⟩
  | true =>
    cases p with
    | done =>
      have hdone : ((advance 0 { s with seq := [.done] }).bind fun _ t =>
          (Flow.ret () (finish t)).bind fun _ u => .ret () (toIdle u)).Abandoned s EndsBefore :=
        (advance_abandoned 0 { s with seq := [.done] }).bind_ends fun _ _ _ => ⟨[], rfl, rfl⟩
      rwa [← Flow.bind_assoc] at hdone
    | _ => cases hp

/-- Phases with Done at most at their end. -/
theorem runSeq_abandoned {ps : List Phase} (hps : ps.dropLast.all (fun p => !p.isDone) = true) (s : State) :
    (runSeq ps s).Abandoned s EndsBefore := by
  induction ps generalizing s with
  | nil => exact fun _ => ⟨[], rfl, rfl⟩
  | cons p ps ih =>
    cases ps with
    | nil => exact runSeq_last_abandoned p s
    | cons q qs =>
      simp only [List.dropLast_cons_cons, List.all_cons, Bool.and_eq_true, Bool.not_eq_true'] at hps
      exact (runPhase_abandoned hps.1 { s with seq := p :: q :: qs }).bind_ends
        fun _ t => ih hps.2 t

/-! ## From the end of a run to the obligation -/

/-- Two lists that go on with their first reset are the same list. -/
theorem first_reset_unique {pre ts post rest : List Tick} {mid x : Tick}
    (h : pre ++ mid :: post = ts ++ x :: rest) (hpre : pre.all (fun t => !t.rst) = true) (hmid : mid.rst = true)
    (hts : ts.all (fun t => !t.rst) = true) (hx : x.rst = true) : pre = ts ∧ mid = x ∧ post = rest := by
  induction pre generalizing ts with
  | nil =>
    cases ts with
    | nil => simpa using h
    | cons t ts =>
      obtain ⟨rfl, -⟩ := List.cons.inj h
      simp [hmid] at hts
  | cons p pre ih =>
    cases ts with
    | nil =>
      obtain ⟨rfl, -⟩ := List.cons.inj h
      simp [hx] at hpre
    | cons t ts =>
      simp only [List.all_cons, Bool.and_eq_true] at hpre hts
      obtain ⟨rfl, htail⟩ := List.cons.inj h
      obtain ⟨rfl, rfl, rfl⟩ := ih htail hpre.2 hts.2
      exact ⟨rfl, rfl, rfl⟩

theorem first_reset_to_come {pre ts post rest : List Tick} {mid : Tick} (h : pre ++ mid :: post = ts ++ rest)
    (hmid : mid.rst = true) (hts : ts.all (fun t => !t.rst) = true) :
    ts.length ≤ pre.length ∧ rest = pre.drop ts.length ++ mid :: post := by
  obtain ⟨as, rfl, has⟩ | ⟨bs, rfl, hbs⟩ := List.append_eq_append_iff.mp h
  · cases as with
    | nil => simp_all
    | cons a as =>
      cases has
      simp [hmid] at hts
  · simp [hbs]

theorem response_eq_none {s t : State} {es : List Event} (h : t.trace = s.trace ++ es)
    (hquiet : es.all (fun e => !e.pulses) = true) : response s t = none := by
  rw [response, newEvents_of_append h]
  cases hlast : es.getLast? with
  | none => rfl
  | some e =>
    have he : (!e.pulses) = true := List.all_eq_true.mp hquiet e (List.mem_of_getLast? hlast)
    cases e with
    | done r => cases he
    | refused => cases he
    | _ => rfl

/-- What O57 says of the outcome `o` of an instruction that starts from `s` with `queue` to read. -/
def AbandonedAtReset (s : State) (queue : List Byte) (o : Host.Outcome State Fault Refusal) : Prop :=
  ∀ (pre : List Tick) (mid : Tick) (post : List Tick), s.script = pre ++ mid :: post →
    pre.all (fun t => !t.rst) = true → mid.rst = true →
    (∃ t rx now es, o = .next t ∧
        t = { State.reset with
          rx := rx, aux := mid.aux, now := now, script := post, flood := s.flood
          hostInputs := s.hostInputs, trace := s.trace ++ es, config := s.config } ∧
        queue ++ (pre ++ [mid]).flatMap Tick.rx = rxStream es ++ rx ∧
        (∀ r, .done r ∉ es) ∧ response s t = none) ∨
    (∃ t k, o = .next t ∧ k ≤ pre.length ∧ t.script = pre.drop k ++ mid :: post)

/-- An operation in a command: `Flow.Inside` says what a cut leaves of the registers, `Flow.Abandoned` what it leaves
of the script, the queue and the trace; and between them they leave no fault. -/
theorem Flow.Abandoned.atReset {x : Flow Unit} {s : State} {ok : Event → Bool} {P : Unit → State → Prop}
    (hx : x.Abandoned s EndsBefore) (hinside : x.Inside ok s P) : AbandonedAtReset s s.rx x.toOutcome := by
  intro pre mid post hs hpre hmid
  have hends := hx ⟨mid, by simp [hs], hmid⟩
  cases x with
  | ret a t =>
    obtain ⟨ts, hts, hscript⟩ := hends
    obtain ⟨hle, hrest⟩ := first_reset_to_come (hs.symm.trans hscript) hmid hts
    exact .inr ⟨t, ts.length, rfl, hle, hrest⟩
  | cut t =>
    obtain ⟨ts, y, hts, hy, ⟨hscript, es, htrace, hquiet, hbytes⟩, haux⟩ := hends
    obtain ⟨u, hwithin, rfl⟩ := hinside
    obtain ⟨rfl, rfl, hpost⟩ :=
      first_reset_unique (hs.symm.trans (by simpa using hscript)) hpre hmid hts hy
    refine .inl ⟨_, u.rx, u.now, es, rfl, ?_, hbytes, fun r hr => ?_, response_eq_none htrace hquiet⟩
    · simp only [blockReset_trace, blockReset_aux] at hpost htrace haux
      rw [blockReset, ← hwithin.flood, ← hwithin.hostInputs, ← hwithin.config, ← htrace, hpost, ← haux]
    · simpa [Event.pulses] using List.all_eq_true.mp hquiet _ hr
  | halt r =>
    have hdrain : r = .drainNeverReturns := hinside.1
    cases hdrain.symm.trans hends

/-! ## Instructions -/

theorem runSeq_atReset {ps : List Phase} (hps : ps.dropLast.all (fun p => !p.isDone) = true) (s : State) :
    AbandonedAtReset s s.rx (runSeq ps s).toOutcome :=
  (runSeq_abandoned hps s).atReset (runSeq_inside ps s)

theorem runWriteFrame_atReset (op : WriteOp) (g : Image) (s : State) :
    AbandonedAtReset s s.rx (runWriteFrame op g s) := by
  have hsend := txBytes_abandoned (op.code :: g.bytes) { s with seq := [.send (.write op)] }
  have hinside := txBytes_inside (ok := fun _ => true) (fun _ => rfl) (op.code :: g.bytes)
    { s with seq := [.send (.write op)] }
  exact Flow.Abandoned.atReset (s := { s with seq := [.send (.write op)] }) (P := fun _ _ => True)
    (hsend.bind_ends fun _ _ _ => ⟨[], rfl, rfl⟩)
    (hinside.bind fun _ t _ _ => ⟨⟨rfl, rfl, rfl, id, [], by simp, rfl⟩, trivial⟩)

theorem phasesOf_dropLast_notDone (i : Instr) : (phasesOf i).dropLast.all (fun p => !p.isDone) = true := by
  cases i <;> rfl

theorem refuseWord_atReset (queue : List Byte) (s : State) : AbandonedAtReset s queue (.next (refuseWord s)) :=
  fun _ _ _ hs _ _ => .inr ⟨_, 0, rfl, Nat.zero_le _, hs⟩

theorem exec_host_atReset {i : Instr} (hi : isHostCommand i = true) (s : State) :
    AbandonedAtReset s s.rx (exec i s) := by
  cases hw : i.wellFormed s.config with
  | false =>
    rw [exec_host_refused hw]
    exact refuseWord_atReset s.rx s
  | true =>
    have hrun := runSeq_atReset (phasesOf_dropLast_notDone i) (accept i (startOf i s))
    rw [exec_host hi hw]
    revert hrun
    unfold startOf
    cases takesSnapshot i <;> exact id

theorem exec_atReset (i : Instr) (s : State) : AbandonedAtReset s (placedBytes i ++ s.rx) (exec i s) := by
  cases i with
  | reqReadConfig | reqReadVersion | reqReset | reqReadRssi => exact runSeq_atReset rfl s
  | reqWritePersistent g | reqWriteVolatile g => exact runWriteFrame_atReset _ g s
  | rspCfg g => exact runSeq_atReset (ps := [.parseResponse .cfg none]) rfl { s with rx := 0xC0 :: g.bytes ++ s.rx }
  | rspVer v => exact runSeq_atReset (ps := [.parseResponse .ver none]) rfl { s with rx := v.bytes ++ s.rx }
  | rspRssi r n => exact runSeq_atReset (ps := [.parseResponse .rssi none]) rfl { s with rx := [0xC5, r, n] ++ s.rx }
  | _ => exact exec_host_atReset rfl s

/-- Settles O57: every row, whether or not BEGIN was issued. -/
theorem resetAbandonsEveryInstruction : Obligations.ResetAbandonsEveryInstruction := by
  unfold Obligations.ResetAbandonsEveryInstruction
  intro i s pre mid post _ hs hpre hmid
  exact exec_atReset i s pre mid post hs hpre hmid

end Sys2Proof.Machine
end

section
/-! PROOFS. O2, O6: the decoder against the encoder, channel by channel, and the words no instruction has. -/

namespace Sys2Proof

/-- A command word with the code `k` is that code with its operand. -/
theorem hostWord_of_code {w : HostWord} {k : Nat} (hk : (codeOf w).toNat = k) :
    hostWord (BitVec.ofNat 8 k) (argOf w) = w := by
  rw [← hk, BitVec.ofNat_toNat, BitVec.setWidth_eq, hostWord_code_arg]

/-- What is read from a word is the command that has this word, and the block has it (`30_encoding.md` R90). -/
def ReadsWord (c : Config) (w : HostWord) (i : Instr) : Prop := encode i = .host w ∧ i.wellFormed c = true

theorem readsWord_of_noOperand {c : Config} {w : HostWord} {k : Nat} {i j : Instr} (hk : (codeOf w).toNat = k)
    (hj : ReadsWord c (hostWord (BitVec.ofNat 8 k) 0) j) (h : noOperand (argOf w) j = some i) : ReadsWord c w i := by
  obtain ⟨harg, rfl⟩ := (noOperand_eq_some _ _ _).mp h
  rwa [← hostWord_of_code hk, harg]

theorem readsWord_of_operand {c : Config} {w : HostWord} {k n : Nat} {f : BitVec n → Instr} {i : Instr}
    (hk : (codeOf w).toNat = k) (hn : n ≤ 32)
    (hf : ∀ v, ReadsWord c (hostWord (BitVec.ofNat 8 k) (v.setWidth 32)) (f v))
    (h : (operand n (argOf w)).map f = some i) : ReadsWord c w i := by
  obtain ⟨v, harg, rfl⟩ := (mapOperand_eq_some n hn _ f i).mp h
  rw [← hostWord_of_code hk, ← harg]
  exact hf v

/-- A word that decodes is the word of what it decodes to: by its code (`30_encoding.md` R86). -/
theorem readsWord_of_decodeHost {c : Config} {w : HostWord} {i : Instr} (h : decodeHost c w = some i) :
    ReadsWord c w i := by
  unfold decodeHost at h
  split at h
  case h_1 hk =>
    obtain ⟨hfit, hi⟩ := Option.ite_none_right_eq_some.mp h
    cases hi
    exact ⟨congrArg Frame.host (hostWord_of_code hk), hfit⟩
  case h_2 hk | h_3 hk | h_16 hk | h_17 hk | h_18 hk | h_19 hk | h_20 hk | h_21 hk | h_22 hk =>
    exact readsWord_of_noOperand hk ⟨rfl, rfl⟩ h
  case h_23 hk =>
    obtain ⟨hprint, h⟩ := Option.ite_none_right_eq_some.mp h
    exact readsWord_of_noOperand (j := .printConfig) hk ⟨rfl, hprint⟩ h
  case h_4 hk | h_5 hk | h_6 hk | h_7 hk | h_8 hk | h_9 hk | h_10 hk | h_11 hk | h_12 hk | h_13 hk | h_14 hk
    | h_15 hk => exact readsWord_of_operand hk (by decide) (fun _ => ⟨rfl, rfl⟩) h
  case h_24 => cases h

/-- A byte sequence that decodes as a request is the one the request is sent as (`30_encoding.md` R73, R74). -/
theorem encode_of_decodeRequest {bs : List Byte} {i : Instr} (h : decodeRequest bs = some i) :
    encode i = .request bs := by
  unfold decodeRequest at h
  split at h
  · obtain ⟨⟨rfl, rfl⟩, h⟩ := Option.ite_none_right_eq_some.mp h
    split_ifs at h with h1 h3 h4 h5 <;> cases h <;> subst_vars <;> rfl
  · split_ifs at h with h0 h2 <;> cases h <;> subst_vars <;> rfl
  · cases h

/-- A byte sequence that decodes as a response is the one the response is received as (`30_encoding.md` R75). -/
theorem encode_of_decodeResponse {bs : List Byte} {i : Instr} (h : decodeResponse bs = some i) :
    encode i = .response bs := by
  unfold decodeResponse at h
  split at h
  · obtain ⟨rfl, h⟩ := Option.ite_none_right_eq_some.mp h
    cases h
    rfl
  · cases h
    rfl
  · obtain ⟨rfl, h⟩ := Option.ite_none_right_eq_some.mp h
    cases h
    rfl
  · cases h

theorem wellFormed_of_wire {c : Config} {i : Instr} (h : Machine.isHostCommand i = false) :
    i.wellFormed c = true := by
  cases i with
  | begin _ | printConfig => cases h
  | _ => rfl

/-- Only the encoding of an instruction the block has decodes to it. -/
theorem encode_of_decode {c : Config} {f : Frame} {i : Instr} (h : decode c f = some i) :
    encode i = f ∧ i.wellFormed c = true := by
  cases f with
  | host w => exact readsWord_of_decodeHost h
  | request bs =>
    have hf := encode_of_decodeRequest h
    exact ⟨hf, wellFormed_of_wire (by rw [Machine.isHostCommand, hf])⟩
  | response bs =>
    have hf := encode_of_decodeResponse h
    exact ⟨hf, wellFormed_of_wire (by rw [Machine.isHostCommand, hf])⟩

/-- An operand of its row's width is read back from the word it was put in. -/
theorem operand_setWidth {n : Nat} (hn : n ≤ 32) (v : BitVec n) : operand n (v.setWidth 32) = some v :=
  (operand_eq_some n hn _ v).mpr rfl

/-- The encoding of an instruction the block has decodes to it. -/
theorem decode_encode {c : Config} {i : Instr} (h : i.wellFormed c = true) : decode c (encode i) = some i := by
  cases i with
  | reqReadConfig | reqReadVersion | reqReset | reqReadRssi | reqWritePersistent _ | reqWriteVolatile _
  | rspCfg _ | rspVer _ | rspRssi _ _ => rfl
  | begin b =>
    change baudFits c b = true at h
    simp [decode, encode, decodeHost, beginOperand, h]
  | printConfig =>
    change c.hasDiagDecode = true at h
    simp [decode, encode, decodeHost, printOperand, noOperand, h]
  | setFhsId _ | setFhssNums _ | setParity _ | setBaud _ | setAirRate _ | setChannel _ | setPower _ | setFec _
  | setPullup _ | setIoMode _ | setSped _ | setOption _ =>
    simp [decode, encode, decodeHost, operand_setWidth]
  | _ => simp [decode, encode, decodeHost, noOperand]

/-- Settles O2: both directions, by the channel of the frame and by the instruction. -/
theorem decodeInvertsEncode : Obligations.DecodeInvertsEncode := by
  unfold Obligations.DecodeInvertsEncode
  refine fun c f i => ⟨encode_of_decode, ?_⟩
  rintro ⟨rfl, h⟩
  exact decode_encode h

end Sys2Proof

namespace Sys2Proof.Machine

/-- Settles O6: a word that is no encoding does not decode, and is refused. -/
theorem refusedWordChangesNothing : Obligations.RefusedWordChangesNothing := by
  unfold Obligations.RefusedWordChangesNothing
  intro s w rest hseq hport hno
  have hd : decodeHost s.config w = none := Option.eq_none_iff_forall_ne_some.mpr fun i hi => by
    obtain ⟨hw, hhas⟩ := readsWord_of_decodeHost hi
    exact absurd hhas (by simp [hno i hw])
  exact ⟨_, s.resultValid, step_refuse hseq hport hd, rfl, by simp [response, newEvents]⟩

end Sys2Proof.Machine
end

section
/-! PROOFS. O23, O25, O26: field setters one after another. -/

namespace Sys2Proof.Machine

/-- The environment at the end of a command of the phases Local and Done that no reset cuts. -/
def State.afterLocal (s : State) : World := (s.moved (s.next 0) s.t0 []).next 0

/-- What the environment does in a field setter depends neither on the setter nor on the image. -/
theorem exec_setter_afterLocal {i : Instr} {f : Field} {v : Byte} (hi : setterOf i = some (f, v)) {s : State}
    (hs : s.noReset = true) :
    exec i s = .next (State.completedOk s.afterLocal { s with cfg := fieldSet s.cfg f v }) := by
  have hrun : exec i s = runCommand i [.localStep (.setField f v), .done] s := by
    cases i <;> cases hi <;> rfl
  let a : State := { accept i s with seq := [.localStep (.setField f v), .done] }
  let b : State := { a.moved (a.next 0) a.t0 [] with cfg := fieldSet s.cfg f v }
  have hlocal : runPhase (.localStep (.setField f v)) a = .ret () b := by
    rw [runPhase, advance_ret 0 (s := a) hs]
    rfl
  have hworld : b.next 0 = s.afterLocal := rfl
  have hb : b.noReset = true := s.noReset_moved hs (s.next_script 0) s.t0 []
  rw [hrun, runCommand, runSeq_ret (.localStep (.setField f v)) [.done] (accept i s) hlocal, runSeq_done hb,
    hworld, Flow.toOutcome_ret]
  simp [b, a, State.completedOk, State.moved, CmdResult.code]

theorem State.noReset_completedOk {s : State} (h : s.noReset = true) (g : Image) :
    (State.completedOk s.afterLocal { s with cfg := g }).noReset = true :=
  s.noReset_moved h ((State.next_script 0 _).trans (s.next_script 0)) s.t0 []

/-- `s` after two field setters that left the image `g`. -/
def State.afterTwoSetters (s : State) (g : Image) : State :=
  let t := s.completedOk s.afterLocal
  State.completedOk t.afterLocal { t with cfg := g }

theorem execAll_two_setters {i j : Instr} {f f' : Field} {v v' : Byte} (hi : setterOf i = some (f, v))
    (hj : setterOf j = some (f', v')) {s : State} (hs : s.noReset = true) :
    execAll [i, j] s = .next (s.afterTwoSetters (fieldSet (fieldSet s.cfg f v) f' v')) := by
  simp only [execAll, exec_setter_afterLocal hi hs,
    exec_setter_afterLocal hj (s.noReset_completedOk hs (fieldSet s.cfg f v))]
  rfl

/-- Settles O23: in either order the same two field insertions. -/
theorem settersOfDifferentFieldsCommute : Obligations.SettersOfDifferentFieldsCommute := by
  unfold Obligations.SettersOfDifferentFieldsCommute
  intro i j f f' v v' s hs hi hj hne
  exact ⟨_, execAll_two_setters hi hj hs, by rw [execAll_two_setters hj hi hs, fieldSet_comm s.cfg hne]⟩

/-- Settles O25: writing back what a field holds gives the same image. -/
theorem settingTheCurrentValueChangesNothing : Obligations.SettingTheCurrentValueChangesNothing := by
  unfold Obligations.SettingTheCurrentValueChangesNothing
  intro i f v s hs hi hv
  obtain ⟨w, hrx, -, hw⟩ := exec_setter hs
  refine ⟨w, ?_, hrx⟩
  rw [hw hi, ← hv, fieldSet_get]

/-- The image after field insertions one after another. -/
def fieldSets (g : Image) (fs : List (Field × Byte)) : Image := fs.foldl (fun g p => fieldSet g p.1 p.2) g

/-- Field setters one after another insert their operands in that order (`30_encoding.md` R88). -/
theorem execAll_setters {is : List Instr} {fs : List (Field × Byte)} (h : is.map setterOf = fs.map some) {s : State}
    (hs : s.noReset = true) : ∃ t, execAll is s = .next t ∧ t.cfg = fieldSets s.cfg fs := by
  induction is generalizing fs s with
  | nil =>
    obtain rfl : fs = [] := by simpa using h.symm
    exact ⟨s, rfl, rfl⟩
  | cons i is ih =>
    cases fs with
    | nil => cases h
    | cons p fs =>
      obtain ⟨hi, his⟩ := List.cons.inj h
      obtain ⟨t, ht, hcfg⟩ := ih his (s.noReset_completedOk hs (fieldSet s.cfg p.1 p.2))
      exact ⟨t, by rw [execAll, exec_setter_afterLocal hi hs]; exact ht, hcfg⟩

/-- SPED is its three fields (`30_encoding.md` R78). -/
theorem fieldInsert_sped (old : Byte) (parity : BitVec 2) (baud air : BitVec 3) :
    fieldInsert .airRate (fieldInsert .baudIndex (fieldInsert .parity old (parity.setWidth 8)) (baud.setWidth 8))
      (air.setWidth 8) = parity ++ baud ++ air := by
  apply BitVec.eq_of_getLsbD_eq
  intro k hk
  simp only [fieldInsert_getLsbD, fieldLo, fieldWidth, BitVec.getLsbD_append, BitVec.getLsbD_setWidth]
  interval_cases k <;> simp

/-- OPTION with its FEC and power fields written (`30_encoding.md` R80). -/
theorem fieldInsert_option (old : Byte) (power : BitVec 2) (fec : BitVec 1) :
    fieldInsert .fec (fieldInsert .power old (power.setWidth 8)) (fec.setWidth 8) =
      old.extractLsb' 3 5 ++ fec ++ power := by
  apply BitVec.eq_of_getLsbD_eq
  intro k hk
  simp only [fieldInsert_getLsbD, fieldLo, fieldWidth, BitVec.getLsbD_append, BitVec.getLsbD_setWidth,
    BitVec.getLsbD_extractLsb']
  interval_cases k <;> simp

/-- Settles O26: the eight insertions write the whole bytes, the fields of SPED, and two fields of OPTION. -/
theorem configurePacksTheImage : Obligations.ConfigurePacksTheImage := by
  unfold Obligations.ConfigurePacksTheImage
  intro s fhs nums parity baud air chan power fec hs
  obtain ⟨t, ht, hcfg⟩ := execAll_setters (is := configure fhs nums parity baud air chan power fec)
    (fs := [(.fhsId, fhs), (.fhssNums, nums), (.parity, parity.setWidth 8), (.baudIndex, baud.setWidth 8),
      (.airRate, air.setWidth 8), (.channel, chan), (.power, power.setWidth 8), (.fec, fec.setWidth 8)]) rfl hs
  refine ⟨t, ht, hcfg.trans ?_⟩
  rw [← fieldInsert_sped s.cfg.sped, ← fieldInsert_option]
  simp [fieldSets, fieldSet, fieldIndex, imageGet, imageSet, fieldInsert_byte .fhsId rfl,
    fieldInsert_byte .fhssNums rfl, fieldInsert_byte .channel rfl]

end Sys2Proof.Machine
end

section
/-! PROOFS. O28, O38, O39: PRINT_CONFIG, and the response rows. -/

namespace Sys2Proof.Machine

/-- PRINT_CONFIG's word needs HAS_DIAG_DECODE (`30_encoding.md` R90 (a)). -/
theorem decode_printWord_absent {c : Config} (h : c.hasDiagDecode = false) :
    decode c (.host 0x3000000000#40) = none := by
  change decodeHost c (hostWord 0x30 0) = none
  simp [decodeHost, printOperand, h]

/-- Settles O28: the step of Local is the print; a block without it refuses the command. -/
theorem printConfigEmitsTheDecode : Obligations.PrintConfigEmitsTheDecode := by
  unfold Obligations.PrintConfigEmitsTheDecode
  refine fun s hs => ⟨fun hprint => ?_, fun hprint => ?_⟩
  · obtain ⟨w, hrx, -, hw⟩ := runCommand_local hs
    exact ⟨w, (exec_host (i := .printConfig) rfl hprint).trans (hw .printConfig .printConfig), hrx⟩
  · exact ⟨decode_printWord_absent hprint, s.resultValid, exec_host_refused hprint⟩

/-- The state in which a response row parses the frame it places (log entry 3). -/
def withFrame (k : Reply) (frame : List Byte) (s : State) : State :=
  { s with rx := frame ++ s.rx, seq := [.parseResponse k none] }

/-- A response row whose parse succeeds leaves what the parse leaves, in Idle. -/
theorem runResponse_ok {k : Reply} {frame : List Byte} {s t : State} (h : parse k (withFrame k frame s) = .ret .ok t) :
    runResponse k frame s = .next { t with outcome := .ok, seq := [], op := none } := by
  have hphase : runPhase (.parseResponse k none) (withFrame k frame s) = .ret () { t with outcome := .ok } := by
    rw [runPhase, parseResponse, h, Flow.bind_ret, settleOutcome_none]
  exact congrArg Flow.toOutcome (runSeq_ret _ [] { s with rx := frame ++ s.rx } hphase)

/-- The frame a response row places is counted in full, as the count port has three bits (`20_memory.md` R47). -/
theorem withFrame_nextCount (k : Reply) {frame : List Byte} {s : State} (hlen : frame.length ≤ 7)
    (hw : 3 ≤ s.config.rxCountW) : frame.length ≤ (withFrame k frame s).nextCount := by
  have hpow : 2 ^ 3 ≤ 2 ^ s.config.rxCountW := Nat.pow_le_pow_right (by decide) hw
  simp only [State.nextCount, withFrame, List.length_append]
  omega

theorem withFrame_nextQueue (k : Reply) (frame : List Byte) (s : State) :
    frame ++ s.rx <+: (withFrame k frame s).nextQueue :=
  List.prefix_append _ _

/-- Settles O38: PARSE_CFG of the frame at the head of the queue. -/
theorem configResponseBecomesTheImage : Obligations.ConfigResponseBecomesTheImage := by
  unfold Obligations.ConfigResponseBecomesTheImage
  intro s g _ hs hcount
  have hn := withFrame_nextCount .cfg (frame := 0xC0 :: g.bytes) (by simp [Image.bytes]) hcount
  obtain ⟨w, hparse, -, hrx⟩ := parseCfg_ok (s := withFrame .cfg (0xC0 :: g.bytes) s) hs (Nat.not_lt.mpr hn)
    (withFrame_nextQueue .cfg _ s)
  exact ⟨w, _, runResponse_ok (k := .cfg) hparse, hn, hrx⟩

/-- Settles O39: PARSE_VER and PARSE_RSSI of the frame at the head of the queue. -/
theorem versionAndRssiResponsesAreStored : Obligations.VersionAndRssiResponsesAreStored := by
  unfold Obligations.VersionAndRssiResponsesAreStored
  refine fun s _ hs hcount => ⟨fun v => ?_, fun r noise => ?_⟩
  · have hn := withFrame_nextCount .ver (frame := v.bytes) (by simp [Version.bytes]) hcount
    obtain ⟨w, hparse, -, hrx⟩ := parseVer_ok (s := withFrame .ver v.bytes s) hs (Nat.not_lt.mpr hn)
      (withFrame_nextQueue .ver _ s)
    exact ⟨w, _, runResponse_ok (k := .ver) hparse, hn, hrx⟩
  · have hn := withFrame_nextCount .rssi (frame := [0xC5, r, noise]) (by simp) hcount
    obtain ⟨w, hparse, -, hrx⟩ := parseRssi_ok (s := withFrame .rssi [0xC5, r, noise] s) hs (Nat.not_lt.mpr hn)
      (withFrame_nextQueue .rssi _ s)
    exact ⟨w, _, runResponse_ok (k := .rssi) hparse, hn, hrx⟩

end Sys2Proof.Machine
end

section
/-! PROOFS. O24, O16 to O20: the register accessors one by one, with their command words. -/

namespace Sys2Proof

/-- A command word written out as its row's code, zeros and its operand decodes to the command of the row. -/
theorem decode_zeros {c : Config} {i : Instr} {code : Byte} {m n : Nat} {v : BitVec n} (h : 8 + m + n = 40)
    (henc : encode i = .host (hostWord code (v.setWidth 32))) (hwf : i.wellFormed c = true) :
    decode c (.host (BitVec.cast h (code ++ 0#m ++ v))) = some i := by
  rw [hostWord_zeros, ← henc]
  exact decode_encode hwf

end Sys2Proof

namespace Sys2Proof.Machine

/-- Settles O24: the second insertion writes over the first. -/
theorem lastValueOfAFieldStands : Obligations.LastValueOfAFieldStands := by
  unfold Obligations.LastValueOfAFieldStands
  intro i j f v v' s hs hi hj
  exact ⟨_, _, execAll_two_setters hi hj hs, exec_setter_afterLocal hj hs, fieldSet_set s.cfg f v v'⟩

/-- A field that is a whole byte is written as that byte. -/
theorem fieldSet_byte {f : Field} (hf : fieldWidth f = 8) (g : Image) (v : Byte) :
    fieldSet g f v = imageSet g (fieldIndex f) v := by
  rw [fieldSet, fieldInsert_byte f hf]

/-- A setter of a whole byte stores its operand there; the environment does the same in all of them. -/
theorem exec_byteSetter {s : State} (hs : s.noReset = true) :
    ∃ w, s.rx <+: w.rx ∧ ∀ {i : Instr} {f : Field} {v : Byte}, setterOf i = some (f, v) → fieldWidth f = 8 →
      exec i s = .next (State.completedOk w { s with cfg := imageSet s.cfg (fieldIndex f) v }) := by
  obtain ⟨w, hrx, -, hw⟩ := exec_setter hs
  exact ⟨w, hrx, fun hi hf => fieldSet_byte hf s.cfg _ ▸ hw hi⟩

/-- Settles O16: the three rows of a whole-byte field. -/
theorem wholeByteSettersStoreTheirOperand : Obligations.WholeByteSettersStoreTheirOperand := by
  unfold Obligations.WholeByteSettersStoreTheirOperand
  intro s hs
  obtain ⟨w, hrx, hw⟩ := exec_byteSetter hs
  refine ⟨w, hrx, fun v => ⟨?_, ?_, ?_, ?_, ?_, ?_⟩⟩
  · exact decode_zeros rfl rfl rfl
  · exact hw (f := .fhsId) rfl rfl
  · exact decode_zeros rfl rfl rfl
  · exact hw (f := .fhssNums) rfl rfl
  · exact decode_zeros rfl rfl rfl
  · exact hw (f := .channel) rfl rfl

/-- The pseudocode of a field setter: it keeps the bits `keep` of its byte and puts `placed` in the others (R81). The
environment does the same in all of them. -/
theorem exec_setter_pseudocode {s : State} (hs : s.noReset = true) :
    ∃ w, s.rx <+: w.rx ∧ ∀ {i : Instr} {f : Field} {v keep placed : Byte}, setterOf i = some (f, v) →
      ~~~fieldMask f = keep → v <<< fieldLo f = placed →
      exec i s = .next (State.completedOk w { s with
        cfg := imageSet s.cfg (fieldIndex f) ((imageGet s.cfg (fieldIndex f) &&& keep) ||| placed) }) := by
  obtain ⟨w, hrx, -, hw⟩ := exec_setter hs
  refine ⟨w, hrx, fun hi hkeep hplaced => ?_⟩
  rw [hw hi, fieldSet, fieldInsert_or _ _ _ (setterOf_lt hi), hkeep, hplaced]

/-- Settles O17: the three fields of SPED. -/
theorem spedFieldSettersReadModifyWrite : Obligations.SpedFieldSettersReadModifyWrite := by
  unfold Obligations.SpedFieldSettersReadModifyWrite
  intro s hs
  obtain ⟨w, hrx, hw⟩ := exec_setter_pseudocode hs
  refine ⟨w, hrx, fun v => ⟨?_, ?_⟩, fun v => ⟨?_, ?_⟩, fun v => ⟨?_, ?_⟩⟩
  · exact decode_zeros rfl rfl rfl
  · exact hw (f := .parity) rfl (by decide) rfl
  · exact decode_zeros rfl rfl rfl
  · exact hw (f := .baudIndex) rfl (by decide) rfl
  · exact decode_zeros rfl rfl rfl
  · exact hw (f := .airRate) rfl (by decide) (BitVec.shiftLeft_zero _)

/-- Settles O18: the four named fields of OPTION. -/
theorem optionFieldSettersReadModifyWrite : Obligations.OptionFieldSettersReadModifyWrite := by
  unfold Obligations.OptionFieldSettersReadModifyWrite
  intro s hs
  obtain ⟨w, hrx, hw⟩ := exec_setter_pseudocode hs
  refine ⟨w, hrx, fun v => ⟨?_, ?_⟩, fun v => ⟨?_, ?_⟩, fun v => ⟨?_, ?_⟩, fun v => ⟨?_, ?_⟩⟩
  · exact decode_zeros rfl rfl rfl
  · exact hw (f := .power) rfl (by decide) (BitVec.shiftLeft_zero _)
  · exact decode_zeros rfl rfl rfl
  · exact hw (f := .fec) rfl (by decide) rfl
  · exact decode_zeros rfl rfl rfl
  · exact hw (f := .pullup) rfl (by decide) rfl
  · exact decode_zeros rfl rfl rfl
  · exact hw (f := .ioMode) rfl (by decide) rfl

/-- Settles O19: the step of Local stores the byte whole. -/
theorem overridesReplaceTheWholeByte : Obligations.OverridesReplaceTheWholeByte := by
  unfold Obligations.OverridesReplaceTheWholeByte
  intro s hs
  obtain ⟨w, hrx, -, hw⟩ := runCommand_local hs
  exact ⟨w, hrx, fun v => ⟨decode_zeros rfl rfl rfl, hw (.setSped v) (.setByte .sped v),
    decode_zeros rfl rfl rfl, hw (.setOption v) (.setByte .option v)⟩⟩

/-- Settles O20: the step of Local reads CFG, which completion leaves as it is. -/
theorem getConfigRawDeliversTheImage : Obligations.GetConfigRawDeliversTheImage := by
  unfold Obligations.GetConfigRawDeliversTheImage
  intro s hs
  obtain ⟨w, hrx, -, hw⟩ := runCommand_local hs
  exact ⟨decode_encode (i := .getConfigRaw) rfl, w, hw .getConfigRaw .readRaw, hrx, rfl⟩

end Sys2Proof.Machine
end

section
/-! PROOFS. O10: an answered step has only added to the trace, so that BEGIN was issued stays so. -/

namespace Sys2Proof.Machine

/-- However a run ends, a cut included, it has only added to the trace. -/
theorem Flow.Inside.trace_isPrefix {x : Flow Unit} {ok : Event → Bool} {s t : State} {P : Unit → State → Prop}
    (hx : x.Inside ok s P) (ht : x.toOutcome = .next t) : s.trace <+: t.trace := by
  obtain ⟨hwithin, -⟩ | ⟨u, hwithin, rfl⟩ := Flow.Sat.next (P := fun t => Within ok s t ∧ P () t) hx ht
  all_goals
    obtain ⟨es, hes, -⟩ := hwithin.trace
    exact ⟨es, hes.symm⟩

theorem exec_host_trace_isPrefix {i : Instr} (hi : isHostCommand i = true) {s t : State}
    (ht : exec i s = .next t) : s.trace <+: t.trace := by
  cases hw : i.wellFormed s.config with
  | false =>
    cases (exec_host_refused hw).symm.trans ht
    exact List.prefix_append _ _
  | true =>
    rw [exec_host hi hw] at ht
    simpa using (runSeq_inside (phasesOf i) (accept i (startOf i s))).trace_isPrefix ht

/-- A step takes nothing back from the trace, whatever it finds. -/
theorem step_trace_isPrefix {s t : State} (ht : step s = .next t) : s.trace <+: t.trace := by
  by_cases hseq : s.seq = []
  · cases hport : s.hostInputs with
    | nil => exact (advance_inside (fun _ => true) 0 s).trace_isPrefix ((step_idle hseq hport).symm.trans ht)
    | cons input rest =>
      cases input with
      | reset =>
        cases (step_reset hseq hport).symm.trans ht
        exact List.prefix_refl _
      | word w =>
        cases hd : decodeHost s.config w with
        | none =>
          cases (step_refuse hseq hport hd).symm.trans ht
          exact List.prefix_append _ _
        | some i =>
          exact exec_host_trace_isPrefix (s := { s with hostInputs := rest }) (isHostCommand_of_decodeHost hd)
            ((step_run hseq hport hd).symm.trans ht)
  · exact (runSeq_inside s.seq s).trace_isPrefix ((step_busy hseq).symm.trans ht)

/-- A BEGIN in the trace is not undone by later events (`70_reset_and_hazards.md` R254). -/
theorem State.begun_of_isPrefix {s t : State} (h : s.trace <+: t.trace) (hs : s.begun = true) : t.begun = true := by
  obtain ⟨es, hes⟩ := h
  have hbegun : s.trace.any Event.isBegin = true := hs
  rw [State.begun, ← hes, List.any_append, hbegun, Bool.true_or]

/-- Settles O10, whether or not BEGIN was issued: the one fault of a step is that of a drain fed for ever. -/
theorem everyStepCompletesUnlessFedForEver : Obligations.EveryStepCompletesUnlessFedForEver := by
  unfold Obligations.EveryStepCompletesUnlessFedForEver
  intro s hflood _
  obtain ⟨t, ht, hidle, -, hfed⟩ | ⟨r, -, -, hfed⟩ := step_settles s
  · exact ⟨t, ht, by simp [State.cmdReady, hidle], hfed.trans hflood,
      State.begun_of_isPrefix (step_trace_isPrefix ht)⟩
  · exact absurd hflood hfed

end Sys2Proof.Machine
end

section
/-! PROOFS. O31, O32, O34: the two mode commands are one mode transition, which times out where AUX is low for good. -/

namespace Sys2Proof.Machine

/-! ## AUX stuck low -/

/-- AUX is low and stays so. -/
def State.auxLow (s : State) : Prop := s.aux = false ∧ s.script.all (fun t => !t.aux) = true

/-- `x` leaves `P` where it returns. -/
abbrev Flow.Leaves {α : Type} (x : Flow α) (P : α → State → Prop) : Prop :=
  x.Sat P (fun _ => True) fun _ => True

theorem Flow.leaves_true {α : Type} (x : Flow α) : x.Leaves fun _ _ => True := by
  cases x <;> trivial

theorem State.auxLow.nextAux {s : State} (h : s.auxLow) : s.nextAux = false := by
  obtain ⟨haux, hscript⟩ := h
  unfold State.nextAux
  cases hs : s.script with
  | nil => exact haux
  | cons t ts =>
    rw [hs, List.all_cons, Bool.and_eq_true] at hscript
    simpa using hscript.1

theorem State.auxLow.next {s : State} (h : s.auxLow) (ms : Nat) :
    (s.next ms).aux = false ∧ (s.next ms).script.all (fun t => !t.aux) = true := by
  refine ⟨h.nextAux, ?_⟩
  have hall := List.all_eq_true.mp h.2
  exact List.all_eq_true.mpr fun t ht => hall t (List.mem_of_mem_tail ht)

theorem advance_auxLow (ms : Nat) {s : State} (h : s.auxLow) :
    (advance ms s).Leaves fun _ t => t.auxLow ∧ t.auxSync.second = false := by
  rw [advance_eq]
  split
  · trivial
  · exact ⟨h.next ms, h.nextAux⟩

theorem driveM0_auxLow (l : Bool) {s : State} (h : s.auxLow) : (driveM0 l s).Leaves fun _ t => t.auxLow :=
  (advance_auxLow 0 h).bind fun _ _ ht => ht.1

theorem sleep_auxLow (n : Nat) {s : State} (h : s.auxLow) : (sleep n s).Leaves fun _ t => t.auxLow :=
  (advance_auxLow n (s := { s with t0 := s.now }) h).bind fun _ _ ht => ht.1

theorem auxRead_auxLow {s : State} (h : s.auxLow) : (auxRead s).Leaves fun v t => v = false ∧ t.auxLow :=
  (advance_auxLow 0 h).bind fun _ _ ht => ⟨ht.2, ht.1⟩

theorem auxTimeout_tmo (l : Label) (s : State) : (auxTimeout l s).Leaves fun _ t => t.tmo = true :=
  (Flow.leaves_true (diag .timeout l s)).bind fun _ _ _ => rfl

/-- A wait in which AUX is low at every poll can only time out (`60_exceptions.md` R221). -/
theorem pollAux_auxLow (l : Label) (n : Nat) {s : State} (h : s.auxLow) :
    (pollAux l n s).Leaves fun _ t => t.tmo = true := by
  induction n generalizing s with
  | zero =>
    refine (auxRead_auxLow h).bind fun v t ⟨hv, _⟩ => ?_
    rw [if_neg (by simp [hv])]
    exact auxTimeout_tmo l _
  | succ n ih =>
    refine (auxRead_auxLow h).bind fun v t ⟨hv, hlow⟩ => ?_
    rw [if_neg (by simp [hv])]
    split
    · exact auxTimeout_tmo l t
    · exact ih hlow

/-! ## The mode commands -/

/-- A mode transition: drive M0, settle, wait for AUX (`41_mode_control.md` R134, R135). -/
def modeSwitch (level : Bool) (l : Label) (s : State) : Flow Unit :=
  (driveM0 level s).bind fun _ s => (sleep s.config.modeSettleMs s).bind fun _ s => waitAux l s

theorem modeSwitch_auxLow (level : Bool) (l : Label) {s : State} (h : s.auxLow) :
    (modeSwitch level l s).Leaves fun _ t => t.tmo = true :=
  (driveM0_auxLow level h).bind fun _ t ht => (sleep_auxLow t.config.modeSettleMs ht).bind fun _ u hu =>
    pollAux_auxLow l u.script.length (s := { u with t0 := u.now }) hu

/-- A command of one mode transition and Done, when no reset cuts it. -/
theorem runCommand_modeSwitch {p : Phase} {level : Bool} {l : Label} (hp : runPhase p = modeSwitch level l)
    (i : Instr) {s : State} (h : s.noReset = true) :
    ∃ w t0 k b, runCommand i [p, .done] s = .next
        { s.moved w t0 (modeEvents s.config level l k b ++ [.done .ok]) with
          m0 := level, seq := [], op := none, outcome := .ok, status := 0, tmo := b, resultValid := true } ∧
      s.rx <+: w.rx ∧ (s.auxLow → b = true) := by
  let a : State := { accept i s with seq := [p, .done] }
  obtain ⟨w, t0, k, b, hmode, hscript, hrx⟩ := modeSwitch_ret level l (s := a) h
  let c : State := { a.moved w t0 (modeEvents s.config level l k b) with m0 := level, tmo := b }
  have hphase : runPhase p a = .ret () c := by
    rw [hp]
    exact hmode
  have hc : c.noReset = true := s.noReset_moved h hscript s.t0 []
  refine ⟨c.next 0, t0, k, b, ?_, hrx.trans (c.next_rx 0), fun hlow => ?_⟩
  · rw [runCommand, runSeq_ret p [.done] (accept i s) hphase, runSeq_done hc]
    simp [c, a, accept, State.moved, CmdResult.code]
  · have htmo := modeSwitch_auxLow level l (s := a) hlow
    rw [← hp, hphase] at htmo
    exact htmo

/-- Settles O31: the mode transition to config mode, then Done. -/
theorem enterConfigDrivesSettlesAndWaits : Obligations.EnterConfigDrivesSettlesAndWaits := by
  unfold Obligations.EnterConfigDrivesSettlesAndWaits
  intro s h
  obtain ⟨w, t0, k, b, hexec, hrx, -⟩ := runCommand_modeSwitch (p := .configEnter) rfl .enterConfig h
  exact ⟨decode_encode (i := .enterConfig) rfl, w, t0, k, b, hexec, hrx⟩

/-- Settles O32: the mode transition to normal mode, then Done. -/
theorem enterNormalDrivesSettlesAndWaits : Obligations.EnterNormalDrivesSettlesAndWaits := by
  unfold Obligations.EnterNormalDrivesSettlesAndWaits
  intro s h
  obtain ⟨w, t0, k, b, hexec, hrx, -⟩ := runCommand_modeSwitch (p := .normalExit) rfl .enterNormal h
  exact ⟨decode_encode (i := .enterNormal) rfl, w, t0, k, b, hexec, hrx⟩

/-- A mode command that timed out reports it once, and its Done reports nothing. -/
theorem diagnostics_modeEvents_timedOut (c : Config) (level : Bool) (l : Label) (k : Nat) (r : CmdResult) :
    diagnostics (modeEvents c level l k true ++ [.done r]) = [(.timeout, l)] := by
  simp [modeEvents, waitEvents, diagnostics, Event.diagnostic]

/-- Settles O34: a wait that never sees AUX high is one that timed out. -/
theorem auxStuckLowTimesOutAndGoesOn : Obligations.AuxStuckLowTimesOutAndGoesOn := by
  unfold Obligations.AuxStuckLowTimesOutAndGoesOn
  intro s h haux hscript
  have hmode {p : Phase} {level : Bool} {l : Label} (hp : runPhase p = modeSwitch level l) (i : Instr) :
      ∃ t es, runCommand i [p, .done] s = .next t ∧ t.trace = s.trace ++ es ∧ t.m0 = level ∧ t.tmo = true ∧
        t.status = 0 ∧ diagnostics es = [(.timeout, l)] := by
    obtain ⟨w, t0, k, b, hexec, -, hlow⟩ := runCommand_modeSwitch hp i h
    obtain rfl := hlow ⟨haux, hscript⟩
    exact ⟨_, _, hexec, rfl, rfl, rfl, rfl, diagnostics_modeEvents_timedOut ..⟩
  exact ⟨hmode (p := .configEnter) rfl .enterConfig, hmode (p := .normalExit) rfl .enterNormal⟩

end Sys2Proof.Machine
end

section
/-! PROOFS. O35: a wait polls AUX low until it is high or the bound is reached. -/

namespace Sys2Proof.Machine

/-- The state after one poll of `s` that read 0. -/
def State.afterLowPoll (s : State) : State := s.moved (s.next 0) s.t0 [.aux false]

theorem State.noReset_afterLowPoll {s : State} (h : s.noReset = true) : s.afterLowPoll.noReset = true :=
  s.noReset_moved h (s.next_script 0) s.t0 [.aux false]

/-- Past the script the clock reaches the bound (log entry 6). -/
theorem elapsed_jump {s : State} {bound : Nat} (h : bound < 2 ^ 64) :
    bound ≤ elapsed { s with now := s.now + BitVec.ofNat 64 (bound - elapsed s) } := by
  have hsum : elapsed { s with now := s.now + BitVec.ofNat 64 (bound - elapsed s) } =
      (elapsed s + (bound - elapsed s)) % 2 ^ 64 := by
    simp only [elapsed]
    rw [BitVec.add_sub_comm, BitVec.toNat_add, BitVec.toNat_ofNat, Nat.add_mod_mod]
  have hlt : elapsed s < 2 ^ 64 := (s.now - s.t0).isLt
  rw [hsum, Nat.mod_eq_of_lt (by omega)]
  omega

/-- A poll that reads 0 ends the wait, its bound reached, or leaves a wait with fewer polls. -/
theorem pollAux_low (l : Label) (n : Nat) {s : State} (h : s.noReset = true) (ha : s.nextAux = false)
    (hbound : s.config.auxTimeoutMs < 2 ^ 64) :
    (∃ now, pollAux l n s = auxTimeout l { s.afterLowPoll with now := now } ∧
      s.config.auxTimeoutMs ≤ elapsed { s.afterLowPoll with now := now }) ∨
    ∃ m < n, pollAux l n s = pollAux l m s.afterLowPoll := by
  cases n with
  | zero =>
    refine .inl ⟨_, ?_, elapsed_jump (s := s.afterLowPoll) hbound⟩
    rw [pollAux, auxRead_ret h, ha, Flow.bind_ret, if_neg (by simp)]
    rfl
  | succ n =>
    rw [pollAux, auxRead_ret h, ha, Flow.bind_ret, if_neg (by simp)]
    by_cases hT : s.config.auxTimeoutMs ≤ elapsed s.afterLowPoll
    · exact .inl ⟨_, if_pos hT, hT⟩
    · exact .inr ⟨n, Nat.lt_succ_self n, if_neg hT⟩

/-- A wait from `s`, which began at `s.t0`, gave up in `u` after `k + 1` polls that read 0, no earlier than its bound
(`41_mode_control.md` R131, R132). -/
structure GaveUp (s : State) (k : Nat) (u : State) : Prop where
  t0 : u.t0 = s.t0
  script : u.script = s.script.drop (k + 1)
  trace : u.trace = s.trace ++ List.replicate (k + 1) (.aux false)
  bound : s.config.auxTimeoutMs ≤ elapsed u

/-- One poll earlier. -/
theorem GaveUp.of_afterLowPoll {s u : State} {k : Nat} (h : GaveUp s.afterLowPoll k u) : GaveUp s (k + 1) u where
  t0 := h.t0
  script := by
    rw [h.script]
    exact List.drop_tail
  trace := by
    rw [h.trace, List.replicate_succ (n := k + 1)]
    simp [State.afterLowPoll]
  bound := h.bound

/-- How the polls of a wait end. -/
theorem pollAux_ends (l : Label) (n : Nat) {s : State} (h : s.noReset = true)
    (hbound : s.config.auxTimeoutMs < 2 ^ 64) :
    ∃ t k b, pollAux l n s = .ret () t ∧ t.trace = s.trace ++ waitEvents l k b ∧ t.tmo = (s.tmo || b) ∧
      (b = true → ∃ u, auxTimeout l u = .ret () t ∧ GaveUp s k u) := by
  induction n using Nat.strong_induction_on generalizing s with
  | _ n ih =>
    cases ha : s.nextAux with
    | true => exact ⟨_, 0, false, pollAux_ready l n h ha, rfl, by simp, nofun⟩
    | false =>
      obtain ⟨now, hpoll, hreached⟩ | ⟨m, hm, hpoll⟩ := pollAux_low l n h ha hbound
      · let u : State := { s.afterLowPoll with now := now }
        have hu : u.noReset = true := State.noReset_afterLowPoll h
        have hend := auxTimeout_ret l hu
        exact ⟨_, 0, true, hpoll.trans hend, by simp [u, State.afterLowPoll, waitEvents], by simp,
          fun _ => ⟨u, hend, rfl, (List.drop_one).symm, rfl, hreached⟩⟩
      · obtain ⟨t, k, b, hret, htrace, htmo, hgave⟩ := ih m hm (State.noReset_afterLowPoll h) hbound
        refine ⟨t, k + 1, b, hpoll.trans hret, ?_, htmo, fun hb => ?_⟩
        · simp [htrace, State.afterLowPoll, waitEvents, List.replicate_succ]
        · obtain ⟨u, hu, hgave⟩ := hgave hb
          exact ⟨u, hu, hgave.of_afterLowPoll⟩

/-- Settles O35: the wait is its polls from T0 = now. -/
theorem timeoutComesNoEarlierThanTheBound : Obligations.TimeoutComesNoEarlierThanTheBound := by
  unfold Obligations.TimeoutComesNoEarlierThanTheBound
  intro l s h hbound
  obtain ⟨t, k, b, hret, htrace, htmo, hgave⟩ :=
    pollAux_ends l s.script.length (s := { s with t0 := s.now }) h hbound
  refine ⟨t, k, b, hret, htrace, htmo, fun hb => ?_⟩
  obtain ⟨u, hu, ht0, hscript, hlow, hreached⟩ := hgave hb
  exact ⟨u, hu, ht0, hscript, hlow, by rwa [elapsed, ht0] at hreached⟩

end Sys2Proof.Machine
end

section
/-! PROOFS. O12, O13, O36: how a command that drains can stop, and the triple request rows. -/

namespace Sys2Proof.Machine

/-- Settles O12: whatever a step did, it answered or was fed for ever. -/
theorem onlyAnEndlessDrainStops : Obligations.OnlyAnEndlessDrainStops := by
  unfold Obligations.OnlyAnEndlessDrainStops
  intro s
  obtain ⟨t, ht, -⟩ | ⟨_, hfault, rfl, hflood⟩ := step_settles s
  · exact ⟨fun _ => .inl ⟨t, ht⟩, fun r hr => by cases ht.symm.trans hr⟩
  · exact ⟨fun _ => .inr ⟨hfault, hflood⟩, fun r hr => by cases hfault.symm.trans hr⟩

/-! ## A drain fed for ever -/

/-- The script has run out, the module sends before every primitive for ever (`42_command_framer.md` R263), and the
count port tells a byte from none. -/
structure State.Fed (s : State) : Prop where
  script : s.script = []
  flood : s.flood ≠ []
  port : 1 ≤ s.config.rxCountW

theorem State.Fed.noReset {s : State} (h : s.Fed) : s.noReset = true := by
  simp [State.noReset, h.script]

/-- The environment may move on, for a script that has run out stays so. -/
theorem State.Fed.of {s t : State} (h : s.Fed) (hs : t.script <:+ s.script) (hf : t.flood = s.flood)
    (hc : t.config = s.config) : t.Fed where
  script := List.eq_nil_of_suffix_nil (h.script ▸ hs)
  flood := hf ▸ h.flood
  port := hc ▸ h.port

theorem State.Fed.nextQueue_ne_nil {s : State} (h : s.Fed) : s.nextQueue ≠ [] := by
  simp [State.nextQueue, State.arrivals, h.script, h.flood]

theorem State.Fed.nextCount_ne_zero {s : State} (h : s.Fed) : s.nextCount ≠ 0 := by
  have hqueue : 0 < (s.rx ++ s.arrivals).length := List.length_pos_of_ne_nil h.nextQueue_ne_nil
  have hport : 2 ≤ 2 ^ s.config.rxCountW := Nat.pow_le_pow_right (n := 2) (by omega) h.port
  rw [State.nextCount]
  omega

/-- However many reads are allowed, the count before the next one is not 0 (`42_command_framer.md` R151). -/
theorem drainLoop_fed (fuel : Nat) {s : State} (h : s.Fed) : drainLoop fuel s = .halt .drainNeverReturns := by
  induction fuel generalizing s with
  | zero => rfl
  | succ fuel ih =>
    let a := s.moved (s.next 0) s.t0 [.avail s.nextCount]
    have ha : a.Fed := h.of (s.next_script 0) rfl rfl
    obtain ⟨b, bs, hqueue⟩ : ∃ b bs, a.rx = b :: bs := List.exists_cons_of_ne_nil h.nextQueue_ne_nil
    rw [drainLoop, rxAvail_ret h.noReset, Flow.bind_ret, if_neg h.nextCount_ne_zero]
    show (rxRead a).bind _ = _
    rw [rxRead_ret ha.noReset hqueue, Flow.bind_ret]
    exact ih (ha.of (a.next_script 0) rfl rfl)

theorem runSeq_drainPre_fed (ps : List Phase) {s : State} (h : s.Fed) :
    runSeq (.drainPre :: ps) s = .halt .drainNeverReturns :=
  have hstart : State.Fed { s with seq := .drainPre :: ps } := h.of (List.suffix_refl _) rfl rfl
  congrArg (Flow.bind · _) (drainLoop_fed _ hstart)

/-- ENTER_CONFIG returns, and the drain after it does not. -/
theorem runSeq_enter_drain_fed (ps : List Phase) {s : State} (h : s.Fed) :
    runSeq (.configEnter :: .drainPre :: ps) s = .halt .drainNeverReturns := by
  obtain ⟨w, t0, k, b, henter, hscript, -⟩ :=
    enterConfig_ret (s := { s with seq := .configEnter :: .drainPre :: ps }) h.noReset
  rw [runSeq_ret .configEnter _ s henter]
  exact runSeq_drainPre_fed ps (h.of hscript rfl rfl)

/-- Settles O13, whether or not BEGIN was issued: a request row begins with the drain, a command enters config mode
first. -/
theorem drainFedForEverNeverReturns : Obligations.DrainFedForEverNeverReturns := by
  unfold Obligations.DrainFedForEverNeverReturns
  intro i s _ hscript hflood hport hi
  have hfed : s.Fed := ⟨hscript, hflood, hport⟩
  have hsnapshot : (snapshot s).Fed := ⟨hscript, hflood, hport⟩
  have hrow (ps : List Phase) : runPart (.drainPre :: ps) s = .fault .drainNeverReturns :=
    congrArg Flow.toOutcome (runSeq_drainPre_fed ps hfed)
  have hcommand (j : Instr) (ps : List Phase) {u : State} (hu : u.Fed) :
      runCommand j (.configEnter :: .drainPre :: ps) u = .fault .drainNeverReturns :=
    congrArg Flow.toOutcome (runSeq_enter_drain_fed ps (s := accept j u) (hu.of (List.suffix_refl _) rfl rfl))
  rcases hi with rfl | rfl | rfl | rfl | rfl | rfl | rfl | rfl | rfl | rfl
  exacts [hrow _, hrow _, hrow _, hrow _, hcommand _ _ hfed, hcommand _ _ hfed, hcommand _ _ hfed,
    hcommand _ _ hfed, hcommand _ _ hsnapshot, hcommand _ _ hsnapshot]

/-! ## The triple request rows -/

/-- SEND_TRIPLE (`42_command_framer.md` R152): the drain, then the opcode three times. -/
theorem runPart_triple (op : TripleOp) {s : State} (h : s.undisturbed = true) (hw : 1 ≤ s.config.rxCountW) :
    ∃ w ps, runPart [.drainPre, .send (.triple op)] s = .next
        { s.moved w s.t0 (drainEvents ps ++ [.tx op.code, .tx op.code, .tx op.code]) with seq := [], op := none } ∧
      s.rx <+: ps.map (·.2) := by
  let a : State := { s with seq := [.drainPre, .send (.triple op)] }
  obtain ⟨w1, ps, hdrain, hscript, hdiscards⟩ :=
    drain_ret (s := a) (State.undisturbed_noReset h) (State.undisturbed_flood h)
  let b : State := { a.moved w1 a.t0 (drainEvents ps) with seq := [.send (.triple op)] }
  have hb : b.noReset = true := s.noReset_moved (State.undisturbed_noReset h) hscript s.t0 []
  obtain ⟨w2, hsend, -⟩ := txBytes_ret [op.code, op.code, op.code] hb
  refine ⟨w2, ps, ?_, (hdiscards hw).2⟩
  rw [runPart, runSeq_ret .drainPre _ s hdrain, runSeq_ret (.send (.triple op)) [] _ hsend]
  simp [b, a, State.moved, toIdle]

/-- Settles O36: the four rows are SEND_TRIPLE of the four opcodes. -/
theorem tripleRequestsDrainThenSendThreeBytes : Obligations.TripleRequestsDrainThenSendThreeBytes := by
  unfold Obligations.TripleRequestsDrainThenSendThreeBytes
  intro s _ h hw i b hib
  simp only [List.mem_cons, List.not_mem_nil, Prod.mk.injEq, or_false] at hib
  rcases hib with ⟨rfl, rfl⟩ | ⟨rfl, rfl⟩ | ⟨rfl, rfl⟩ | ⟨rfl, rfl⟩
  · exact runPart_triple .readConfig h hw
  · exact runPart_triple .readVersion h hw
  · exact runPart_triple .reset h hw
  · exact runPart_triple .readRssi h hw

end Sys2Proof.Machine
end

section
/-! PROOFS. O44 to O46: what a stand-alone read leaves by the answer the module gives. -/

namespace Sys2Proof.Machine

/-- A read whose parse ended with `r` in `u` has left `t`: its epilogue writes no data register, and the queue is
empty. -/
structure ReadLeaves (r : CmdResult) (u t : State) : Prop where
  rx : t.rx = []
  status : t.status = r.code
  cfg : t.cfg = u.cfg
  ver : t.ver = u.ver
  rssi : t.rssi = u.rssi
  noise : t.noise = u.noise

/-- A stand-alone read from its parse on (`42_command_framer.md` R154). -/
def readEnd (k : Reply) (l : Label) : List Phase := [.parseResponse k (some l), .drainPost, .normalExit, .done]

/-- When nothing arrives after the parse, the parse decides what the read leaves. -/
theorem runSeq_readEnd_quiet {k : Reply} {l : Label} {r : CmdResult} {s u : State}
    (hparse : parse k { s with seq := readEnd k l } = .ret r u) (hu : u.quiet) (hw : 1 ≤ u.config.rxCountW) :
    ∃ t, runSeq (readEnd k l) s = .ret () t ∧ ReadLeaves r u t := by
  obtain ⟨w, es, hsettle, hquiet⟩ := settleOutcome_quiet r (some l) hu
  obtain ⟨w1, t0, es1, b, hexit, hempty⟩ := runSeq_epilogue_quiet hquiet hw
  have hphase : runPhase (.parseResponse k (some l)) { s with seq := readEnd k l } =
      .ret () { u.moved w u.t0 es with outcome := r } := by
    show (parse k _).bind _ = _
    rw [hparse, Flow.bind_ret, hsettle]
  exact ⟨_, (runSeq_ret _ _ s hphase).trans hexit, hempty, rfl, rfl, rfl, rfl, rfl⟩

/-- When the answer arrives in the settle sleep of the read, the parse finds it in the queue and nothing else. -/
theorem runCommand_read_answered (i : Instr) (op : TripleOp) (k : Reply) (l : Label) {s : State} {answer : List Byte}
    (h : s.answeredAfter (7 + 2 * s.rx.length) answer) (hw : 1 ≤ s.config.rxCountW) :
    ∃ w t0 es, w.rx = answer ∧
      ({ (accept i s).moved w t0 es with m0 := true, seq := readEnd k l } : State).quiet ∧
      ∀ r u, parse k { (accept i s).moved w t0 es with m0 := true, seq := readEnd k l } = .ret r u → u.quiet →
        u.config = s.config →
        ∃ t, runCommand i (.configEnter :: .drainPre :: .send (.triple op) :: .delay .response :: readEnd k l) s =
          .next t ∧ ReadLeaves r u t := by
  obtain ⟨w, t0, q, es, hexchange, hanswer, hquiet⟩ :=
    runSeq_exchange_answered op .response (readEnd k l) (s := accept i s) h hw
  refine ⟨w, t0, es, hanswer, hquiet, fun r u hparse hu hconfig => ?_⟩
  obtain ⟨t, ht, hleaves⟩ := runSeq_readEnd_quiet
    (s := { (accept i s).moved w t0 es with m0 := true, seq := q }) hparse hu (hconfig ▸ hw)
  exact ⟨t, congrArg Flow.toOutcome (hexchange.trans ht), hleaves⟩

/-- Settles O44, by what PARSE_CFG finds. -/
theorem readConfigFollowsTheAnswer : Obligations.ReadConfigFollowsTheAnswer := by
  unfold Obligations.ReadConfigFollowsTheAnswer
  intro s answer _ h hw
  obtain ⟨w, t0, es, rfl, hquiet, hread⟩ :=
    runCommand_read_answered .readConfig .readConfig .cfg .readConfig h (by omega)
  obtain ⟨w1, es1, r, g, hparse, hu, hshort, hheader, himage⟩ := parseCfg_quiet hquiet hw
  obtain ⟨t, hexec, hleaves⟩ := hread r _ hparse hu rfl
  refine ⟨t, hexec, hleaves.rx, fun hlen => ?_, fun b rest hq hlen hb => ?_, fun img extra hq => ?_⟩
  · obtain ⟨rfl, rfl⟩ := hshort hlen
    exact ⟨hleaves.status, hleaves.cfg⟩
  · obtain ⟨rfl, rfl⟩ := hheader b rest hq hlen hb
    exact ⟨hleaves.status, hleaves.cfg⟩
  · obtain ⟨rfl, rfl⟩ := himage img extra hq
    exact ⟨hleaves.status, hleaves.cfg⟩

/-- Settles O45, by what PARSE_VER finds. -/
theorem readVersionFollowsTheAnswer : Obligations.ReadVersionFollowsTheAnswer := by
  unfold Obligations.ReadVersionFollowsTheAnswer
  intro s answer _ h hw
  obtain ⟨w, t0, es, rfl, hquiet, hread⟩ :=
    runCommand_read_answered .readVersion .readVersion .ver .readVersion h (by omega)
  obtain ⟨w1, es1, r, v, hparse, hu, hshort, hversion⟩ := parseVer_quiet hquiet hw
  obtain ⟨t, hexec, hleaves⟩ := hread r _ hparse hu rfl
  refine ⟨t, hexec, hleaves.rx, fun hlen => ?_, fun ver extra hq => ?_⟩
  · obtain ⟨rfl, rfl⟩ := hshort hlen
    exact ⟨hleaves.status, hleaves.ver⟩
  · obtain ⟨rfl, rfl⟩ := hversion ver extra hq
    exact ⟨hleaves.status, hleaves.ver⟩

/-- Settles O46, by what PARSE_RSSI finds. -/
theorem readRssiFollowsTheAnswer : Obligations.ReadRssiFollowsTheAnswer := by
  unfold Obligations.ReadRssiFollowsTheAnswer
  intro s answer _ h hw
  obtain ⟨w, t0, es, rfl, hquiet, hread⟩ :=
    runCommand_read_answered .readRssi .readRssi .rssi .readRssi h (by omega)
  obtain ⟨w1, es1, r, p, n, hparse, hu, hshort, hheader, hvalues⟩ := parseRssi_quiet hquiet hw
  obtain ⟨t, hexec, hleaves⟩ := hread r _ hparse hu rfl
  refine ⟨t, hexec, hleaves.rx, fun hlen => ?_, fun b rest hq hlen hb => ?_, fun x y extra hq => ?_⟩
  · obtain ⟨rfl, rfl, rfl⟩ := hshort hlen
    exact ⟨hleaves.status, hleaves.rssi, hleaves.noise⟩
  · obtain ⟨rfl, rfl, rfl⟩ := hheader b rest hq hlen hb
    exact ⟨hleaves.status, hleaves.rssi, hleaves.noise⟩
  · obtain ⟨rfl, rfl, rfl⟩ := hvalues x y extra hq
    exact ⟨hleaves.status, hleaves.rssi, hleaves.noise⟩

end Sys2Proof.Machine
end

section
/-! PROOFS. O29, O30: the decode of an image, table by table over the slices of its bytes. -/

namespace Sys2Proof.Machine

/-! ## Reading a field as the slice of its byte (`30_encoding.md` R114) -/

theorem fieldGet_eq_slice (g : Image) (f : Field) :
    fieldGet g f = ((imageGet g (fieldIndex f)).extractLsb' (fieldLo f) (fieldWidth f)).setWidth 8 := by
  apply BitVec.eq_of_getLsbD_eq
  intro k hk
  simp only [fieldGet, fieldExtract_getLsbD, BitVec.getLsbD_setWidth, BitVec.getLsbD_extractLsb', hk, decide_true,
    Bool.true_and]

theorem fieldGet_channel (g : Image) : fieldGet g .channel = g.chan :=
  calc fieldGet g .channel = (g.chan.extractLsb' 0 8).setWidth 8 := fieldGet_eq_slice g .channel
    _ = g.chan := by rw [BitVec.extractLsb'_eq_self, BitVec.setWidth_eq]

/-- A one-bit field is 1 exactly when its bit of the byte is set. -/
theorem fieldGet_beq_one (g : Image) {f : Field} (hf : fieldWidth f = 1) :
    (fieldGet g f == 1) = (imageGet g (fieldIndex f)).getLsbD (fieldLo f) := by
  have hbit (b : BitVec 1) : (b.setWidth 8 == (1 : Byte)) = b.getLsbD 0 := by revert b; decide
  rw [fieldGet_eq_slice, hf, hbit]
  simp

/-! ## The tables on the slices -/

/-- R207 and U2: doubling from 16 Kbps for the indices 0 to 3, and no decode from 4 on. -/
theorem decodeAirRate_setWidth (v : BitVec 3) :
    decodeAirRate (v.setWidth 8) = if v.toNat < 4 then some (16 * 2 ^ v.toNat) else none := by
  revert v; decide

/-- R208: 3 dBm less for each step of the power index. -/
theorem decodePower_setWidth (v : BitVec 2) : decodePower (v.setWidth 8) + 3 * v.toNat = 30 := by
  revert v; decide

/-- R206: 20 bits hold the frequency of every channel. -/
theorem freqKHz_lt (chan : Byte) : freqKHz chan < 2 ^ 20 := by
  have hchan : chan.toNat < 256 := chan.isLt
  rw [freqKHz]
  omega

/-! ## The decode of an image -/

theorem decodeImage_parity (g : Image) :
    (decodeImage g).parity = decodeParity ((g.sped.extractLsb' 6 2).setWidth 8) :=
  congrArg decodeParity (fieldGet_eq_slice g .parity)

theorem decodeImage_baudBps (g : Image) :
    (decodeImage g).baudBps = decodeBaud ((g.sped.extractLsb' 3 3).setWidth 8) :=
  congrArg decodeBaud (fieldGet_eq_slice g .baudIndex)

theorem decodeImage_airRateKbps (g : Image) :
    (decodeImage g).airRateKbps = decodeAirRate ((g.sped.extractLsb' 0 3).setWidth 8) :=
  congrArg decodeAirRate (fieldGet_eq_slice g .airRate)

theorem decodeImage_freqKHz (g : Image) : (decodeImage g).freqKHz = freqKHz g.chan :=
  congrArg freqKHz (fieldGet_channel g)

theorem decodeImage_powerDbm (g : Image) :
    (decodeImage g).powerDbm = decodePower ((g.option.extractLsb' 0 2).setWidth 8) :=
  congrArg decodePower (fieldGet_eq_slice g .power)

/-- Settles O29: the slices of SPED and OPTION through their tables, and the three flags as bits of OPTION. -/
theorem decodeFollowsTheTables : Obligations.DecodeFollowsTheTables := by
  unfold Obligations.DecodeFollowsTheTables
  intro g
  rw [decodeImage_parity, decodeImage_freqKHz, decodeImage_powerDbm]
  refine ⟨?plain, ?odd, ?even, rfl, freqKHz_lt g.chan, decodePower_setWidth _,
    fieldGet_beq_one g (f := .fec) rfl, fieldGet_beq_one g (f := .pullup) rfl, fieldGet_beq_one g (f := .ioMode) rfl⟩
  case plain =>
    rintro (h | h) <;> rw [h] <;> rfl
  case odd =>
    intro h; rw [h]; rfl
  case even =>
    intro h; rw [h]; rfl

/-- Settles O30: the air rate by its closed form, the baud rate at the three points of its table. -/
theorem rateDecodeFollowsTheTables : Obligations.RateDecodeFollowsTheTables := by
  unfold Obligations.RateDecodeFollowsTheTables
  intro g
  rw [decodeImage_airRateKbps, decodeImage_baudBps, decodeAirRate_setWidth]
  refine ⟨fun n => ?_, fun h => ?_, fun h => ?_, fun h => ?_⟩
  · rw [Option.ite_none_right_eq_some, Option.some.injEq, eq_comm (a := n)]
  all_goals rw [h]; rfl

end Sys2Proof.Machine
end

section
/-! PROOFS. O8: an idle step is what the environment does and nothing else. -/

namespace Sys2Proof.Machine

/-- Settles O8: the idle step is `advance`, which moves the environment to its next tick where no reset falls, and
it emits no event that could pulse. -/
theorem idleBlockHoldsRegisters : Obligations.IdleBlockHoldsRegisters := by
  unfold Obligations.IdleBlockHoldsRegisters
  intro s hseq hport hscript
  refine ⟨s.next 0, ?step, s.next_rx 0, ?silent⟩
  case step => rw [step_idle hseq hport, advance_ret 0 hscript, Flow.toOutcome]
  case silent => exact response_eq_none (State.moved_trace (s.next 0) s.t0 [] s) rfl

end Sys2Proof.Machine
end

section
/-! PROOFS. O15: primitives that each find AUX ready and the RX queue empty, up to a reset that falls on one of them. -/

namespace Sys2Proof.Machine

/-! ## Ready ticks before a reset -/

/-- Nothing is queued, and `n` ready ticks are to come before the reset of `mid`. -/
def State.ResetIn (s : State) (n : Nat) (mid : Tick) (post : List Tick) : Prop :=
  s.rx = [] ∧ mid.rst = true ∧ ∃ pre, s.script = pre ++ mid :: post ∧ pre.length = n ∧ pre.all Tick.ready = true

/-- What the reset of `mid` leaves at the time `now`, with the events `es` emitted since `s`. -/
def State.abandonedAt (s : State) (mid : Tick) (post : List Tick) (now : Millis) (es : List Event) : State :=
  blockReset (s.moved ⟨mid.rx, mid.aux, ⟨mid.aux, mid.aux⟩, now, post⟩ s.t0 es)

theorem abandonedAt_moved_emit (s : State) (w : World) (t0 : Millis) (e : Event) (mid : Tick) (post : List Tick)
    (now : Millis) (es : List Event) :
    (emit e (s.moved w t0 [])).abandonedAt mid post now es = s.abandonedAt mid post now (e :: es) := by
  simp [State.abandonedAt, blockReset]

theorem advance_cut {s : State} {mid : Tick} {post : List Tick} (ms : Nat) (h : s.ResetIn 0 mid post) :
    ∃ now, advance ms s = .cut (s.abandonedAt mid post now []) := by
  obtain ⟨hrx, hmid, pre, hs, hlen, -⟩ := h
  obtain rfl := List.eq_nil_of_length_eq_zero hlen
  rw [List.nil_append] at hs
  exact ⟨s.now + BitVec.ofNat 64 mid.dt, by simp [advance, hs, hmid, spend_eq, hrx, State.abandonedAt]⟩

/-- A tick that is ready brings the reset one tick nearer. -/
theorem advance_ready {s : State} {n : Nat} {mid : Tick} {post : List Tick} (ms : Nat)
    (h : s.ResetIn (n + 1) mid post) :
    ∃ w, advance ms s = .ret () (s.moved w s.t0 []) ∧ w.rx = [] ∧ w.auxSync.second = true ∧
      (s.moved w s.t0 []).ResetIn n mid post := by
  obtain ⟨hrx, hmid, pre, hs, hlen, hready⟩ := h
  obtain ⟨t, ts, rfl⟩ := List.exists_cons_of_length_eq_add_one hlen
  simp only [List.all_cons, Bool.and_eq_true, Tick.ready, List.isEmpty_iff, Bool.not_eq_true'] at hready
  obtain ⟨⟨⟨haux, harrives⟩, hrst⟩, hrest⟩ := hready
  let w : World := ⟨[], true, ⟨true, true⟩, s.now + BitVec.ofNat 64 (max ms t.dt), ts ++ mid :: post⟩
  exact ⟨w, by simp [advance, hs, hrst, spend_eq, hrx, harrives, haux, w], rfl, rfl, rfl, hmid, ts, rfl,
    Nat.succ.inj hlen, hrest⟩

/-! ## Operations that such a reset cuts -/

/-- A reset that falls on one of the first primitives of `x`, those of the events `es`, cuts `x` there. -/
def Flow.CutAmong {α : Type} (x : Flow α) (s : State) (es : List Event) : Prop :=
  ∀ n mid post, s.ResetIn n mid post → n < es.length → ∃ now, x = .cut (s.abandonedAt mid post now (es.take n))

theorem Flow.cutAmong_nil {α : Type} (x : Flow α) (s : State) : x.CutAmong s [] :=
  fun _ _ _ _ h => (Nat.not_lt_zero _ h).elim

/-- A primitive and what follows it: its tick, which the reset cuts or which finds AUX ready and the queue empty, and
its event. -/
theorem advance_cutAmong {α : Type} (ms : Nat) {s : State} {e : Event} {es : List Event} {k : State → Flow α}
    (hk : ∀ t, t.config = s.config → t.rx = [] → t.auxSync.second = true → (k t).CutAmong (emit e t) es) :
    ((advance ms s).bind fun _ t => k t).CutAmong s (e :: es) := by
  intro n mid post hs hn
  cases n with
  | zero =>
    obtain ⟨now, hcut⟩ := advance_cut ms hs
    exact ⟨now, by rw [hcut, Flow.bind_cut, List.take_zero]⟩
  | succ n =>
    obtain ⟨w, hret, hrx, haux, ht⟩ := advance_ready ms hs
    obtain ⟨now, hcut⟩ := hk (s.moved w s.t0 []) rfl hrx haux n mid post ht (Nat.lt_of_succ_lt_succ hn)
    exact ⟨now, by rw [hret, Flow.bind_ret, hcut, abandonedAt_moved_emit, List.take_succ_cons]⟩

section
variable {α : Type} {s : State} {es : List Event}

theorem driveM0_cutAmong (l : Bool) {f : Unit → State → Flow α}
    (hf : ∀ t, t.config = s.config → (f () t).CutAmong t es) :
    ((driveM0 l s).bind f).CutAmong s (.m0 l :: es) := by
  rw [driveM0, Flow.bind_assoc]
  exact advance_cutAmong 0 fun t hc _ _ => hf (emit (.m0 l) { t with m0 := l }) hc

theorem sleep_cutAmong (n : Nat) {f : Unit → State → Flow α}
    (hf : ∀ t, t.config = s.config → (f () t).CutAmong t es) :
    ((sleep n s).bind f).CutAmong s (.sleep n :: es) := by
  rw [sleep, Flow.bind_assoc]
  exact advance_cutAmong n (s := { s with t0 := s.now }) fun t hc _ _ => hf (emit (.sleep n) t) hc

theorem txByte_cutAmong (b : Byte) {f : Unit → State → Flow α}
    (hf : ∀ t, t.config = s.config → (f () t).CutAmong t es) :
    ((txByte b s).bind f).CutAmong s (.tx b :: es) := by
  rw [txByte, Flow.bind_assoc]
  exact advance_cutAmong 0 fun t hc _ _ => hf (emit (.tx b) t) hc

theorem auxRead_cutAmong {f : Bool → State → Flow α}
    (hf : ∀ t, t.config = s.config → (f true t).CutAmong t es) :
    ((auxRead s).bind f).CutAmong s (.aux true :: es) := by
  rw [auxRead, Flow.bind_assoc]
  refine advance_cutAmong 0 fun t hc _ haux => ?_
  rw [haux]
  exact hf (emit (.aux true) t) hc

theorem rxAvail_cutAmong {f : Nat → State → Flow α}
    (hf : ∀ t, t.config = s.config → (f 0 t).CutAmong t es) :
    ((rxAvail s).bind f).CutAmong s (.avail 0 :: es) := by
  rw [rxAvail, Flow.bind_assoc]
  refine advance_cutAmong 0 fun t hc hrx _ => ?_
  rw [show rxCount t = 0 by simp [rxCount, hrx]]
  exact hf (emit (.avail 0) t) hc

/-- The first poll finds AUX high. -/
theorem pollAux_cutAmong (l : Label) (n : Nat) {f : Unit → State → Flow α}
    (hf : ∀ t, t.config = s.config → (f () t).CutAmong t es) :
    ((pollAux l n s).bind f).CutAmong s (.aux true :: es) := by
  cases n <;> (rw [pollAux, Flow.bind_assoc]; exact auxRead_cutAmong hf)

theorem enterConfig_cutAmong {f : Unit → State → Flow α} (hf : ∀ t, t.config = s.config → (f () t).CutAmong t es) :
    ((enterConfig s).bind f).CutAmong s (modeEvents s.config true .config 0 false ++ es) := by
  simp only [enterConfig, Flow.bind_assoc]
  refine driveM0_cutAmong true fun t ht => ?_
  rw [← ht] at hf ⊢
  refine sleep_cutAmong t.config.modeSettleMs fun u hu => ?_
  rw [← hu] at hf
  exact pollAux_cutAmong .config _ (s := { u with t0 := u.now }) hf

/-- The drain finds nothing to discard. -/
theorem drain_cutAmong {f : Unit → State → Flow α} (hf : ∀ t, t.config = s.config → (f () t).CutAmong t es) :
    ((drain s).bind f).CutAmong s (.avail 0 :: es) := by
  rw [drain, drainLoop, Flow.bind_assoc]
  exact rxAvail_cutAmong hf

theorem txBytes_cutAmong (bs : List Byte) {f : Unit → State → Flow α}
    (hf : ∀ t, t.config = s.config → (f () t).CutAmong t es) :
    ((txBytes bs s).bind f).CutAmong s (bs.map .tx ++ es) := by
  induction bs generalizing s with
  | nil => exact hf s rfl
  | cons b bs ih =>
    rw [txBytes, Flow.bind_assoc]
    refine txByte_cutAmong b fun t ht => ?_
    rw [← ht] at hf
    exact ih hf

end

/-! ## READ_CONFIG -/

/-- The events of the first eight primitives of READ_CONFIG where AUX is ready and nothing arrives. -/
def readConfigStart (c : Config) : List Event :=
  modeEvents c true .config 0 false ++ .avail 0 :: [0xC1, 0xC1, 0xC1].map .tx ++ [.sleep c.respSettleMs]

theorem runSeq_readConfig_cutAmong (s : State) :
    (runSeq (phasesOf .readConfig) s).CutAmong s (readConfigStart s.config) := by
  refine enterConfig_cutAmong (s := { s with seq := phasesOf .readConfig }) (f := fun _ => runSeq _) fun t ht => ?_
  refine drain_cutAmong (s := { t with seq := _ :: _ }) (f := fun _ => runSeq _) fun u hu => ?_
  refine txBytes_cutAmong [0xC1, 0xC1, 0xC1] (s := { u with seq := _ :: _ }) (f := fun _ => runSeq _) fun v hv => ?_
  rw [← show v.config = s.config from hv.trans (hu.trans ht)]
  exact sleep_cutAmong v.config.respSettleMs (s := { v with seq := _ :: _ }) (f := fun _ => runSeq _)
    fun x _ => Flow.cutAmong_nil _ x

theorem done_not_mem_readConfigStart (c : Config) (r : CmdResult) : .done r ∉ readConfigStart c := by
  simp [readConfigStart, modeEvents, waitEvents]

/-- The first opcode byte is the fifth of the eight. -/
theorem txStream_take_readConfigStart (c : Config) {n : Nat} (hn : n ≤ 7) :
    txStream ((readConfigStart c).take n) = List.replicate (n - 4) 0xC1 := by
  interval_cases n <;> rfl

/-- Settles O15, whether or not BEGIN was issued: the reset falls on one of the first eight primitives. -/
theorem resetAbandonsReadConfig : Obligations.ResetAbandonsReadConfig := by
  unfold Obligations.ResetAbandonsReadConfig
  intro s pre mid post _ hrx hs hlen hready hmid
  obtain ⟨now, hcut⟩ := runSeq_readConfig_cutAmong (accept .readConfig s) pre.length mid post
    ⟨hrx, hmid, pre, hs, rfl, hready⟩ (Nat.lt_succ_of_le hlen)
  refine ⟨now, (readConfigStart s.config).take pre.length, ?_,
    fun r hr => done_not_mem_readConfigStart s.config r (List.mem_of_mem_take hr),
    txStream_take_readConfigStart s.config hlen⟩
  show (runSeq (phasesOf .readConfig) (accept .readConfig s)).toOutcome = _
  rw [hcut]
  rfl

end Sys2Proof.Machine
end
